-- ==== Sys2Proof/Word.lean ====
section
/-! DEFINITION. The values of the block: bit, symbol, level, signal point and command word (spec/00_scope.md R10,
spec/30_encoding.md R71, R78 to R81). -/

namespace Sys2Proof

/-- One 8-bit command word, bit 7 the most significant (R71). -/
abbrev CommandWord := BitVec 8

/-- A bit is one of the symbols `'0'`, `'1'` (R10). -/
inductive Bit where
  | zero
  | one
  deriving DecidableEq, Repr

/-- A symbol is a bit or the sentinel `'?'` (R10). -/
inductive Symbol where
  | bit (b : Bit)
  | unknown
  deriving DecidableEq, Repr

/-- A level is `+1` (high) or `-1` (low) (R10). -/
inductive Level where
  | low
  | high
  deriving DecidableEq, Repr

/-- A SignalPoint in the encoding of R81: `t2` is twice the time, so a point at `i` has `t2 = 2 * i` and a point at
`i + 0.5` has `t2 = 2 * i + 1`. -/
structure SignalPoint where
  t2 : Nat
  level : Level
  deriving DecidableEq, Repr

end Sys2Proof
end

