-- ==== Sys2Proof/Syntax.lean ====
section
/-! DEFINITION. The commands of the block, one constructor per row of spec/opcode_table.json, with their operands
(spec/30_encoding.md R70, R72 to R77), and the transaction that carries one over the command port. -/

namespace Sys2Proof

/-- The six technique identifiers (R17, R74). -/
inductive Technique where
  | nrzl
  | nrzi
  | manchester
  | diffmanchester
  | bitstuff
  | bytestuff
  deriving DecidableEq, Repr

/-- The four line codes (R17). -/
inductive LineCode where
  | nrzl
  | nrzi
  | man
  | dman
  deriving DecidableEq, Repr

/-- The framing of a session (R17): nothing, bit stuffing or byte stuffing. -/
inductive Framing where
  | plain
  | bit
  | byte
  deriving DecidableEq, Repr

/-- The kind of the original input, the `k` bit of `START` (R75). -/
inductive Kind where
  | text
  | bitstream
  deriving DecidableEq, Repr

/-- What a command word alone names (R85): the row of the opcode table, and for `START` the technique and kind. -/
inductive Opcode where
  | reset
  | start (t : Technique) (k : Kind)
  | tick
  | arm
  | pause
  | resume
  | enc (lc : LineCode)
  | dec (lc : LineCode)
  | stuffBit
  | stuffByte
  | destuffBit
  | destuffByte
  deriving DecidableEq, Repr

/-- One command with its operands (R70, R76). -/
inductive Instr where
  /-- `RESET` (R159). -/
  | reset
  /-- `START.NRZL` (R156). -/
  | startNrzl (kind : Kind) (payload : List Bit)
  /-- `START.NRZI` (R156). -/
  | startNrzi (kind : Kind) (payload : List Bit)
  /-- `START.MAN` (R156). -/
  | startMan (kind : Kind) (payload : List Bit)
  /-- `START.DMAN` (R156). -/
  | startDman (kind : Kind) (payload : List Bit)
  /-- `START.BITSTUFF` (R156). -/
  | startBitstuff (kind : Kind) (payload : List Bit)
  /-- `START.BYTESTUFF` (R156). -/
  | startBytestuff (kind : Kind) (payload : List Bit)
  /-- `TICK` (R160). -/
  | tick
  /-- `ARM` (R165). -/
  | arm
  /-- `PAUSE` (R166). -/
  | pause
  /-- `RESUME` (R167). -/
  | resume
  /-- `ENC.NRZL` (R131). -/
  | encNrzl (b : Bit) (i : Nat) (s : Level)
  /-- `ENC.NRZI` (R132). -/
  | encNrzi (b : Bit) (i : Nat) (s : Level)
  /-- `ENC.MAN` (R133). -/
  | encMan (b : Bit) (i : Nat) (s : Level)
  /-- `ENC.DMAN` (R134). -/
  | encDman (b : Bit) (i : Nat) (s : Level)
  /-- `DEC.NRZL` (R141). -/
  | decNrzl (i : Nat) (s : Level) (pts : List SignalPoint)
  /-- `DEC.NRZI` (R142). -/
  | decNrzi (i : Nat) (s : Level) (pts : List SignalPoint)
  /-- `DEC.MAN` (R143). -/
  | decMan (i : Nat) (s : Level) (pts : List SignalPoint)
  /-- `DEC.DMAN` (R144). -/
  | decDman (i : Nat) (s : Level) (pts : List SignalPoint)
  /-- `STUFF.BIT` (R110). -/
  | stuffBit (x : List Bit)
  /-- `STUFF.BYTE` (R120). -/
  | stuffByte (x : List Bit)
  /-- `DESTUFF.BIT` (R112). -/
  | destuffBit (x : List Bit)
  /-- `DESTUFF.BYTE` (R124). -/
  | destuffByte (x : List Bit)
  deriving DecidableEq, Repr

/-- One transaction on the command port (R70): the command word and the operands that follow it, each operand field
one natural number (a bit cell or a level its digit, a length, an index or a `t2` itself; R76, R78, R80, R81). The spec
gives no bit widths for naturals, so the operands stay numbers (log entry 2). -/
structure Transaction where
  cw : CommandWord
  operands : List Nat
  deriving DecidableEq, Repr

end Sys2Proof
end

