-- ==== Sys2Proof/WellFormed.lean ====
section
/-! DEFINITION. Which commands can be sent at all: the one operand shape the encoding cannot carry is a `DEC` with
more than two points (spec/30_encoding.md R76: `npts` in {0, 1, 2}, "npts = 3 is reserved"). -/

namespace Sys2Proof

/-- A `DEC` carries 0, 1 or 2 points (R76). -/
def pointsFit (pts : List SignalPoint) : Bool := decide (pts.length ≤ 2)

/-- The command's operands fit the encoding of R76. Every other operand is any value of its type. -/
def Instr.wellFormed : Instr → Bool
  | .reset => true
  | .startNrzl _ _ => true
  | .startNrzi _ _ => true
  | .startMan _ _ => true
  | .startDman _ _ => true
  | .startBitstuff _ _ => true
  | .startBytestuff _ _ => true
  | .tick => true
  | .arm => true
  | .pause => true
  | .resume => true
  | .encNrzl _ _ _ => true
  | .encNrzi _ _ _ => true
  | .encMan _ _ _ => true
  | .encDman _ _ _ => true
  | .decNrzl _ _ pts => pointsFit pts
  | .decNrzi _ _ pts => pointsFit pts
  | .decMan _ _ pts => pointsFit pts
  | .decDman _ _ pts => pointsFit pts
  | .stuffBit _ => true
  | .stuffByte _ => true
  | .destuffBit _ => true
  | .destuffByte _ => true

end Sys2Proof
end

