-- ==== Sys2Proof/Decode.lean ====
section
/-! DEFINITION. The decoder, total on every command word and every operand sequence and rejecting by name, and the
encoder (spec/30_encoding.md R71 to R85). -/

namespace Sys2Proof

/-- Why a transaction names no command. Each of these raises `IllegalCommand` (R84, R195). -/
inductive DecodeError where
  /-- The word matches no row of R72 or R73. -/
  | illegalWord
  /-- An operand has a reserved code or lies outside its digits (R84, U11). -/
  | reservedOperand
  /-- The transaction ends before the command's last operand (DESIGN CHOICE, log entry 2). -/
  | missingOperand
  /-- The transaction goes on after the command's last operand (DESIGN CHOICE, log entry 2). -/
  | extraOperand
  deriving DecidableEq, Repr

/-! ## The codes of the values in a transaction -/

/-- R78: `'0'` is 0, `'1'` is 1. -/
def Bit.code : Bit → Nat
  | .zero => 0
  | .one => 1

/-- R78; a bit operand outside its one digit has no value (U11). -/
def bitOfCode : Nat → Option Bit
  | 0 => some .zero
  | 1 => some .one
  | _ => none

/-- R80: 1 is `+1` (high), 0 is `-1` (low). -/
def Level.code : Level → Nat
  | .low => 0
  | .high => 1

/-- R80; a level operand outside its one digit has no value (U11). -/
def levelOfCode : Nat → Option Level
  | 0 => some .low
  | 1 => some .high
  | _ => none

/-- R75: 0 is `text`, 1 is `bitstream`. -/
def Kind.code : Kind → Nat
  | .text => 0
  | .bitstream => 1

/-- R75, on the one digit `k` of the command word. -/
def kindOfBit (k : BitVec 1) : Kind := if k = 0#1 then .text else .bitstream

/-- R74. -/
def Technique.code : Technique → Nat
  | .nrzl => 0
  | .nrzi => 1
  | .manchester => 2
  | .diffmanchester => 3
  | .bitstuff => 4
  | .bytestuff => 5

/-- R74; codes 6 and 7 are reserved. -/
def techniqueOfCode (t : BitVec 3) : Option Technique :=
  match t.toNat with
  | 0 => some .nrzl
  | 1 => some .nrzi
  | 2 => some .manchester
  | 3 => some .diffmanchester
  | 4 => some .bitstuff
  | 5 => some .bytestuff
  | _ => none

/-- The `t` code of a line code in `ENC` and `DEC` (R73, R74). -/
def LineCode.code : LineCode → Nat
  | .nrzl => 0
  | .nrzi => 1
  | .man => 2
  | .dman => 3

/-- "In `ENC` and `DEC` only codes 0 to 3 are legal and name the line code" (R74). -/
def lineCodeOfCode (t : BitVec 3) : Option LineCode :=
  match t.toNat with
  | 0 => some .nrzl
  | 1 => some .nrzi
  | 2 => some .man
  | 3 => some .dman
  | _ => none

/-! ## The command word (R71 to R73) -/

/-- `cw[7]`. -/
def fieldCls (cw : CommandWord) : BitVec 1 := cw.extractLsb' 7 1
/-- `cw[6:4]`. -/
def fieldOp (cw : CommandWord) : BitVec 3 := cw.extractLsb' 4 3
/-- `cw[3]`. -/
def fieldK (cw : CommandWord) : BitVec 1 := cw.extractLsb' 3 1
/-- `cw[2:0]`. -/
def fieldT (cw : CommandWord) : BitVec 3 := cw.extractLsb' 0 3

/-- A row whose `k` and `t` fields "must be 0" (R71). -/
def bareRow (k : BitVec 1) (t : BitVec 3) (o : Opcode) : Option Opcode :=
  if k = 0#1 ∧ t = 0#3 then some o else none

/-- A row whose `k` field must be 0 (R71) and whose `t` field selects among opcodes. -/
def unitRow (k : BitVec 1) (o : Option Opcode) : Option Opcode :=
  if k = 0#1 then o else none

/-- The session commands (R72); `op` 6 and 7 are illegal (R84). -/
def decodeSessionWord (op : BitVec 3) (k : BitVec 1) (t : BitVec 3) : Option Opcode :=
  match op.toNat with
  | 0 => bareRow k t .reset
  | 1 => (techniqueOfCode t).map (fun tech => .start tech (kindOfBit k))
  | 2 => bareRow k t .tick
  | 3 => bareRow k t .arm
  | 4 => bareRow k t .pause
  | 5 => bareRow k t .resume
  | _ => none

/-- The unit operations (R73); `op` 4 to 7 are illegal, and `STUFF` and `DESTUFF` take only `t` 4 and 5 (R84). -/
def decodeUnitWord (op : BitVec 3) (k : BitVec 1) (t : BitVec 3) : Option Opcode :=
  match op.toNat with
  | 0 => unitRow k ((lineCodeOfCode t).map .enc)
  | 1 => unitRow k ((lineCodeOfCode t).map .dec)
  | 2 => unitRow k (if t = 4#3 then some .stuffBit else if t = 5#3 then some .stuffByte else none)
  | 3 => unitRow k (if t = 4#3 then some .destuffBit else if t = 5#3 then some .destuffByte else none)
  | _ => none

/-- "The decoder needs `cw` alone, never `fsm`, to name the command" (R85). `none` is an illegal word (R84). -/
def decodeOpcode (cw : CommandWord) : Option Opcode :=
  if fieldCls cw = 0#1 then decodeSessionWord (fieldOp cw) (fieldK cw) (fieldT cw)
  else decodeUnitWord (fieldOp cw) (fieldK cw) (fieldT cw)

/-! ## The operands (R76) -/

/-- What reading operands from the rest of a transaction gives: the value and what is left. -/
abbrev Reading (α : Type) := Except DecodeError (α × List Nat)

/-- The next operand field of the transaction. -/
def readNat : List Nat → Reading Nat
  | [] => .error .missingOperand
  | n :: rest => .ok (n, rest)

/-- A bit cell (R78). -/
def readBit : List Nat → Reading Bit
  | [] => .error .missingOperand
  | n :: rest =>
    match bitOfCode n with
    | some b => .ok (b, rest)
    | none => .error .reservedOperand

/-- A level (R80). -/
def readLevel : List Nat → Reading Level
  | [] => .error .missingOperand
  | n :: rest =>
    match levelOfCode n with
    | some l => .ok (l, rest)
    | none => .error .reservedOperand

/-- `n` bit cells in index order (R78). -/
def readBits : Nat → List Nat → Reading (List Bit)
  | 0, ops => .ok ([], ops)
  | n + 1, ops =>
    match readBit ops with
    | .error e => .error e
    | .ok (b, rest) =>
      match readBits n rest with
      | .error e => .error e
      | .ok (bs, rest') => .ok (b :: bs, rest')

/-- "A Bitstring is its length (a natural) and its cells in index order" (R78). -/
def readBitstring (ops : List Nat) : Reading (List Bit) :=
  match readNat ops with
  | .error e => .error e
  | .ok (n, rest) => readBits n rest

/-- An encoded point `(t2, lv)` (R81). -/
def readPoint (ops : List Nat) : Reading SignalPoint :=
  match readNat ops with
  | .error e => .error e
  | .ok (t2, rest) =>
    match readLevel rest with
    | .error e => .error e
    | .ok (lv, rest') => .ok ({ t2 := t2, level := lv }, rest')

/-- `n` encoded points. -/
def readPointList : Nat → List Nat → Reading (List SignalPoint)
  | 0, ops => .ok ([], ops)
  | n + 1, ops =>
    match readPoint ops with
    | .error e => .error e
    | .ok (p, rest) =>
      match readPointList n rest with
      | .error e => .error e
      | .ok (ps, rest') => .ok (p :: ps, rest')

/-- The count `npts` in {0, 1, 2} and that many points; `npts = 3` is reserved (R76). -/
def readPoints (ops : List Nat) : Reading (List SignalPoint) :=
  match readNat ops with
  | .error e => .error e
  | .ok (n, rest) => if n ≤ 2 then readPointList n rest else .error .reservedOperand

/-- The command `f` of the value read, when nothing is left of the transaction. -/
def finish {α : Type} (r : Reading α) (f : α → Instr) : Except DecodeError Instr :=
  match r with
  | .error e => .error e
  | .ok (a, []) => .ok (f a)
  | .ok (_, _ :: _) => .error .extraOperand

/-- A command with no operands (R76). -/
def noOperands (ops : List Nat) (i : Instr) : Except DecodeError Instr :=
  finish (.ok ((), ops)) (fun _ => i)

/-- The operands of `ENC.*`: `b`, `i`, `s` (R76). -/
def readEnc (ops : List Nat) : Reading (Bit × Nat × Level) :=
  match readBit ops with
  | .error e => .error e
  | .ok (b, r1) =>
    match readNat r1 with
    | .error e => .error e
    | .ok (i, r2) =>
      match readLevel r2 with
      | .error e => .error e
      | .ok (s, r3) => .ok ((b, i, s), r3)

/-- The operands of `DEC.*`: `i`, `s`, `pts` (R76). -/
def readDec (ops : List Nat) : Reading (Nat × Level × List SignalPoint) :=
  match readNat ops with
  | .error e => .error e
  | .ok (i, r1) =>
    match readLevel r1 with
    | .error e => .error e
    | .ok (s, r2) =>
      match readPoints r2 with
      | .error e => .error e
      | .ok (pts, r3) => .ok ((i, s, pts), r3)

/-- The `START` row of a technique (R72, R158). -/
def startInstr : Technique → Kind → List Bit → Instr
  | .nrzl => .startNrzl
  | .nrzi => .startNrzi
  | .manchester => .startMan
  | .diffmanchester => .startDman
  | .bitstuff => .startBitstuff
  | .bytestuff => .startBytestuff

/-- The `ENC` row of a line code (R73). -/
def encInstr : LineCode → Bit → Nat → Level → Instr
  | .nrzl => .encNrzl
  | .nrzi => .encNrzi
  | .man => .encMan
  | .dman => .encDman

/-- The `DEC` row of a line code (R73). -/
def decInstr : LineCode → Nat → Level → List SignalPoint → Instr
  | .nrzl => .decNrzl
  | .nrzi => .decNrzi
  | .man => .decMan
  | .dman => .decDman

/-- The command of an opcode and the operands of its transaction (R76). -/
def decodeOperands (o : Opcode) (ops : List Nat) : Except DecodeError Instr :=
  match o with
  | .reset => noOperands ops .reset
  | .start t k => finish (readBitstring ops) (startInstr t k)
  | .tick => noOperands ops .tick
  | .arm => noOperands ops .arm
  | .pause => noOperands ops .pause
  | .resume => noOperands ops .resume
  | .enc lc => finish (readEnc ops) (fun a => encInstr lc a.1 a.2.1 a.2.2)
  | .dec lc => finish (readDec ops) (fun a => decInstr lc a.1 a.2.1 a.2.2)
  | .stuffBit => finish (readBitstring ops) .stuffBit
  | .stuffByte => finish (readBitstring ops) .stuffByte
  | .destuffBit => finish (readBitstring ops) .destuffBit
  | .destuffByte => finish (readBitstring ops) .destuffByte

/-- The command a transaction carries, or why it carries none. -/
def decode (tx : Transaction) : Except DecodeError Instr :=
  match decodeOpcode tx.cw with
  | none => .error .illegalWord
  | some o => decodeOperands o tx.operands

/-! ## The encoder -/

/-- The word with the four fields of R71. -/
def packWord (cls op k t : Nat) : CommandWord := BitVec.ofNat 8 (cls * 128 + op * 16 + k * 8 + t)

/-- The command word of an opcode (R72, R73). -/
def encodeOpcode : Opcode → CommandWord
  | .reset => packWord 0 0 0 0
  | .start t k => packWord 0 1 k.code t.code
  | .tick => packWord 0 2 0 0
  | .arm => packWord 0 3 0 0
  | .pause => packWord 0 4 0 0
  | .resume => packWord 0 5 0 0
  | .enc lc => packWord 1 0 0 lc.code
  | .dec lc => packWord 1 1 0 lc.code
  | .stuffBit => packWord 1 2 0 4
  | .stuffByte => packWord 1 2 0 5
  | .destuffBit => packWord 1 3 0 4
  | .destuffByte => packWord 1 3 0 5

/-- A Bitstring as operand fields (R78). -/
def bitstringFields (x : List Bit) : List Nat := x.length :: x.map Bit.code

/-- A point as operand fields (R81). -/
def pointFields (p : SignalPoint) : List Nat := [p.t2, p.level.code]

/-- The operands of `ENC.*` as fields (R76). -/
def encFields (b : Bit) (i : Nat) (s : Level) : List Nat := [b.code, i, s.code]

/-- The operands of `DEC.*` as fields (R76). -/
def decFields (i : Nat) (s : Level) (pts : List SignalPoint) : List Nat :=
  i :: s.code :: pts.length :: pts.flatMap pointFields

/-- The opcode a command's word names. -/
def Instr.opcode : Instr → Opcode
  | .reset => .reset
  | .startNrzl k _ => .start .nrzl k
  | .startNrzi k _ => .start .nrzi k
  | .startMan k _ => .start .manchester k
  | .startDman k _ => .start .diffmanchester k
  | .startBitstuff k _ => .start .bitstuff k
  | .startBytestuff k _ => .start .bytestuff k
  | .tick => .tick
  | .arm => .arm
  | .pause => .pause
  | .resume => .resume
  | .encNrzl _ _ _ => .enc .nrzl
  | .encNrzi _ _ _ => .enc .nrzi
  | .encMan _ _ _ => .enc .man
  | .encDman _ _ _ => .enc .dman
  | .decNrzl _ _ _ => .dec .nrzl
  | .decNrzi _ _ _ => .dec .nrzi
  | .decMan _ _ _ => .dec .man
  | .decDman _ _ _ => .dec .dman
  | .stuffBit _ => .stuffBit
  | .stuffByte _ => .stuffByte
  | .destuffBit _ => .destuffBit
  | .destuffByte _ => .destuffByte

/-- The operand fields that follow a command's word (R76). -/
def Instr.operandFields : Instr → List Nat
  | .reset => []
  | .startNrzl _ p => bitstringFields p
  | .startNrzi _ p => bitstringFields p
  | .startMan _ p => bitstringFields p
  | .startDman _ p => bitstringFields p
  | .startBitstuff _ p => bitstringFields p
  | .startBytestuff _ p => bitstringFields p
  | .tick => []
  | .arm => []
  | .pause => []
  | .resume => []
  | .encNrzl b i s => encFields b i s
  | .encNrzi b i s => encFields b i s
  | .encMan b i s => encFields b i s
  | .encDman b i s => encFields b i s
  | .decNrzl i s pts => decFields i s pts
  | .decNrzi i s pts => decFields i s pts
  | .decMan i s pts => decFields i s pts
  | .decDman i s pts => decFields i s pts
  | .stuffBit x => bitstringFields x
  | .stuffByte x => bitstringFields x
  | .destuffBit x => bitstringFields x
  | .destuffByte x => bitstringFields x

/-- The transaction that carries a command. -/
def encode (i : Instr) : Transaction :=
  { cw := encodeOpcode i.opcode, operands := i.operandFields }

/-! ## The opcode table's words -/

/-- The operands of an opcode with every field 0: an empty Bitstring, a bit `'0'` at index 0 with level `-1`, no points. -/
def zeroOperands : Opcode → List Nat
  | .reset => []
  | .start _ _ => [0]
  | .tick => []
  | .arm => []
  | .pause => []
  | .resume => []
  | .enc _ => [0, 0, 0]
  | .dec _ => [0, 0, 0]
  | .stuffBit => [0]
  | .stuffByte => [0]
  | .destuffBit => [0]
  | .destuffByte => [0]

/-- The transaction of a command word whose operand fields are all 0. -/
def zeroTransaction (cw : CommandWord) : Transaction :=
  match decodeOpcode cw with
  | none => { cw := cw, operands := [] }
  | some o => { cw := cw, operands := zeroOperands o }

/-- The command word in the low 8 of `nbits` bits `w` of an opcode-table word; `none` where a bit above them is set, since
operands have no bit layout (log entry 2). -/
def tableCommandWord (nbits w : Nat) : Option CommandWord :=
  if w % 2 ^ nbits < 256 then some (BitVec.ofNat 8 (w % 2 ^ nbits)) else none

/-- The instruction the decoder reads from the opcode-table word `w` of `nbits` bits, its operands 0. -/
def decodeTableWord (nbits w : Nat) : Option Instr :=
  match tableCommandWord nbits w with
  | none => none
  | some cw =>
    match decode (zeroTransaction cw) with
    | .ok i => some i
    | .error _ => none

end Sys2Proof
end

