-- ==== Sys2Proof/Config.lean ====
section
/-! DEFINITION. The parameters of an instance (spec/00_scope.md R8, spec/10_state.md R37) and the values the spec
leaves open (spec/93_implementation_defined.md U6, U8, U9). -/

namespace Sys2Proof

/-- Which function the parameter `byteDestuffBestEffort` is (R8, U6): the default, "rule R124's algorithm", or some
other function, whose bits are then those of `Config.otherBestEffort`, of which nothing is known. -/
inductive BestEffort where
  | rule124
  | other
  deriving DecidableEq, Repr

/-- The parameters of R8 that have a default. They are fixed for the life of an instance and no command changes them
(R37). The model keeps them in `State` so that a statement about every state is a statement about every value of the
parameters (DESIGN CHOICE, log entry 3). -/
structure Config where
  /-- `NRZL_L0`: the level NRZ-L emits for bit `'0'`. -/
  nrzlL0 : Level
  /-- `INIT_NRZI`: the initial carried level of the NRZ-I encoder and decoder. -/
  initNrzi : Level
  /-- `INIT_DMAN`: the initial carried level of the Differential Manchester encoder and decoder. -/
  initDman : Level
  /-- `CAP`: the largest length of `processedData` the block accepts; `none` is `unbounded`. -/
  cap : Option Nat
  /-- `byteDestuffBestEffort`: the content of the output of a failed byte destuffing. -/
  bestEffort : BestEffort
  deriving DecidableEq, Repr

/-- The default column of R8. -/
def Config.default : Config :=
  { nrzlL0 := .high, initNrzi := .low, initDman := .low, cap := none, bestEffort := .rule124 }

/-- FREE VALUE (R8, D19, U6; log entry 4): the bits of the output of a failed byte destuffing on an instance whose
`byteDestuffBestEffort` is not the default, before `Machine.otherOutput` bounds their number as R52 and R124 do. -/
opaque Config.otherBestEffort : List Symbol → List Bit

/-- FREE VALUE (R8, R103 (a), D35, U8; log entry 5): `PAD0`, the text `bitsToText` yields for a zero field produced by
padding. A parameter of the host, "left open". -/
opaque Config.pad0 : List Char

/-- FREE VALUE (R104, D14, U9; log entry 15): whether the host's forced-bitstream mode strips whitespace before it
looks at the characters. -/
opaque Config.forcedModeStripsWhitespace : Bool

end Sys2Proof
end

