-- ==== Sys2Proof/Machine/State.lean ====
section
/-! DEFINITION. The state of the block, its value after reset, and the reasons a step can stop
(spec/10_state.md R20 to R31, spec/70_reset_and_hazards.md R220, R221). -/

namespace Sys2Proof.Machine

/-- The control state (R20, R24). -/
inductive Fsm where
  | idle
  | running
  | paused
  | completed
  deriving DecidableEq, Repr

/-- The match verdict (R20, R29). -/
inductive Verdict where
  | none
  | isMatch
  | mismatch
  deriving DecidableEq, Repr

/-- The result of the last command (R20, R82). -/
inductive Status where
  | ok
  | validationError
  | illegalState
  | illegalCommand
  deriving DecidableEq, Repr

/-- The per-step output record (R30). -/
structure StepOut where
  valid : Bool
  index : Nat
  bit : Bit
  points : List SignalPoint
  decoded : Symbol
  error : Bool
  deriving DecidableEq, Repr

/-- The value `RESET` and a successful `START` give `stepOut` (R30). -/
def StepOut.reset : StepOut :=
  { valid := false, index := 0, bit := .zero, points := [], decoded := .bit .zero, error := false }

/-- The results a command returns beside `status` (R77); session commands return none. -/
inductive Result where
  /-- `ENC.*`: `pts` and `s'`. -/
  | encoded (pts : List SignalPoint) (s' : Level)
  /-- `DEC.*`: `y` and `s'`. -/
  | decoded (y : Symbol) (s' : Level)
  /-- `STUFF.*`: `stuffed` and `ins`, the source's `StuffingResult`. -/
  | stuffed (out : List Bit) (ins : List Nat)
  /-- `DESTUFF.BIT`: `out`. -/
  | destuffedBit (out : List Bit)
  /-- `DESTUFF.BYTE`: `out` and `err`. -/
  | destuffedByte (out : List Bit) (err : Bool)
  deriving DecidableEq, Repr

/-- The state: the eighteen elements of R20, and three fields of the model's own (`config`, `result`, `port`). A finite
set of naturals is the strictly ascending list of its members (log entry 12). -/
structure State where
  /-- The model's own: the parameters of R8, "configuration, fixed for the life of an instance" (R37; log entry 3). -/
  config : Config
  fsm : Fsm
  tech : Option Technique
  kind : Option Kind
  origData : List Bit
  processedData : List Bit
  insertedPositions : List Nat
  /-- The index of the next bit to be stepped: the program counter (R23). -/
  position : Nat
  encLevel : Level
  decLevel : Level
  pendingErrorInjection : Bool
  signalLog : List SignalPoint
  decodedBits : List Symbol
  errorPositions : List Nat
  stepOut : StepOut
  finalBits : List Symbol
  frameError : Bool
  verdict : Verdict
  status : Status
  /-- The model's own: the results R77 returns with a command, "valid only when `status = OK`" (log entry 6). -/
  result : Option Result
  /-- The model's own: the transactions waiting at the command port, the next one first (R70, U2; log entry 1). -/
  port : List Transaction
  deriving DecidableEq, Repr

/-- The state after power-on, which is the state after `RESET` (R220, R221), of an instance with the default parameters
(R8), with no command at its port. -/
def State.reset : State :=
  { config := Config.default
    fsm := .idle
    tech := none
    kind := none
    origData := []
    processedData := []
    insertedPositions := []
    position := 0
    encLevel := .low
    decLevel := .low
    pendingErrorInjection := false
    signalLog := []
    decodedBits := []
    errorPositions := []
    stepOut := StepOut.reset
    finalBits := []
    frameError := false
    verdict := .none
    status := .ok
    result := none
    port := [] }

/-- Why the model stops. Both are raised by `TICK` alone, in states that no run reaches from reset
(`Obligations.InvariantHoldsEveryStepAnswersNext`), and both are SAFE: the model stops where the spec gives no rule. -/
inductive Fault where
  /-- `TICK` in `Running` with `tech = none`: `lineCode` "has no value while `tech = none`" (R21). Raised by `execTick`;
  safe (log entry 8). -/
  | noTechnique
  /-- `TICK` in `Running` with `position` outside `processedData`: "An access outside `[0, len(SPACE))` cannot be
  expressed by any rule of this spec" (R13). Raised by `execTick`; safe (log entry 8). -/
  | readOutsideBuffer
  deriving DecidableEq, Repr

/-- Why the model refuses an instruction. -/
inductive Refusal where
  /-- The instruction has no meaning in the model yet. Raised by an arm of `exec` alone; no arm of this model raises
  it; safe. -/
  | notModelled (mnemonic : String)
  deriving DecidableEq, Repr

end Sys2Proof.Machine
end

