-- ==== Sys2Proof/Machine/Ops.lean ====
section
/-! DEFINITION. The named operations over bits, levels, buffers, position sets and the command's end
(spec/00_scope.md R10 to R14, spec/20_memory.md R54, R55, spec/60_exceptions.md R198, R199). -/

namespace Sys2Proof

/-- "complement(b): '0' for '1', '1' for '0'" (R160). -/
def Bit.complement : Bit → Bit
  | .zero => .one
  | .one => .zero

/-- "`-v` is the other level" (R10). -/
def Level.neg : Level → Level
  | .low => .high
  | .high => .low

namespace Machine

/-! ## Buffers (R11, R13) -/

/-- `MemRead(SPACE, a, n)`: the cells `SPACE[a .. a+n)` (R13). Where the range ends outside the buffer, no rule reads. -/
def memRead {α : Type} (space : List α) (a n : Nat) : List α := (space.drop a).take n

/-- `MemWrite(SPACE, a, n, v)`: the buffer with the cells `SPACE[a .. a+n)` replaced by `v` (R13). -/
def memWrite {α : Type} (space : List α) (a n : Nat) (v : List α) : List α :=
  space.take a ++ v ++ space.drop (a + n)

/-- The first `n` bytes of a sequence, a byte being "8 consecutive bit cells `s[8k .. 8k+8)`" (R54). -/
def bytesFrom {α : Type} : Nat → List α → List (List α)
  | 0, _ => []
  | n + 1, s => s.take 8 :: bytesFrom n (s.drop 8)

/-- The whole bytes of a sequence, "groups of 8 starting at index 0" (R55). -/
def wholeBytes {α : Type} (s : List α) : List (List α) := bytesFrom (s.length / 8) s

/-- The cells after the last whole byte. -/
def leftoverCells {α : Type} (s : List α) : List α := s.drop (8 * (s.length / 8))

/-- "its input length must be a multiple of 8" (R56). -/
def byteAligned {α : Type} (s : List α) : Bool := decide (s.length % 8 = 0)

/-- The numeric value of a byte: the cell with the lowest index is the most significant bit (R54). -/
def byteValue (s : List Bit) : Nat :=
  s.foldl (fun v b => 2 * v + b.code) 0

/-! ## Sets of positions, as strictly ascending lists (log entry 12) -/

/-- `ins ∪ {p}`. -/
def insertPosition (p : Nat) : List Nat → List Nat
  | [] => [p]
  | q :: qs => if p < q then p :: q :: qs else if p = q then q :: qs else q :: insertPosition p qs

/-- The canonical form of a set of positions. -/
def positionsAscend : List Nat → Bool
  | [] => true
  | [_] => true
  | p :: q :: qs => decide (p < q) && positionsAscend (q :: qs)

/-- The block has no byte-addressed memory (R50); what has a canonical form is its two sets of positions. -/
def Memory.wf (s : State) : Bool :=
  positionsAscend s.insertedPositions && positionsAscend s.errorPositions

/-! ## The end of a command -/

/-- `raise <Kind>`: "ends the current command at once: none of the command's writes take effect, `status` gets the code
of `<Kind>` and `fsm` keeps its value" (R14, R198). `s` is the state before the command. -/
def raise (kind : Status) (s : State) : Host.Outcome State Fault Refusal :=
  .next { s with status := kind }

/-- The end of a session command that is not refused: `status <- OK`, and no result beside it (R77). There is no return
from an error; "the next command executes normally and overwrites `status`" (R199). -/
def finishSession (s : State) : Host.Outcome State Fault Refusal :=
  .next { s with status := .ok, result := none }

/-- The end of a unit operation that is not refused: it "writes only its results and `status`" (R70). -/
def finishUnit (r : Result) (s : State) : Host.Outcome State Fault Refusal :=
  .next { s with status := .ok, result := some r }

end Machine

end Sys2Proof
end

