-- ==== Sys2Proof/Machine/Operands.lean ====
section
/-! DEFINITION. What a technique means (spec/30_encoding.md R74, spec/45_session_stepper.md R152, spec/10_state.md R26)
and the encodings of the values the host reads (spec/30_encoding.md R78 to R83). -/

namespace Sys2Proof.Machine

/-! ## Technique dispatch -/

/-- `lineCode(tech)` (R74, R152). -/
def lineCodeOf : Technique → LineCode
  | .nrzl => .nrzl
  | .nrzi => .nrzi
  | .manchester => .man
  | .diffmanchester => .dman
  | .bitstuff => .nrzl
  | .bytestuff => .nrzl

/-- `framing(tech)` (R74, R152). -/
def framingOf : Technique → Framing
  | .nrzl => .plain
  | .nrzi => .plain
  | .manchester => .plain
  | .diffmanchester => .plain
  | .bitstuff => .bit
  | .bytestuff => .byte

/-- `INIT(lineCode)`, the level both carried registers start a session with (R26). -/
def initLevel (cfg : Config) : LineCode → Level
  | .nrzl => .low
  | .nrzi => cfg.initNrzi
  | .man => .low
  | .dman => cfg.initDman

/-- `NRZL_L0` for `'0'` and `NRZL_L1 = -NRZL_L0` for `'1'` (R8). -/
def nrzlLevel (cfg : Config) : Bit → Level
  | .zero => cfg.nrzlL0
  | .one => cfg.nrzlL0.neg

/-- `len(pd) > CAP` fails (R154): the length is within the capacity. -/
def fitsCap (cfg : Config) (n : Nat) : Bool :=
  match cfg.cap with
  | none => true
  | some c => decide (n ≤ c)

/-! ## The encodings of values (R79, R82, R83) -/

/-- R79: `00` is `'0'`, `01` is `'1'`, `10` is `'?'`. -/
def symbolCode : Symbol → BitVec 2
  | .bit .zero => 0#2
  | .bit .one => 1#2
  | .unknown => 2#2

/-- R79: `11` is reserved, never accepted. -/
def symbolOfCode (c : BitVec 2) : Option Symbol :=
  if c = 0#2 then some (.bit .zero) else if c = 1#2 then some (.bit .one)
  else if c = 2#2 then some .unknown else none

/-- R82. -/
def statusCode : Status → BitVec 2
  | .ok => 0#2
  | .validationError => 1#2
  | .illegalState => 2#2
  | .illegalCommand => 3#2

/-- R83. -/
def fsmCode : Fsm → BitVec 2
  | .idle => 0#2
  | .running => 1#2
  | .paused => 2#2
  | .completed => 3#2

/-- R83; code 3 is reserved and never produced. -/
def verdictCode : Verdict → BitVec 2
  | .none => 0#2
  | .isMatch => 1#2
  | .mismatch => 2#2

/-- R83: the codes of R74, "with 7 standing for `none`". -/
def techCode : Option Technique → BitVec 3
  | none => 7#3
  | some t => BitVec.ofNat 3 t.code

/-- R83: "0 = `text`, 1 = `bitstream`, 3 = `none`, 2 reserved". -/
def kindCode : Option Kind → BitVec 2
  | none => 3#2
  | some k => BitVec.ofNat 2 k.code

/-- R83: "Booleans are 1 digit, 1 = true". -/
def boolCode : Bool → BitVec 1
  | false => 0#1
  | true => 1#1

end Sys2Proof.Machine
end

