-- ==== Sys2Proof/Machine/Flags.lean ====
section
/-! DEFINITION. The flags finalization computes and the flags' reset (spec/10_state.md R28, R29,
spec/45_session_stepper.md R170, R174). -/

namespace Sys2Proof.Machine

/-- A Bitstring as a sequence of symbols. -/
def asSymbols (x : List Bit) : List Symbol := x.map .bit

/-- The match verdict applies "exactly when `kind = bitstream` and `framing(tech) = none`" (R174). -/
def verdictApplies (kind : Option Kind) (f : Framing) : Bool :=
  decide (kind = some .bitstream) && decide (f = .plain)

/-- "`match` when `finalBits` and `origData` have the same length and the same symbol at every index, else `mismatch`";
"otherwise it is `none`" (R174). -/
def verdictOf (kind : Option Kind) (f : Framing) (final : List Symbol) (orig : List Bit) : Verdict :=
  if verdictApplies kind f then (if final = asSymbols orig then .isMatch else .mismatch) else .none

/-- `e <- (y = '?')` (R160): whether an uninjected step records an error (R163). -/
def decodeFailed : Symbol → Bool
  | .bit _ => false
  | .unknown => true

/-- `errorPositions ∪ {i}` when the step records an error (R160). -/
def recordError (e : Bool) (i : Nat) (errors : List Nat) : List Nat :=
  if e then insertPosition i errors else errors

end Sys2Proof.Machine
end

