-- ==== Sys2Proof/Machine/LineEncoder.lean ====
section
/-! DEFINITION. The Line Encoder, ENC.NRZL, ENC.NRZI, ENC.MAN and ENC.DMAN (spec/43_line_encoder.md). -/

namespace Sys2Proof.Machine

/-- The point at time `i` (R81). -/
def pointAt (i : Nat) (l : Level) : SignalPoint := { t2 := 2 * i, level := l }

/-- The point at time `i + 0.5` (R9, R81). -/
def pointHalf (i : Nat) (l : Level) : SignalPoint := { t2 := 2 * i + 1, level := l }

/-- `ENC.NRZL(b, i, s)` (R131). -/
def encodeNrzl (cfg : Config) (b : Bit) (i : Nat) (s : Level) : List SignalPoint × Level :=
  ([pointAt i (nrzlLevel cfg b)], s)

/-- `ENC.NRZI(b, i, s)` (R132): "if bit is `1`, flip the carried level; if bit is `0`, leave it unchanged". -/
def encodeNrzi (b : Bit) (i : Nat) (s : Level) : List SignalPoint × Level :=
  let s' := if b = .one then s.neg else s
  ([pointAt i s'], s')

/-- `ENC.MAN(b, i, s)` (R133). -/
def encodeMan (b : Bit) (i : Nat) (s : Level) : List SignalPoint × Level :=
  match b with
  | .zero => ([pointAt i .high, pointHalf i .low], s)
  | .one => ([pointAt i .low, pointHalf i .high], s)

/-- `ENC.DMAN(b, i, s)` (R134): "if bit is `0`, flip the carried level *before* emitting"; "then always flip again". -/
def encodeDman (b : Bit) (i : Nat) (s : Level) : List SignalPoint × Level :=
  let a := if b = .zero then s.neg else s
  ([pointAt i a, pointHalf i a.neg], a.neg)

/-- `ENC.LC(b, i, s)`, the encoder named by the line code (R160). -/
def encodeLine (cfg : Config) : LineCode → Bit → Nat → Level → List SignalPoint × Level
  | .nrzl => encodeNrzl cfg
  | .nrzi => encodeNrzi
  | .man => encodeMan
  | .dman => encodeDman

/-- The result record of an encoder. -/
def encodedResult (r : List SignalPoint × Level) : Result := .encoded r.1 r.2

/-- `ENC.NRZL b, i, s` (R131); "`status = OK` for every operand" (R130). -/
def execEncNrzl (b : Bit) (i : Nat) (l : Level) (s : State) : Host.Outcome State Fault Refusal :=
  finishUnit (encodedResult (encodeNrzl s.config b i l)) s

/-- `ENC.NRZI b, i, s` (R132). -/
def execEncNrzi (b : Bit) (i : Nat) (l : Level) (s : State) : Host.Outcome State Fault Refusal :=
  finishUnit (encodedResult (encodeNrzi b i l)) s

/-- `ENC.MAN b, i, s` (R133). -/
def execEncMan (b : Bit) (i : Nat) (l : Level) (s : State) : Host.Outcome State Fault Refusal :=
  finishUnit (encodedResult (encodeMan b i l)) s

/-- `ENC.DMAN b, i, s` (R134). -/
def execEncDman (b : Bit) (i : Nat) (l : Level) (s : State) : Host.Outcome State Fault Refusal :=
  finishUnit (encodedResult (encodeDman b i l)) s

end Sys2Proof.Machine
end

