-- ==== Sys2Proof/Machine/LineDecoder.lean ====
section
/-! DEFINITION. The Line Decoder, DEC.NRZL, DEC.NRZI, DEC.MAN and DEC.DMAN (spec/44_line_decoder.md). -/

namespace Sys2Proof.Machine

/-- The level at the end of a bit's interval: the level of the last point, and `s` when no point was supplied (R144,
R145). -/
def lastLevel (s : Level) (pts : List SignalPoint) : Level :=
  match pts.getLast? with
  | none => s
  | some p => p.level

/-- "exactly two points at `i` and `i+0.5`" (R143), of different levels: what `DEC.MAN` and `DEC.DMAN` take as a valid
pattern (R143, R144); the level of the first point. -/
def validPair (i : Nat) (pts : List SignalPoint) : Option Level :=
  match pts with
  | [p, q] => if p.t2 = 2 * i ∧ q.t2 = 2 * i + 1 ∧ p.level ≠ q.level then some p.level else none
  | _ => none

/-- `DEC.NRZL(i, s, pts)` (R141); `none` where the operand is not "a single point". -/
def decodeNrzl (cfg : Config) (_i : Nat) (s : Level) (pts : List SignalPoint) : Option (Symbol × Level) :=
  match pts with
  | [p] => some (.bit (if p.level = cfg.nrzlL0 then .zero else .one), s)
  | _ => none

/-- `DEC.NRZI(i, s, pts)` (R142): "transition (`level != levelBeforeThisBit`) → `1`; no transition → `0`"; `none` where
the operand is not one point. -/
def decodeNrzi (_i : Nat) (s : Level) (pts : List SignalPoint) : Option (Symbol × Level) :=
  match pts with
  | [p] => some (.bit (if p.level = s then .zero else .one), p.level)
  | _ => none

/-- `DEC.MAN(i, s, pts)` (R143): "any other combination" is "decoded as the sentinel `'?'`". -/
def decodeMan (i : Nat) (s : Level) (pts : List SignalPoint) : Symbol × Level :=
  match validPair i pts with
  | some .high => (.bit .zero, s)
  | some .low => (.bit .one, s)
  | none => (.unknown, s)

/-- `DEC.DMAN(i, s, pts)` (R144): "if the first point's level differs from `levelBeforeThisBit`, decode `0`, else decode
`1`". -/
def decodeDman (i : Nat) (s : Level) (pts : List SignalPoint) : Symbol × Level :=
  match validPair i pts with
  | some a => (.bit (if a = s then .one else .zero), lastLevel s pts)
  | none => (.unknown, lastLevel s pts)

/-- `DEC.LC(i, s, pts)`, the decoder named by the line code; `none` where it refuses the operand's shape. -/
def decodeLine (cfg : Config) : LineCode → Nat → Level → List SignalPoint → Option (Symbol × Level)
  | .nrzl, i, s, pts => decodeNrzl cfg i s pts
  | .nrzi, i, s, pts => decodeNrzi i s pts
  | .man, i, s, pts => some (decodeMan i s pts)
  | .dman, i, s, pts => some (decodeDman i s pts)

/-- The end of a decoder command: its results, or `IllegalCommand` "which changes nothing but `status`" (R84). -/
def finishDecode (r : Option (Symbol × Level)) (s : State) : Host.Outcome State Fault Refusal :=
  match r with
  | some (y, l) => finishUnit (.decoded y l) s
  | none => raise .illegalCommand s

/-- The points as an operand of `DEC`: "`npts = 3` is reserved" (R76), so more than two points are no operand of the command
and raise `IllegalCommand` (R84; log entry 11). -/
def withPoints (pts : List SignalPoint) (r : Option (Symbol × Level)) : Option (Symbol × Level) :=
  if pointsFit pts then r else none

/-- `DEC.NRZL i, s, pts` (R141). -/
def execDecNrzl (i : Nat) (l : Level) (pts : List SignalPoint) (s : State) : Host.Outcome State Fault Refusal :=
  finishDecode (withPoints pts (decodeNrzl s.config i l pts)) s

/-- `DEC.NRZI i, s, pts` (R142). -/
def execDecNrzi (i : Nat) (l : Level) (pts : List SignalPoint) (s : State) : Host.Outcome State Fault Refusal :=
  finishDecode (withPoints pts (decodeNrzi i l pts)) s

/-- `DEC.MAN i, s, pts` (R143). -/
def execDecMan (i : Nat) (l : Level) (pts : List SignalPoint) (s : State) : Host.Outcome State Fault Refusal :=
  finishDecode (withPoints pts (some (decodeMan i l pts))) s

/-- `DEC.DMAN i, s, pts` (R144). -/
def execDecDman (i : Nat) (l : Level) (pts : List SignalPoint) (s : State) : Host.Outcome State Fault Refusal :=
  finishDecode (withPoints pts (some (decodeDman i l pts))) s

end Sys2Proof.Machine
end

