-- ==== Sys2Proof/Machine/BitStuffing.lean ====
section
/-! DEFINITION. The Framer's bit stuffer and destuffer, STUFF.BIT and DESTUFF.BIT (spec/41_framer_bit_stuffing.md). -/

namespace Sys2Proof.Machine

/-- The stuffing run length (R9). -/
def runLength : Nat := 5

/-- The scan of R110 from a point where `c` consecutive `'1'`s have just been read and `n` cells written: the cells
still to be written and the indices of the synthetic `'0'`s among them. -/
def stuffScan (c n : Nat) : List Bit → List Bit × List Nat
  | [] => ([], [])
  | .zero :: x =>
    let r := stuffScan 0 (n + 1) x
    (.zero :: r.1, r.2)
  | .one :: x =>
    if c + 1 = runLength then
      let r := stuffScan 0 (n + 2) x
      (.one :: .zero :: r.1, (n + 1) :: r.2)
    else
      let r := stuffScan (c + 1) (n + 1) x
      (.one :: r.1, r.2)

/-- `STUFF.BIT(x)`: `stuffed` and `ins` (R110). -/
def stuffBits (x : List Bit) : List Bit × List Nat := stuffScan 0 0 x

/-- The scan of R112 from a point where `c` consecutive `one`s have just been read. It is written over any kind of cell
with a `zero` and a `one`, since the unit operation scans bits and finalization scans symbols; a cell that is
neither is kept and resets the counter, as in the pseudocode's last branch (log entry 9). -/
def destuffScan {α : Type} [DecidableEq α] (zero one : α) (c : Nat) : List α → List α
  | [] => []
  | b :: s =>
    if b = one then
      if c + 1 = runLength then
        match s with
        | [] => [b]
        | d :: s' => if d = zero then b :: destuffScan zero one 0 s' else b :: destuffScan zero one 0 (d :: s')
      else b :: destuffScan zero one (c + 1) s
    else b :: destuffScan zero one 0 s

/-- `DESTUFF.BIT(s)` on a Bitstring (R112). -/
def destuffBits (s : List Bit) : List Bit := destuffScan .zero .one 0 s

/-- `DESTUFF.BIT(decodedBits)` in finalization (R171). -/
def destuffBitSymbols (s : List Symbol) : List Symbol := destuffScan (.bit .zero) (.bit .one) 0 s

/-- `STUFF.BIT x` (R110): "`status = OK` always". -/
def execStuffBit (x : List Bit) (s : State) : Host.Outcome State Fault Refusal :=
  finishUnit (.stuffed (stuffBits x).1 (stuffBits x).2) s

/-- `DESTUFF.BIT s` (R112, R114): total, with no error result. -/
def execDestuffBit (x : List Bit) (s : State) : Host.Outcome State Fault Refusal :=
  finishUnit (.destuffedBit (destuffBits x)) s

end Sys2Proof.Machine
end

