-- ==== Sys2Proof/Machine/ByteStuffing.lean ====
section
/-! DEFINITION. The Framer's byte-stuffing codec, STUFF.BYTE and DESTUFF.BYTE (spec/42_framer_byte_stuffing.md). -/

namespace Sys2Proof.Machine

/-- `FLAG = 01111110` (R9, R54). -/
def flagByte : List Bit := [.zero, .one, .one, .one, .one, .one, .one, .zero]

/-- `ESC = 01111101` (R9, R54). -/
def escByte : List Bit := [.zero, .one, .one, .one, .one, .one, .zero, .one]

/-- "B = FLAG or B = ESC" (R120). -/
def needsEscape (B : List Bit) : Bool := decide (B = flagByte) || decide (B = escByte)

/-- The loop of R120 over the bytes still to be copied, `n` cells having been written. -/
def escapeBytes (n : Nat) : List (List Bit) → List Bit × List Nat
  | [] => ([], [])
  | B :: bs =>
    if needsEscape B then
      let r := escapeBytes (n + 16) bs
      (escByte ++ (B ++ r.1), n :: r.2)
    else
      let r := escapeBytes (n + 8) bs
      (B ++ r.1, r.2)

/-- `STUFF.BYTE(x)`: `stuffed` and `ins` (R120). It "requires len(x) mod 8 = 0". -/
def stuffBytes (x : List Bit) : List Bit × List Nat :=
  let r := escapeBytes 8 (wholeBytes x)
  (flagByte ++ (r.1 ++ flagByte), r.2)

/-- The loop of R124 over the whole bytes still to be read, with the cells `tail` after the last of them: what is copied
and whether the frame is in error. -/
def unescapeBytes {α : Type} [DecidableEq α] (flag esc tail : List α) : List (List α) → List α × Bool
  | [] => ([], true)
  | B :: bs =>
    if B = esc then
      match bs with
      | [] => ([], true)
      | D :: bs' =>
        let r := unescapeBytes flag esc tail bs'
        (D ++ r.1, r.2)
    else if B = flag then ([], decide (¬ (bs = [] ∧ tail = [])))
    else
      let r := unescapeBytes flag esc tail bs
      (B ++ r.1, r.2)

/-- Rule R124's algorithm, over any kind of cell: the unit operation reads bits and finalization reads symbols (log
entry 9). -/
def destuffByteScan {α : Type} [DecidableEq α] (flag esc : List α) (s : List α) : List α × Bool :=
  match wholeBytes s with
  | [] => ([], true)
  | B :: bs =>
    if B = flag then unescapeBytes flag esc (leftoverCells s) bs
    else ((unescapeBytes flag esc (leftoverCells s) (B :: bs)).1, true)

/-- How many of `m` cells an output for `given` cells may have: with a finite `CAP`, "no buffer overflows", so an output for at
most `CAP` cells, as every `decodedBits` is, has at most `CAP` (R52). -/
def boundedLength (cap : Option Nat) (given m : Nat) : Nat :=
  match cap with
  | none => m
  | some c => if given ≤ c then min m c else m

/-- The best-effort output for `s` on an instance whose parameter `byteDestuffBestEffort` is not the default. Its bits are free
(U6, D19), its length is not: it is "always a multiple of 8 long" (R124) and within `CAP` (R52). Every function that meets both
is one of these, since the cut leaves its outputs as they are (log entry 4). -/
def otherOutput (cfg : Config) (s : List Symbol) : List Bit :=
  let y := Config.otherBestEffort s
  y.take (8 * (boundedLength cfg.cap s.length y.length / 8))

/-- The output and `err` of `DESTUFF.BYTE`, given those of rule R124's algorithm: the parameter `byteDestuffBestEffort` is
the "content of the best-effort output of a failed byte destuffing" (R8) and nothing else; "the value of the flag is
the source's and is not a parameter" (D19). `other` is the output of an instance whose parameter is not the default. -/
def bestEffortOutput {α : Type} (cfg : Config) (r : List α × Bool) (other : List α) : List α × Bool :=
  match cfg.bestEffort with
  | .rule124 => r
  | .other => if r.2 then (other, r.2) else r

/-- `DESTUFF.BYTE(s)` on a Bitstring (R124). -/
def destuffBytes (cfg : Config) (s : List Bit) : List Bit × Bool :=
  bestEffortOutput cfg (destuffByteScan flagByte escByte s) (otherOutput cfg (asSymbols s))

/-- `DESTUFF.BYTE(decodedBits)` in finalization (R172). -/
def destuffByteSymbols (cfg : Config) (s : List Symbol) : List Symbol × Bool :=
  bestEffortOutput cfg (destuffByteScan (asSymbols flagByte) (asSymbols escByte) s)
    (asSymbols (otherOutput cfg s))

/-- `STUFF.BYTE x` (R120): a length that is not a multiple of 8 "is refused with `IllegalCommand`". -/
def execStuffByte (x : List Bit) (s : State) : Host.Outcome State Fault Refusal :=
  if byteAligned x then finishUnit (.stuffed (stuffBytes x).1 (stuffBytes x).2) s else raise .illegalCommand s

/-- `DESTUFF.BYTE s` (R124): "`status = OK` for every `s`". -/
def execDestuffByte (x : List Bit) (s : State) : Host.Outcome State Fault Refusal :=
  finishUnit (.destuffedByte (destuffBytes s.config x).1 (destuffBytes s.config x).2) s

end Sys2Proof.Machine
end

