-- ==== Sys2Proof/Machine/Session.lean ====
section
/-! DEFINITION. Finalization and the session commands RESET, START.*, ARM, PAUSE and RESUME
(spec/45_session_stepper.md R150 to R159, R165 to R167, R170 to R175). -/

namespace Sys2Proof.Machine

/-! ## Finalization (R170 to R175) -/

/-- The framing's inverse on `decodedBits`: `finalBits` and `frameError` (R170 to R173). -/
def deframe (cfg : Config) (f : Framing) (j : List Symbol) : List Symbol × Bool :=
  match f with
  | .plain => (j, false)
  | .bit => (destuffBitSymbols j, false)
  | .byte => destuffByteSymbols cfg j

/-- `finalize()` of a session of technique `t` (R170): it writes `finalBits`, `frameError` and `verdict`. -/
def finalize (t : Technique) (s : State) : State :=
  let r := deframe s.config (framingOf t) s.decodedBits
  { s with
    finalBits := r.1
    frameError := r.2
    verdict := verdictOf s.kind (framingOf t) r.1 s.origData }

/-! ## START (R151 to R158) -/

/-- `(pd, ins)`: the framed bitstring and the inserted positions (R156). -/
def frame (f : Framing) (payload : List Bit) : List Bit × List Nat :=
  match f with
  | .plain => (payload, [])
  | .bit => stuffBits payload
  | .byte => stuffBytes payload

/-- The tests of `START` after the one of `fsm`: empty payload, byte alignment, capacity (R153, R155, R154, R197). -/
def startValid (cfg : Config) (f : Framing) (payload : List Bit) : Bool :=
  !payload.isEmpty && (decide (f ≠ .byte) || byteAligned payload) && fitsCap cfg (frame f payload).1.length

/-- The writes of an accepted `START` before its test of an empty framed bitstring (R156). -/
def beginSession (t : Technique) (kind : Kind) (payload : List Bit) (s : State) : State :=
  { s with
    fsm := .running
    tech := some t
    kind := some kind
    origData := payload
    processedData := (frame (framingOf t) payload).1
    insertedPositions := (frame (framingOf t) payload).2
    position := 0
    encLevel := initLevel s.config (lineCodeOf t)
    decLevel := initLevel s.config (lineCodeOf t)
    pendingErrorInjection := false
    signalLog := []
    decodedBits := []
    errorPositions := []
    stepOut := StepOut.reset
    finalBits := []
    frameError := false
    verdict := .none }

/-- "If the framed bitstream is empty, transition straight to `Completed`" (R157; unreachable through `START`). -/
def completeIfEmpty (t : Technique) (s : State) : State :=
  if s.processedData = [] then finalize t { s with fsm := .completed } else s

/-- `START.<TECH> kind, payload` (R156): "All six execute rule R156" (R158). -/
def startSession (t : Technique) (kind : Kind) (payload : List Bit) (s : State) :
    Host.Outcome State Fault Refusal :=
  if s.fsm ≠ .idle then raise .illegalState s
  else if startValid s.config (framingOf t) payload then
    finishSession (completeIfEmpty t (beginSession t kind payload s))
  else raise .validationError s

/-- `START.NRZL` (R156, R158). -/
def execStartNrzl (kind : Kind) (payload : List Bit) (s : State) : Host.Outcome State Fault Refusal :=
  startSession .nrzl kind payload s

/-- `START.NRZI` (R156, R158). -/
def execStartNrzi (kind : Kind) (payload : List Bit) (s : State) : Host.Outcome State Fault Refusal :=
  startSession .nrzi kind payload s

/-- `START.MAN` (R156, R158). -/
def execStartMan (kind : Kind) (payload : List Bit) (s : State) : Host.Outcome State Fault Refusal :=
  startSession .manchester kind payload s

/-- `START.DMAN` (R156, R158). -/
def execStartDman (kind : Kind) (payload : List Bit) (s : State) : Host.Outcome State Fault Refusal :=
  startSession .diffmanchester kind payload s

/-- `START.BITSTUFF` (R156, R158). -/
def execStartBitstuff (kind : Kind) (payload : List Bit) (s : State) : Host.Outcome State Fault Refusal :=
  startSession .bitstuff kind payload s

/-- `START.BYTESTUFF` (R156, R158). -/
def execStartBytestuff (kind : Kind) (payload : List Bit) (s : State) : Host.Outcome State Fault Refusal :=
  startSession .bytestuff kind payload s

/-! ## RESET, ARM, PAUSE, RESUME -/

/-- `RESET` (R159): "every element of 10_state.md rule R20 <- its reset value"; the parameters "are not reset" (R221), and the
commands waiting at the port are the host's (log entry 1). -/
def execReset (s : State) : Host.Outcome State Fault Refusal :=
  finishSession { State.reset with config := s.config, port := s.port }

/-- `ARM` (R165). -/
def execArm (s : State) : Host.Outcome State Fault Refusal :=
  if s.fsm = .running then finishSession { s with pendingErrorInjection := true } else raise .illegalState s

/-- `PAUSE` (R166). -/
def execPause (s : State) : Host.Outcome State Fault Refusal :=
  if s.fsm = .running then finishSession { s with fsm := .paused } else raise .illegalState s

/-- `RESUME` (R167). -/
def execResume (s : State) : Host.Outcome State Fault Refusal :=
  if s.fsm = .paused then finishSession { s with fsm := .running } else raise .illegalState s

end Sys2Proof.Machine
end

