-- ==== Sys2Proof/Machine/Tick.lean ====
section
/-! DEFINITION. TICK, one bit-step, and the Error Injector (spec/45_session_stepper.md R160 to R164, R168). -/

namespace Sys2Proof.Machine

/-- What the decoding half of a bit-step gives: the symbol `y`, the new `decLevel` and whether an error is recorded. -/
structure StepDecode where
  y : Symbol
  decLevel : Level
  error : Bool
  deriving DecidableEq, Repr

/-- Step 3 (R162): the complement of the bit, an error, and under NRZI and DMAN the carried level of the signal (R145). -/
def injectedDecode (lc : LineCode) (b : Bit) (decLevel : Level) (pts : List SignalPoint) : StepDecode :=
  { y := .bit b.complement
    decLevel := match lc with
      | .nrzl => decLevel
      | .nrzi => lastLevel decLevel pts
      | .man => decLevel
      | .dman => lastLevel decLevel pts
    error := true }

/-- Step 4 (R163). The decoder never refuses the encoder's points (R141); were it to, the symbol would be `'?'` (log
entry 8). -/
def plainDecode (cfg : Config) (lc : LineCode) (i : Nat) (decLevel : Level) (pts : List SignalPoint) : StepDecode :=
  match decodeLine cfg lc i decLevel pts with
  | some (y, l) => { y := y, decLevel := l, error := decodeFailed y }
  | none => { y := .unknown, decLevel := decLevel, error := true }

/-- Steps 3 and 4 (R160). -/
def stepDecode (cfg : Config) (lc : LineCode) (pending : Bool) (b : Bit) (i : Nat) (decLevel : Level)
    (pts : List SignalPoint) : StepDecode :=
  if pending then injectedDecode lc b decLevel pts else plainDecode cfg lc i decLevel pts

/-- The encoding half of a bit-step, steps 1 and 2 (R160, R161): "the encoder is always run". -/
def stepEncoded (t : Technique) (b : Bit) (s : State) : List SignalPoint × Level :=
  encodeLine s.config (lineCodeOf t) b s.position s.encLevel

/-- The decoding half of a bit-step, steps 3 and 4 on the points just appended (R160, R162, R163). -/
def stepDecoded (t : Technique) (b : Bit) (s : State) : StepDecode :=
  stepDecode s.config (lineCodeOf t) s.pendingErrorInjection b s.position s.decLevel (stepEncoded t b s).1

/-- Steps 1 to 5 on the bit `b` read at `position`, before the completion test (R160). -/
def bitStep (t : Technique) (b : Bit) (s : State) : State :=
  { s with
    encLevel := (stepEncoded t b s).2
    signalLog := s.signalLog ++ (stepEncoded t b s).1
    decLevel := (stepDecoded t b s).decLevel
    pendingErrorInjection := false
    errorPositions := recordError (stepDecoded t b s).error s.position s.errorPositions
    decodedBits := s.decodedBits ++ [(stepDecoded t b s).y]
    position := s.position + 1
    stepOut :=
      { valid := true
        index := s.position
        bit := b
        points := (stepEncoded t b s).1
        decoded := (stepDecoded t b s).y
        error := (stepDecoded t b s).error } }

/-- The completion test, "made after the increment, in the same command" (R164). -/
def completeIfDone (t : Technique) (s : State) : State :=
  if s.position = s.processedData.length then finalize t { s with fsm := .completed } else s

/-- `TICK` (R160, R168). The two faults stand for states no run reaches (R21, R32; log entry 8). -/
def execTick (s : State) : Host.Outcome State Fault Refusal :=
  if s.fsm = .running then
    match s.tech with
    | none => .fault .noTechnique
    | some t =>
      match s.processedData[s.position]? with
      | none => .fault .readOutsideBuffer
      | some b => finishSession (completeIfDone t (bitStep t b s))
  else raise .illegalState s

end Sys2Proof.Machine
end

