-- ==== Sys2Proof/Machine/Dispatch.lean ====
section
/-! DEFINITION. One arm per command, each one call of its meaning. -/

namespace Sys2Proof.Machine

def exec (i : Instr) (s : State) : Host.Outcome State Fault Refusal :=
  match i with
  | .reset => Sys2Proof.Machine.execReset s
  | .startNrzl kind payload => Sys2Proof.Machine.execStartNrzl kind payload s
  | .startNrzi kind payload => Sys2Proof.Machine.execStartNrzi kind payload s
  | .startMan kind payload => Sys2Proof.Machine.execStartMan kind payload s
  | .startDman kind payload => Sys2Proof.Machine.execStartDman kind payload s
  | .startBitstuff kind payload => Sys2Proof.Machine.execStartBitstuff kind payload s
  | .startBytestuff kind payload => Sys2Proof.Machine.execStartBytestuff kind payload s
  | .tick => Sys2Proof.Machine.execTick s
  | .arm => Sys2Proof.Machine.execArm s
  | .pause => Sys2Proof.Machine.execPause s
  | .resume => Sys2Proof.Machine.execResume s
  | .encNrzl b n l => Sys2Proof.Machine.execEncNrzl b n l s
  | .encNrzi b n l => Sys2Proof.Machine.execEncNrzi b n l s
  | .encMan b n l => Sys2Proof.Machine.execEncMan b n l s
  | .encDman b n l => Sys2Proof.Machine.execEncDman b n l s
  | .decNrzl n l pts => Sys2Proof.Machine.execDecNrzl n l pts s
  | .decNrzi n l pts => Sys2Proof.Machine.execDecNrzi n l pts s
  | .decMan n l pts => Sys2Proof.Machine.execDecMan n l pts s
  | .decDman n l pts => Sys2Proof.Machine.execDecDman n l pts s
  | .stuffBit x => Sys2Proof.Machine.execStuffBit x s
  | .stuffByte x => Sys2Proof.Machine.execStuffByte x s
  | .destuffBit x => Sys2Proof.Machine.execDestuffBit x s
  | .destuffByte x => Sys2Proof.Machine.execDestuffByte x s

end Sys2Proof.Machine
end

