-- ==== Sys2Proof/Machine/Port.lean ====
section
/-! DEFINITION. Taking the next transaction from the command port (spec/30_encoding.md R70, R84, R85,
spec/60_exceptions.md R195, R197). -/

namespace Sys2Proof.Machine

/-- One transaction on a state whose port no longer holds it: the command it carries, or `IllegalCommand`, which is tested
first (R197) and writes nothing but `status` (R195). -/
def runTransaction (tx : Transaction) (s : State) : Host.Outcome State Fault Refusal :=
  match decode tx with
  | .ok i => exec i s
  | .error _ => raise .illegalCommand s

/-- One move of the block: the next transaction, taken from the port, or, when none waits, nothing: "the block waits ...
for a command" (R222; log entry 1). -/
def takeCommand (s : State) : Host.Outcome State Fault Refusal :=
  match s.port with
  | [] => .next s
  | tx :: rest => runTransaction tx { s with port := rest }

/-- `s` with a transaction put before all others at the port. -/
def offerFirst (tx : Transaction) (s : State) : State := { s with port := tx :: s.port }

/-- The opcode-table word `w` of `nbits` bits, with operands of zeros, as the next transaction. A word the table cannot
number (log entry 2) offers the illegal word 0xFF. -/
def offerTableWord (s : State) (nbits w : Nat) : State :=
  match tableCommandWord nbits w with
  | none => offerFirst { cw := 0xFF#8, operands := [] } s
  | some cw => offerFirst (zeroTransaction cw) s

end Sys2Proof.Machine
end

