-- ==== Sys2Proof/Machine/Step.lean ====
section
/-! DEFINITION. The step of the machine: one transaction of the command port (spec/20_memory.md R60, R62). -/

namespace Sys2Proof.Machine

/-- One step: the command at the head of the port is taken and executed, whole (R60). -/
def step (s : State) : Host.Outcome State Fault Refusal := takeCommand s

/-- `s` with the opcode-table word placed where the next step takes its command (log entry 19). -/
def State.withFetchWord (s : State) (nbits w : Nat) : State := offerTableWord s nbits w

end Sys2Proof.Machine
end

