-- ==== Sys2Proof/Machine/HostSide.lean ====
section
/-! DEFINITION. The host's side: the Bit/Text Codec and the completion report (spec/40_bit_text_codec_host.md), the
host's reading of the state (spec/10_state.md R22, spec/20_memory.md R50, R51), the projection `origIndex`
(spec/45_session_stepper.md R184) and the pseudo-instructions (spec/30_encoding.md R87). Nothing here is part of a step. -/

namespace Sys2Proof.Machine

/-! ## The Bit/Text Codec (R100 to R104) -/

/-- The `j`-th binary digit of `v` from the right, as a bit. -/
def digitBit (v j : Nat) : Bit := if v / 2 ^ j % 2 = 1 then .one else .zero

/-- The 8-bit big-endian field of a value: "most significant bit first" (R101). -/
def byteField (v : Nat) : List Bit :=
  [digitBit v 7, digitBit v 6, digitBit v 5, digitBit v 4, digitBit v 3, digitBit v 2, digitBit v 1, digitBit v 0]

/-- `textToBits(text)` (R101): it "fails ... for code points above 255". -/
def textToBits : List Char → Option (List Bit)
  | [] => some []
  | c :: text =>
    if c.toNat ≤ 255 then (textToBits text).map (fun bits => byteField c.toNat ++ bits) else none

/-- The bits of a symbol sequence that holds no `'?'`. -/
def bitsOfSymbols : List Symbol → Option (List Bit)
  | [] => some []
  | .bit b :: s => (bitsOfSymbols s).map (fun bits => b :: bits)
  | .unknown :: _ => none

/-- "a printable code point (≥32) or one of {9,10,13}" (R102). -/
def printable (v : Nat) : Bool := decide (32 ≤ v) || decide (v = 9) || decide (v = 10) || decide (v = 13)

/-- The text of one 8-bit field (R102, R103); `padded` says that padding was added and this is the last field. A field
that contains `'?'` "has no value, so it maps to `'?'`". -/
def fieldText (padded : Bool) (field : List Symbol) : List Char :=
  match bitsOfSymbols field with
  | none => ['?']
  | some bits =>
    if printable (byteValue bits) then [Char.ofNat (byteValue bits)]
    else if padded && decide (byteValue bits = 0) then Config.pad0
    else ['?']

/-- The texts of the fields, in order; only the last can hold padding. -/
def fieldsText (padded : Bool) : List (List Symbol) → List Char
  | [] => []
  | [f] => fieldText padded f
  | f :: g :: fs => fieldText false f ++ fieldsText padded (g :: fs)

/-- How many `'0'`s `bitsToText` appends (R102). -/
def padLength (n : Nat) : Nat := (8 - n % 8) % 8

/-- `bitsToText(bits)` (R102). -/
def bitsToText (bits : List Symbol) : List Char :=
  fieldsText (decide (0 < padLength bits.length))
    (wholeBytes (bits ++ List.replicate (padLength bits.length) (.bit .zero)))

/-- The characters stripped as whitespace: space and the three whitespace control characters 9, 10, 13 of R107 (DEDUCED,
log entry 16). -/
def isWhitespace (c : Char) : Bool :=
  decide (c = ' ') || decide (c.toNat = 9) || decide (c.toNat = 10) || decide (c.toNat = 13)

/-- `raw` "with whitespace stripped" (R104). -/
def stripWhitespace (raw : List Char) : List Char := raw.filter (fun c => !isWhitespace c)

/-- A sequence of the characters `'0'` and `'1'` "read as a Bitstring" (R104). -/
def bitsOfChars : List Char → Option (List Bit)
  | [] => some []
  | c :: cs =>
    if c = '0' then (bitsOfChars cs).map (fun bits => .zero :: bits)
    else if c = '1' then (bitsOfChars cs).map (fun bits => .one :: bits)
    else none

/-- `detectKind(raw)` (R104): "if, after stripping whitespace, every character is `'0'` or `'1'` and the result is
non-empty, classify as bitstream; otherwise classify as text". -/
def detectKind (raw : List Char) : Kind :=
  match bitsOfChars (stripWhitespace raw) with
  | none => .text
  | some [] => .text
  | some (_ :: _) => .bitstream

/-- The host's input-kind selector (R75, R104). -/
inductive Selector where
  | auto
  | bitstream
  deriving DecidableEq, Repr

/-- The operands of `START` for a raw input, or `none` where the host itself "reports `ValidationError` and issues no
`START`" (R104, R105). -/
def startOperands (sel : Selector) (raw : List Char) : Option (Kind × List Bit) :=
  match sel with
  | .auto =>
    match detectKind raw with
    | .bitstream => (bitsOfChars (stripWhitespace raw)).map (fun payload => (.bitstream, payload))
    | .text => (textToBits raw).map (fun payload => (.text, payload))
  | .bitstream =>
    (bitsOfChars (if Config.forcedModeStripsWhitespace then stripWhitespace raw else raw)).map
      (fun payload => (.bitstream, payload))

/-! ## The completion report (R106, R181) -/

/-- The content of the report: reconstructed text, or the bits, whose formatting "is presentational and not specified". -/
inductive ReportContent where
  | text (t : List Char)
  | bits (s : List Symbol)
  deriving DecidableEq, Repr

/-- The completion report the host builds (R106, R181). -/
structure Report where
  content : ReportContent
  /-- "`frameError = true` must be surfaced as \"deframe failed\"". -/
  deframeFailed : Bool
  verdict : Verdict
  errorPositions : List Nat
  deriving DecidableEq, Repr

/-- "`bitsToText` if the original input was classified as text and its length is a positive multiple of 8; otherwise it is
reported as a formatted bitstring" (R106). -/
def reportContent (kind : Option Kind) (final : List Symbol) : ReportContent :=
  if kind = some .text ∧ 0 < final.length ∧ final.length % 8 = 0 then .text (bitsToText final) else .bits final

/-- The report, once the session is completed (R106, R181). -/
def report (s : State) : Option Report :=
  if s.fsm = .completed then
    some
      { content := reportContent s.kind s.finalBits
        deframeFailed := s.frameError
        verdict := s.verdict
        errorPositions := s.errorPositions }
  else none

/-! ## Index bookkeeping (R184) -/

/-- `below(p) = |{ q in ins : q < p }|` (R184). -/
def below (ins : List Nat) (p : Nat) : Nat := (ins.filter (fun q => decide (q < p))).length

/-- Some `q` of `ins` has `q <= p < q + 8` (R184). -/
def inEscape (ins : List Nat) (p : Nat) : Bool := ins.any (fun q => decide (q ≤ p) && decide (p < q + 8))

/-- `origIndex(p)` for `0 <= p < N` (R184); `none` for a synthetic cell, and outside `0 <= p < N`. -/
def origIndex (f : Framing) (N : Nat) (ins : List Nat) (p : Nat) : Option Nat :=
  if N ≤ p then none
  else
    match f with
    | .plain => some p
    | .bit => if p ∈ ins then none else some (p - below ins p)
    | .byte =>
      if p < 8 ∨ N - 8 ≤ p then none
      else if inEscape ins p then none
      else some (p - 8 - 8 * below ins p)

/-! ## Reading the state (R22, R50, R51) -/

/-- The buffers the host reads (R50). -/
inductive Space where
  | origData
  | processedData
  | insertedPositions
  | signalLog
  | decodedBits
  | errorPositions
  | finalBits
  deriving DecidableEq, Repr

/-- Membership of a position, one digit (R50, R83). -/
def memberCode (p : Nat) (set : List Nat) : Nat := (boolCode (decide (p ∈ set))).toNat

/-- The encoded cell `SPACE[a]` as its fields (R78 to R81), or `none` outside the buffer. A set of positions is read as
"boolean per index of `processedData` (membership)" (R50). -/
def readCell (space : Space) (a : Nat) (s : State) : Option (List Nat) :=
  match space with
  | .origData => s.origData[a]?.map (fun b => [b.code])
  | .processedData => s.processedData[a]?.map (fun b => [b.code])
  | .insertedPositions => if a < s.processedData.length then some [memberCode a s.insertedPositions] else none
  | .signalLog => s.signalLog[a]?.map pointFields
  | .decodedBits => s.decodedBits[a]?.map (fun y => [(symbolCode y).toNat])
  | .errorPositions => if a < s.processedData.length then some [memberCode a s.errorPositions] else none
  | .finalBits => s.finalBits[a]?.map (fun y => [(symbolCode y).toNat])

/-- The elements of R20 that are no buffer. -/
inductive Element where
  | fsm
  | tech
  | kind
  | position
  | encLevel
  | decLevel
  | pendingErrorInjection
  | frameError
  | verdict
  | status
  deriving DecidableEq, Repr

/-- The encoded value of an element (R80, R82, R83). -/
def readElement (e : Element) (s : State) : Nat :=
  match e with
  | .fsm => (fsmCode s.fsm).toNat
  | .tech => (techCode s.tech).toNat
  | .kind => (kindCode s.kind).toNat
  | .position => s.position
  | .encLevel => s.encLevel.code
  | .decLevel => s.decLevel.code
  | .pendingErrorInjection => (boolCode s.pendingErrorInjection).toNat
  | .frameError => (boolCode s.frameError).toNat
  | .verdict => (verdictCode s.verdict).toNat
  | .status => (statusCode s.status).toNat

/-- The fields of the per-step output record (R30). -/
inductive StepField where
  | valid
  | index
  | bit
  | points
  | decoded
  | error
  deriving DecidableEq, Repr

/-- The encoded value of a field of `stepOut` (R30, R78 to R83), a sequence of points as the fields of its points in order. -/
def readStepOut (f : StepField) (s : State) : List Nat :=
  match f with
  | .valid => [(boolCode s.stepOut.valid).toNat]
  | .index => [s.stepOut.index]
  | .bit => [s.stepOut.bit.code]
  | .points => s.stepOut.points.flatMap pointFields
  | .decoded => [(symbolCode s.stepOut.decoded).toNat]
  | .error => [(boolCode s.stepOut.error).toNat]

/-- The results of the last command, "valid only when `status = OK`" (R77). -/
def returnedResult (s : State) : Option Result := if s.status = .ok then s.result else none

/-! ## Pseudo-instructions (R87) -/

/-- `TICKS n`. -/
def ticks (n : Nat) : List Instr := List.replicate n .tick

/-- `RUN`: "`TICK` repeated while `fsm = Running`", which is `len(processedData) - position` of them (R233; log entry 24). -/
def runTicks (s : State) : List Instr :=
  if s.fsm = .running then ticks (s.processedData.length - s.position) else []

/-- `INJECT`. -/
def inject : List Instr := [.arm, .tick]

/-- `INJECT_AT p` (R87), which "needs `position <= p < len(processedData)` and `fsm = Running`". Outside these conditions the
rule gives no sequence, and what stands here is the model's own (DESIGN CHOICE, log entry 26): with `p < position` there is
no `TICK` to go back, and `ARM`, `TICK` remain, which corrupt the bit at `position`. -/
def injectAt (p : Nat) (s : State) : List Instr := ticks (p - s.position) ++ inject

/-- Commands executed "one at a time in the order the host issues them" (R62). -/
def execAll : List Instr → State → Host.Outcome State Fault Refusal
  | [], s => .next s
  | i :: is, s =>
    match exec i s with
    | .next t => execAll is t
    | .fault r => .fault r
    | .refused r => .refused r

end Sys2Proof.Machine
end

