-- ==== Sys2Proof/Safety.lean ====
section
/-! DEFINITION. What counts as a safe run, in the terms the statements use: the session invariant (spec/10_state.md R26,
R27, R32 to R35), streams of bits through a line code (spec/44_line_decoder.md R146), and the classes of commands
(spec/30_encoding.md R70). -/

namespace Sys2Proof.Safety

open Sys2Proof.Machine

/-! ## Classes of commands (R70) -/

/-- The six `START` rows. -/
def isStart : Instr → Bool
  | .startNrzl _ _ => true
  | .startNrzi _ _ => true
  | .startMan _ _ => true
  | .startDman _ _ => true
  | .startBitstuff _ _ => true
  | .startBytestuff _ _ => true
  | .reset => false
  | .tick => false
  | .arm => false
  | .pause => false
  | .resume => false
  | .encNrzl _ _ _ => false
  | .encNrzi _ _ _ => false
  | .encMan _ _ _ => false
  | .encDman _ _ _ => false
  | .decNrzl _ _ _ => false
  | .decNrzi _ _ _ => false
  | .decMan _ _ _ => false
  | .decDman _ _ _ => false
  | .stuffBit _ => false
  | .stuffByte _ => false
  | .destuffBit _ => false
  | .destuffByte _ => false

/-- The twelve unit operations. -/
def isUnit : Instr → Bool
  | .startNrzl _ _ => false
  | .startNrzi _ _ => false
  | .startMan _ _ => false
  | .startDman _ _ => false
  | .startBitstuff _ _ => false
  | .startBytestuff _ _ => false
  | .reset => false
  | .tick => false
  | .arm => false
  | .pause => false
  | .resume => false
  | .encNrzl _ _ _ => true
  | .encNrzi _ _ _ => true
  | .encMan _ _ _ => true
  | .encDman _ _ _ => true
  | .decNrzl _ _ _ => true
  | .decNrzi _ _ _ => true
  | .decMan _ _ _ => true
  | .decDman _ _ _ => true
  | .stuffBit _ => true
  | .stuffByte _ => true
  | .destuffBit _ => true
  | .destuffByte _ => true

/-! ## Streams of bits (R146) -/

/-- The bits of `x` encoded one by one, the first at index `i` with carried level `l`: the points of each interval, and the
carried level at the end. -/
def encodeStream (cfg : Config) (lc : LineCode) (i : Nat) (l : Level) : List Bit → List (List SignalPoint) × Level
  | [] => ([], l)
  | b :: x =>
    let e := encodeLine cfg lc b i l
    let r := encodeStream cfg lc (i + 1) e.2 x
    (e.1 :: r.1, r.2)

/-- The points of each interval decoded one by one, or `none` where a decoder refuses an interval. -/
def decodeStream (cfg : Config) (lc : LineCode) (i : Nat) (l : Level) :
    List (List SignalPoint) → Option (List Symbol × Level)
  | [] => some ([], l)
  | pts :: rest =>
    match decodeLine cfg lc i l pts with
    | none => none
    | some (y, l') => (decodeStream cfg lc (i + 1) l' rest).map (fun r => (y :: r.1, r.2))

/-- What is received of the bits `x`, the first of them at index `i`, when the bits at `errors` are complemented (R35 (e)). -/
def received (errors : List Nat) (i : Nat) : List Bit → List Symbol
  | [] => []
  | b :: x => .bit (if i ∈ errors then b.complement else b) :: received errors (i + 1) x

/-! ## The session invariant -/

/-- The bits stepped so far. -/
def stepped (s : State) : List Bit := s.processedData.take s.position

/-- The signal of the bits stepped so far, interval by interval, and the level carried after it. -/
def sentSignal (t : Technique) (s : State) : List (List SignalPoint) × Level :=
  encodeStream s.config (lineCodeOf t) 0 (initLevel s.config (lineCodeOf t)) (stepped s)

/-- What `START` latched (R34, R52, R153 to R156). -/
structure Latched (t : Technique) (k : Kind) (s : State) : Prop where
  tech : s.tech = some t
  kind : s.kind = some k
  valid : startValid s.config (framingOf t) s.origData = true
  processed : s.processedData = (frame (framingOf t) s.origData).1
  inserted : s.insertedPositions = (frame (framingOf t) s.origData).2

/-- The counters and records of the bit-steps (R26, R27, R32, R33, R35). -/
structure Progress (t : Technique) (s : State) : Prop where
  inside : s.position ≤ s.processedData.length
  done : s.fsm = .completed ↔ s.position = s.processedData.length
  errorsAscend : positionsAscend s.errorPositions = true
  errorsBehind : ∀ p ∈ s.errorPositions, p < s.position
  decoded : s.decodedBits = received s.errorPositions 0 (stepped s)
  signal : s.signalLog = (sentSignal t s).1.flatten
  encoder : s.encLevel = (sentSignal t s).2
  decoder : s.decLevel = s.encLevel
  notArmedAtEnd : s.fsm = .completed → s.pendingErrorInjection = false

/-- The per-step output (R30, R180). -/
structure StepReport (s : State) : Prop where
  before : s.position = 0 → s.stepOut = StepOut.reset
  valid : 0 < s.position → s.stepOut.valid = true
  index : 0 < s.position → s.stepOut.index + 1 = s.position
  bit : 0 < s.position → s.processedData[s.stepOut.index]? = some s.stepOut.bit
  points : s.stepOut.points <:+ s.signalLog
  decoded : 0 < s.position → s.decodedBits[s.stepOut.index]? = some s.stepOut.decoded
  error : 0 < s.position → (s.stepOut.error = true ↔ s.stepOut.index ∈ s.errorPositions)

/-- The completion output (R29, R31, R170). -/
structure Outputs (t : Technique) (s : State) : Prop where
  before : s.fsm ≠ .completed → s.finalBits = [] ∧ s.frameError = false ∧ s.verdict = .none
  deframed : s.fsm = .completed → (s.finalBits, s.frameError) = deframe s.config (framingOf t) s.decodedBits
  verdict : s.fsm = .completed → s.verdict = verdictOf s.kind (framingOf t) s.finalBits s.origData

/-- A session of technique `t` and kind `k` is running, paused or completed. -/
structure SessionInv (t : Technique) (k : Kind) (s : State) : Prop where
  latched : Latched t k s
  progress : Progress t s
  report : StepReport s
  outputs : Outputs t s

/-- "While `fsm` is `Idle`, every element has its reset value except `status`" (R35 (f)); the model's own three fields
are no elements. -/
def idleAtReset (s : State) : Prop :=
  s = { State.reset with config := s.config, status := s.status, result := s.result, port := s.port }

/-- The invariant of the machine. -/
def MachineInv (s : State) : Prop :=
  if s.fsm = .idle then idleAtReset s else ∃ t k, SessionInv t k s

/-! ## The values of states the statements name -/

/-- Every element of R20 has its reset value (R20, R30, R220). -/
structure ResetValues (s : State) : Prop where
  fsm : s.fsm = .idle
  tech : s.tech = none
  kind : s.kind = none
  origData : s.origData = []
  processedData : s.processedData = []
  insertedPositions : s.insertedPositions = []
  position : s.position = 0
  encLevel : s.encLevel = .low
  decLevel : s.decLevel = .low
  pendingErrorInjection : s.pendingErrorInjection = false
  signalLog : s.signalLog = []
  decodedBits : s.decodedBits = []
  errorPositions : s.errorPositions = []
  stepOut : s.stepOut =
    { valid := false, index := 0, bit := .zero, points := [], decoded := .bit .zero, error := false }
  finalBits : s.finalBits = []
  frameError : s.frameError = false
  verdict : s.verdict = .none
  status : s.status = .ok

/-- The state after an accepted `START` of technique `t` and kind `k`: payload `p`, framed bitstring `pd` with inserted
positions `ins`, both carried levels `l` (R156). -/
def startedState (t : Technique) (k : Kind) (p pd : List Bit) (ins : List Nat) (l : Level) (s : State) : State :=
  { s with
    fsm := .running
    tech := some t
    kind := some k
    origData := p
    processedData := pd
    insertedPositions := ins
    position := 0
    encLevel := l
    decLevel := l
    pendingErrorInjection := false
    signalLog := []
    decodedBits := []
    errorPositions := []
    stepOut := { valid := false, index := 0, bit := .zero, points := [], decoded := .bit .zero, error := false }
    finalBits := []
    frameError := false
    verdict := .none
    status := .ok
    result := none }

/-- The state after a unit operation that returns `r` (R70, R77). -/
def unitDone (r : Result) (s : State) : State := { s with status := .ok, result := some r }

/-- The state after a command that is refused with `kind` (R14, R198). -/
def refusedWith (kind : Status) (s : State) : State := { s with status := kind }

/-! ## The transition table (R150) -/

/-- The row of `START.*`: what `fsm` and `status` may be after it. -/
def startMove (f f' : Fsm) (st : Status) : Prop :=
  match f with
  | .idle => (f' = .running ∧ st = .ok) ∨ (f' = .completed ∧ st = .ok) ∨ (f' = .idle ∧ st = .validationError)
  | .running => f' = .running ∧ st = .illegalState
  | .paused => f' = .paused ∧ st = .illegalState
  | .completed => f' = .completed ∧ st = .illegalState

/-- A unit operation leaves `fsm` unchanged in every state; it is executed or, for an operand shape a rule refuses,
refused with `IllegalCommand` (R84). -/
def unitMove (f f' : Fsm) (st : Status) : Prop := f' = f ∧ (st = .ok ∨ st = .illegalCommand)

/-- A command accepted in `home` alone, with the moves `accepted` there, and `IllegalState` elsewhere. -/
def homeMove (home f f' : Fsm) (accepted : List Fsm) (st : Status) : Prop :=
  if f = home then f' ∈ accepted ∧ st = .ok else f' = f ∧ st = .illegalState

/-- The transition table of R150, with the unit operations: from `f`, command `i` may lead to `f'` with `status` `st`. -/
def controlMove (f : Fsm) (i : Instr) (f' : Fsm) (st : Status) : Prop :=
  match i with
  | .reset => f' = .idle ∧ st = .ok
  | .startNrzl _ _ => startMove f f' st
  | .startNrzi _ _ => startMove f f' st
  | .startMan _ _ => startMove f f' st
  | .startDman _ _ => startMove f f' st
  | .startBitstuff _ _ => startMove f f' st
  | .startBytestuff _ _ => startMove f f' st
  | .tick => homeMove .running f f' [.running, .completed] st
  | .arm => homeMove .running f f' [.running] st
  | .pause => homeMove .running f f' [.paused] st
  | .resume => homeMove .paused f f' [.running] st
  | .encNrzl _ _ _ => unitMove f f' st
  | .encNrzi _ _ _ => unitMove f f' st
  | .encMan _ _ _ => unitMove f f' st
  | .encDman _ _ _ => unitMove f f' st
  | .decNrzl _ _ _ => unitMove f f' st
  | .decNrzi _ _ _ => unitMove f f' st
  | .decMan _ _ _ => unitMove f f' st
  | .decDman _ _ _ => unitMove f f' st
  | .stuffBit _ => unitMove f f' st
  | .stuffByte _ => unitMove f f' st
  | .destuffBit _ => unitMove f f' st
  | .destuffByte _ => unitMove f f' st

/-! ## The command words (R72, R73) -/

/-- The session rows of R72, both values of `k`. -/
def sessionWords : List (CommandWord × Opcode) :=
  [(0x00#8, .reset), (0x10#8, .start .nrzl .text), (0x11#8, .start .nrzi .text),
   (0x12#8, .start .manchester .text), (0x13#8, .start .diffmanchester .text), (0x14#8, .start .bitstuff .text),
   (0x15#8, .start .bytestuff .text), (0x18#8, .start .nrzl .bitstream), (0x19#8, .start .nrzi .bitstream),
   (0x1A#8, .start .manchester .bitstream), (0x1B#8, .start .diffmanchester .bitstream), (0x1C#8, .start .bitstuff .bitstream),
   (0x1D#8, .start .bytestuff .bitstream), (0x20#8, .tick), (0x30#8, .arm),
   (0x40#8, .pause), (0x50#8, .resume)]

/-- The unit rows of R73. -/
def unitWords : List (CommandWord × Opcode) :=
  [(0x80#8, .enc .nrzl), (0x81#8, .enc .nrzi), (0x82#8, .enc .man),
   (0x83#8, .enc .dman), (0x90#8, .dec .nrzl), (0x91#8, .dec .nrzi),
   (0x92#8, .dec .man), (0x93#8, .dec .dman), (0xA4#8, .stuffBit),
   (0xA5#8, .stuffByte), (0xB4#8, .destuffBit), (0xB5#8, .destuffByte)]

/-! ## Words of framed bitstrings the statements use -/

/-- A Bitstring written as the digits of R78. -/
def bitsOf (digits : List Nat) : List Bit := digits.map (fun d => if d = 0 then .zero else .one)

/-- The sum over the maximal runs of `'1'`s of `floor(run length / 5)`, `c` being the length of the run so far (R111 (e)). -/
def fullRuns (c : Nat) : List Bit → Nat
  | [] => c / 5
  | .zero :: x => c / 5 + fullRuns 0 x
  | .one :: x => fullRuns (c + 1) x

/-- The cells of `x` whose index is not in `ins` (R111 (d)). -/
def withoutCells (x : List Bit) (ins : List Nat) : List Bit :=
  (x.zipIdx.filter (fun c => decide (c.2 ∉ ins))).map (fun c => c.1)

/-- The length of the run of `'1'`s that ends just before the cell `k` (R112). -/
def onesBefore (x : List Bit) (k : Nat) : Nat := ((x.take k).reverse.takeWhile (fun b => decide (b = .one))).length

/-- The segments a good frame is made of: a plain byte, or a byte after an ESC, "even if that byte equals FLAG or ESC" (R123). -/
structure Segment where
  escaped : Bool
  byte : List Bit
  deriving DecidableEq, Repr

/-- A segment is a byte, and a plain one is neither FLAG nor ESC. -/
def Segment.good (g : Segment) : Prop :=
  g.byte.length = 8 ∧ (g.escaped = false → g.byte ≠ flagByte ∧ g.byte ≠ escByte)

/-- A segment's cells in the frame. -/
def Segment.cells (g : Segment) : List Bit := if g.escaped then escByte ++ g.byte else g.byte

/-- The frame made of segments: FLAG, the segments, FLAG. -/
def frameOf (gs : List Segment) : List Bit := flagByte ++ gs.flatMap Segment.cells ++ flagByte

/-- Where the scan of R124 stops: fewer than 8 cells left, an ESC with no whole byte after it, or a FLAG. -/
def stopsScan (rest : List Bit) : Prop :=
  rest.length < 8 ∨ (rest.take 8 = escByte ∧ rest.length < 16) ∨ rest.take 8 = flagByte

/-- How many of the commands, executed one after the other, are `TICK`s that succeed (R233). -/
def succeededTicks : List Instr → State → Nat
  | [], _ => 0
  | i :: is, s =>
    match exec i s with
    | .next t => (if i = .tick ∧ t.status = .ok then 1 else 0) + succeededTicks is t
    | .fault _ => 0
    | .refused _ => 0

/-- The step answers a next state: it neither faults nor refuses. -/
def answersNext (s : State) : Prop := ∃ t, step s = .next t

end Sys2Proof.Safety
end

