-- ==== Sys2Proof/Certificates/Slice0/Obligations.lean ====
section
/-! DEFINITION. The statements for the provers. Each docstring names the rule of spec/ the statement formalises, and the
log entry of any choice of the model it rests on. -/

open Sys2Proof Sys2Proof.Machine Sys2Proof.Safety

/-! ## Reset, words, operands, the step -/

/-- R159, R220, R221: after `RESET`, from any state, every element has its reset value, and so it has after power-on; the
parameters are not reset; in `Idle` nothing changes but `status` and the model's own result (log entry 6). -/
def Obligations.ResetGivesEveryElementItsResetValue : Prop :=
  decode { cw := 0x00#8, operands := [] } = .ok .reset ∧ ResetValues State.reset ∧
  (∀ s : State, ∃ t, exec .reset s = .next t ∧ ResetValues t ∧ t.config = s.config) ∧
  (∀ s : State, MachineInv s → s.fsm = .idle → exec .reset s = .next { s with status := .ok, result := none })

/-- R72, R73: the command word alone names the row; the words of the two tables, and no others, name one. -/
def Obligations.CommandWordsNameTheTableRows : Prop :=
  ∀ cw : CommandWord, decodeOpcode cw = (sessionWords ++ unitWords).lookup cw

/-- R195: an illegal word, a reserved operand code and an operand shape a rule refuses write nothing but `status`. The
transaction has been taken from the port (the model's own, log entry 1). -/
def Obligations.IllegalCommandsChangeOnlyStatus : Prop :=
  (∀ (s : State) (tx : Transaction) (rest : List Transaction), s.port = tx :: rest →
    (decodeOpcode tx.cw = none ∨ decode tx = .error .reservedOperand) →
    step s = .next (refusedWith .illegalCommand { s with port := rest })) ∧
  (∀ (s : State) (i : Nat) (l : Level) (pts : List SignalPoint), pts.length ≠ 1 →
    exec (.decNrzl i l pts) s = .next (refusedWith .illegalCommand s) ∧
    exec (.decNrzi i l pts) s = .next (refusedWith .illegalCommand s)) ∧
  (∀ (s : State) (x : List Bit), x.length % 8 ≠ 0 →
    exec (.stuffByte x) s = .next (refusedWith .illegalCommand s))

/-- R76, R84, U11: a bit, a level or a cell outside its one digit, wherever it stands, and a count of points of 3 or more are
reserved codes. That a transaction with a missing or an extra operand field is refused too is the model's own (log entry 2).
Whatever the reason, a step of a transaction that does not decode writes nothing but `status` and takes it from the port. -/
def Obligations.BadOperandFieldsAreRefused : Prop :=
  (∀ (lc : LineCode) (n i l : Nat) (rest : List Nat), 2 ≤ n →
    decode { cw := encodeOpcode (.enc lc), operands := n :: i :: l :: rest } = .error .reservedOperand) ∧
  (∀ (lc : LineCode) (b : Bit) (i l : Nat) (rest : List Nat), 2 ≤ l →
    decode { cw := encodeOpcode (.enc lc), operands := b.code :: i :: l :: rest } = .error .reservedOperand) ∧
  (∀ (lc : LineCode) (i : Nat) (l : Level) (npts : Nat) (rest : List Nat), 3 ≤ npts →
    decode { cw := encodeOpcode (.dec lc), operands := i :: l.code :: npts :: rest } = .error .reservedOperand) ∧
  (∀ (lc : LineCode) (i l : Nat) (rest : List Nat), 2 ≤ l →
    decode { cw := encodeOpcode (.dec lc), operands := i :: l :: rest } = .error .reservedOperand) ∧
  (∀ (lc : LineCode) (i : Nat) (l : Level) (npts : Nat) (pts : List SignalPoint) (t2 lv : Nat) (rest : List Nat),
    pts.length < npts → npts ≤ 2 → 2 ≤ lv →
    decode ⟨encodeOpcode (.dec lc), i :: l.code :: npts :: (pts.flatMap pointFields ++ t2 :: lv :: rest)⟩ =
      .error .reservedOperand) ∧
  (∀ (t : Technique) (k : Kind) (x : List Bit) (n m : Nat) (rest : List Nat), 2 ≤ m → x.length < n →
    decode { cw := encodeOpcode (.start t k), operands := n :: (x.map Bit.code ++ m :: rest) } =
      .error .reservedOperand) ∧
  (∀ o ∈ [Opcode.stuffBit, .stuffByte, .destuffBit, .destuffByte],
    ∀ (x : List Bit) (n m : Nat) (rest : List Nat), 2 ≤ m → x.length < n →
    decode { cw := encodeOpcode o, operands := n :: (x.map Bit.code ++ m :: rest) } = .error .reservedOperand) ∧
  (∀ (i : Instr) (extra : Nat) (more : List Nat), i.wellFormed = true →
    decode { encode i with operands := i.operandFields ++ extra :: more } = .error .extraOperand) ∧
  (∀ (i : Instr) (fields cut : List Nat), i.wellFormed = true → cut ≠ [] → fields ++ cut = i.operandFields →
    decode { encode i with operands := fields } = .error .missingOperand) ∧
  (∀ (s : State) (tx : Transaction) (rest : List Transaction) (e : DecodeError), s.port = tx :: rest →
    decode tx = .error e → step s = .next (refusedWith .illegalCommand { s with port := rest }))

/-- A step takes the next transaction from the port and runs the command it carries; with no transaction waiting it changes
nothing (the model's own, log entry 1). -/
def Obligations.StepRunsTheDecodedCommand : Prop :=
  (∀ (s : State) (tx : Transaction) (rest : List Transaction) (i : Instr), s.port = tx :: rest → decode tx = .ok i →
    step s = exec i { s with port := rest }) ∧
  (∀ s : State, s.port = [] → step s = .next s)

/-- Words written out from R72, R73 and operands from R76 to R81, one or two for each family, decode to the commands they
stand for. -/
def Obligations.WordsOfEveryFamilyDecode : Prop :=
  decode { cw := 0x00#8, operands := [] } = .ok .reset ∧
  decode { cw := 0x1C#8, operands := [3, 1, 0, 1] } = .ok (.startBitstuff .bitstream [.one, .zero, .one]) ∧
  decode { cw := 0x15#8, operands := [0] } = .ok (.startBytestuff .text []) ∧
  decode { cw := 0x20#8, operands := [] } = .ok .tick ∧
  decode { cw := 0x30#8, operands := [] } = .ok .arm ∧
  decode { cw := 0x40#8, operands := [] } = .ok .pause ∧
  decode { cw := 0x50#8, operands := [] } = .ok .resume ∧
  decode { cw := 0x83#8, operands := [1, 4, 0] } = .ok (.encDman .one 4 .low) ∧
  decode { cw := 0x92#8, operands := [2, 1, 2, 4, 1, 5, 0] } =
    .ok (.decMan 2 .high [⟨4, .high⟩, ⟨5, .low⟩]) ∧
  decode { cw := 0xA4#8, operands := [2, 1, 1] } = .ok (.stuffBit [.one, .one]) ∧
  decode { cw := 0xA5#8, operands := [0] } = .ok (.stuffByte []) ∧
  decode { cw := 0xB4#8, operands := [1, 0] } = .ok (.destuffBit [.zero]) ∧
  decode { cw := 0xB5#8, operands := [1, 1] } = .ok (.destuffByte [.one])

/-- Every well-formed command, with every operand at every value, is read back from its transaction. -/
def Obligations.DecodeInvertsEncode : Prop :=
  ∀ i : Instr, i.wellFormed = true → decode (encode i) = .ok i

/-- A transaction that decodes is the one transaction that carries its command, and the command is well formed. -/
def Obligations.EncodeInvertsDecode : Prop :=
  ∀ (tx : Transaction) (i : Instr), decode tx = .ok i → encode i = tx ∧ i.wellFormed = true

/-- R79, R82, R83: the codes the host reads; the reserved codes of symbol, verdict, tech and kind are never produced. -/
def Obligations.ReadCodesAreTheSpecs : Prop :=
  (symbolCode (.bit .zero) = 0#2 ∧ symbolCode (.bit .one) = 1#2 ∧ symbolCode .unknown = 2#2 ∧
    ∀ y, symbolCode y ≠ 3#2 ∧ symbolOfCode (symbolCode y) = some y) ∧ symbolOfCode 3#2 = none ∧
  (statusCode .ok = 0#2 ∧ statusCode .validationError = 1#2 ∧ statusCode .illegalState = 2#2 ∧
    statusCode .illegalCommand = 3#2) ∧
  (fsmCode .idle = 0#2 ∧ fsmCode .running = 1#2 ∧ fsmCode .paused = 2#2 ∧ fsmCode .completed = 3#2) ∧
  (verdictCode .none = 0#2 ∧ verdictCode .isMatch = 1#2 ∧ verdictCode .mismatch = 2#2 ∧ ∀ v, verdictCode v ≠ 3#2) ∧
  (techCode none = 7#3 ∧ techCode (some .nrzl) = 0#3 ∧ techCode (some .nrzi) = 1#3 ∧
    techCode (some .manchester) = 2#3 ∧ techCode (some .diffmanchester) = 3#3 ∧ techCode (some .bitstuff) = 4#3 ∧
    techCode (some .bytestuff) = 5#3) ∧
  (kindCode (some .text) = 0#2 ∧ kindCode (some .bitstream) = 1#2 ∧ kindCode none = 3#2 ∧ ∀ k, kindCode k ≠ 2#2) ∧
  (boolCode true = 1#1 ∧ boolCode false = 0#1)

/-! ## START -/

/-- R156 with no framing: `START.NRZL`, `START.NRZI`, `START.MAN` and `START.DMAN` of a non-empty payload within the
capacity, in `Idle`, begin a session. -/
def Obligations.StartWithoutFramingBeginsASession : Prop :=
  ∀ (s : State) (k : Kind) (p : List Bit), s.fsm = .idle → p ≠ [] → (∀ c, s.config.cap = some c → p.length ≤ c) →
    exec (.startNrzl k p) s = .next (startedState .nrzl k p p [] .low s) ∧
    exec (.startNrzi k p) s = .next (startedState .nrzi k p p [] s.config.initNrzi s) ∧
    exec (.startMan k p) s = .next (startedState .manchester k p p [] .low s) ∧
    exec (.startDman k p) s = .next (startedState .diffmanchester k p p [] s.config.initDman s)

/-- R156 with bit stuffing: the framed bitstring is `STUFF.BIT(payload)`. -/
def Obligations.StartBitstuffBeginsASession : Prop :=
  ∀ (s : State) (k : Kind) (p : List Bit), s.fsm = .idle → p ≠ [] →
    (∀ c, s.config.cap = some c → (stuffBits p).1.length ≤ c) →
    exec (.startBitstuff k p) s = .next (startedState .bitstuff k p (stuffBits p).1 (stuffBits p).2 .low s)

/-- R156 with byte stuffing: the framed bitstring is `STUFF.BYTE(payload)`. -/
def Obligations.StartBytestuffBeginsASession : Prop :=
  ∀ (s : State) (k : Kind) (p : List Bit), s.fsm = .idle → p ≠ [] → p.length % 8 = 0 →
    (∀ c, s.config.cap = some c → (stuffBytes p).1.length ≤ c) →
    exec (.startBytestuff k p) s = .next (startedState .bytestuff k p (stuffBytes p).1 (stuffBytes p).2 .low s)

/-- R191, R153, R154, R155: `START` of an empty payload, of a payload for byte stuffing whose length is not a multiple of 8,
or of a payload whose framed bitstring is longer than `CAP`, raises `ValidationError`: nothing is written but `status`. With the
default `CAP` the last never happens. -/
def Obligations.InvalidStartChangesOnlyStatus : Prop :=
  (∀ (s : State) (t : Technique) (k : Kind) (p : List Bit), s.fsm = .idle →
    (p = [] ∨ (t = .bytestuff ∧ p.length % 8 ≠ 0) ∨
      (∃ c, s.config.cap = some c ∧ c < (frame (framingOf t) p).1.length)) →
    exec (startInstr t k p) s = .next (refusedWith .validationError s)) ∧
  (∀ (s u : State) (t : Technique) (k : Kind) (p : List Bit), s.fsm = .idle → s.config.cap = none → p ≠ [] →
    (t = .bytestuff → p.length % 8 = 0) → exec (startInstr t k p) s = .next u → u.status = .ok) ∧
  Config.default.cap = none

/-- R223: the session-start values, and the defaults of the two initial levels. -/
def Obligations.AcceptedStartSetsTheSessionStartValues : Prop :=
  (∀ (s u : State) (t : Technique) (k : Kind) (p : List Bit), s.fsm = .idle →
    exec (startInstr t k p) s = .next u → u.status = .ok →
    u.position = 0 ∧ u.signalLog = [] ∧ u.decodedBits = [] ∧ u.errorPositions = [] ∧
      u.pendingErrorInjection = false ∧ u.encLevel = initLevel u.config (lineCodeOf t) ∧
      u.decLevel = initLevel u.config (lineCodeOf t)) ∧
  (∀ cfg : Config, initLevel cfg .nrzi = cfg.initNrzi ∧ initLevel cfg .dman = cfg.initDman ∧
    initLevel cfg .nrzl = .low ∧ initLevel cfg .man = .low) ∧
  Config.default.initNrzi = .low ∧ Config.default.initDman = .low

/-- R157: the branch of `START` that goes straight to `Completed` is unreachable; were it taken, finalization would run on
empty `decodedBits`. -/
def Obligations.StartNeverCompletesASession : Prop :=
  (∀ (s u : State) (t : Technique) (k : Kind) (p : List Bit), s.fsm = .idle →
    exec (startInstr t k p) s = .next u → u.fsm ≠ .completed ∧ (u.status = .ok → u.processedData ≠ [])) ∧
  (∀ (s : State) (t : Technique) (k : Kind) (p : List Bit), (frame (framingOf t) p).1 = [] →
    completeIfEmpty t (beginSession t k p s) = finalize t { beginSession t k p s with fsm := .completed } ∧
    (beginSession t k p s).decodedBits = [])

/-! ## The state machine -/

/-- R150: every move of `fsm` is one of the transition table, with the `status` the table gives; from `Idle`, `START` gives
`Completed` only if the framed bitstring is empty, and `TICK` gives `Completed` exactly when `position` reaches
`len(processedData)`; where the table says IS no state changes, and an illegal word leaves `fsm` as it is. -/
def Obligations.FsmFollowsTheTransitionTable : Prop :=
  (∀ (s t : State) (i : Instr), exec i s = .next t →
    controlMove s.fsm i t.fsm t.status ∧
    (isStart i = true → s.fsm = .idle → t.fsm = .completed → t.processedData = []) ∧
    (i = .tick → s.fsm = .running → (t.fsm = .completed ↔ t.position = t.processedData.length)) ∧
    (t.status = .illegalState → t = refusedWith .illegalState s)) ∧
  (∀ (s t : State) (tx : Transaction) (rest : List Transaction), s.port = tx :: rest → decodeOpcode tx.cw = none →
    step s = .next t → t.fsm = s.fsm)

/-- R196: a session command where the transition table marks it IS writes nothing but `status`; `RESET` and the unit
operations never raise `IllegalState`. -/
def Obligations.CommandsOutOfTheirStateChangeOnlyStatus : Prop :=
  (∀ (s : State) (t : Technique) (k : Kind) (p : List Bit), s.fsm ≠ .idle →
    exec (startInstr t k p) s = .next (refusedWith .illegalState s)) ∧
  (∀ s : State, s.fsm ≠ .running →
    exec .tick s = .next (refusedWith .illegalState s) ∧ exec .arm s = .next (refusedWith .illegalState s) ∧
    exec .pause s = .next (refusedWith .illegalState s)) ∧
  (∀ s : State, s.fsm ≠ .paused → exec .resume s = .next (refusedWith .illegalState s)) ∧
  (∀ (s t : State) (i : Instr), i = .reset ∨ isUnit i = true → exec i s = .next t → t.status ≠ .illegalState)

/-- The order of the tests (spec/60_exceptions.md section 2), on its own examples: an illegal word is reported before the
state, the state before the payload, the empty payload before its alignment. -/
def Obligations.RefusalsAreTestedInOrder : Prop :=
  (∀ (s : State) (rest : List Transaction), s.fsm = .running → s.port = { cw := 0x16#8, operands := [0] } :: rest →
    step s = .next (refusedWith .illegalCommand { s with port := rest })) ∧
  (∀ (s : State) (p : List Bit), s.fsm = .running →
    exec (.startBytestuff .bitstream p) s = .next (refusedWith .illegalState s)) ∧
  (∀ s : State, s.fsm = .idle →
    exec (.startBytestuff .bitstream []) s = .next (refusedWith .validationError s))

/-- R165: `ARM` in `Running` sets the flag and nothing else; elsewhere it raises `IllegalState`; a second `ARM` has no
additional effect, a pause keeps the flag, and a `RESET` drops it. -/
def Obligations.ArmSetsThePendingFlag : Prop :=
  decode { cw := 0x30#8, operands := [] } = .ok .arm ∧
  (∀ s : State, s.fsm = .running →
    exec .arm s = .next { s with pendingErrorInjection := true, status := .ok, result := none }) ∧
  (∀ s : State, s.fsm ≠ .running → exec .arm s = .next (refusedWith .illegalState s)) ∧
  (∀ s t : State, s.fsm = .running → exec .arm s = .next t → exec .arm t = .next t) ∧
  (∀ s : State, s.fsm = .running →
    execAll [.arm, .pause, .resume, .tick] s = execAll [.arm, .tick] s ∧
    execAll [.arm, .reset] s = execAll [.reset] s)

/-- R166: `PAUSE` writes nothing but `fsm` and `status`. -/
def Obligations.PauseWritesOnlyTheControlState : Prop :=
  decode { cw := 0x40#8, operands := [] } = .ok .pause ∧
  (∀ s : State, s.fsm = .running → exec .pause s = .next { s with fsm := .paused, status := .ok, result := none }) ∧
  (∀ s : State, s.fsm ≠ .running → exec .pause s = .next (refusedWith .illegalState s))

/-- R167: `RESUME` writes nothing but `fsm` and `status`; a session paused and resumed any number of times goes on as if it
had never paused. -/
def Obligations.ResumeContinuesWhereTheSessionLeftOff : Prop :=
  decode { cw := 0x50#8, operands := [] } = .ok .resume ∧
  (∀ s : State, s.fsm = .paused → exec .resume s = .next { s with fsm := .running, status := .ok, result := none }) ∧
  (∀ s : State, s.fsm ≠ .paused → exec .resume s = .next (refusedWith .illegalState s)) ∧
  (∀ (s : State) (n : Nat), s.fsm = .running → 0 < n →
    execAll ((List.replicate n [Instr.pause, Instr.resume]).flatten) s =
      .next { s with status := .ok, result := none } ∧
    exec .tick { s with status := .ok, result := none } = exec .tick s)

/-! ## TICK -/

/-- R161: the encoder of the technique's line code is run on the current bit, whether or not an error is armed, and its points
and level are those of the unit operation; in a session `signalLog` is the signal of the true bits. The line code and the
framing of each technique, and so the row of `ENC` that `TICK` runs, are said one by one (the table of technique codes,
spec/30_encoding.md section 1). -/
def Obligations.TickEncodesTheCurrentBit : Prop :=
  (lineCodeOf .nrzl = .nrzl ∧ lineCodeOf .nrzi = .nrzi ∧ lineCodeOf .manchester = .man ∧
    lineCodeOf .diffmanchester = .dman ∧ lineCodeOf .bitstuff = .nrzl ∧ lineCodeOf .bytestuff = .nrzl) ∧
  (framingOf .nrzl = .plain ∧ framingOf .nrzi = .plain ∧ framingOf .manchester = .plain ∧
    framingOf .diffmanchester = .plain ∧ framingOf .bitstuff = .bit ∧ framingOf .bytestuff = .byte) ∧
  ∀ row ∈ ([(.nrzl, .encNrzl), (.nrzi, .encNrzi), (.manchester, .encMan), (.diffmanchester, .encDman),
      (.bitstuff, .encNrzl), (.bytestuff, .encNrzl)] : List (Technique × (Bit → Nat → Level → Instr))),
    ∀ (s : State) (b : Bit), s.fsm = .running → s.tech = some row.1 → s.processedData[s.position]? = some b →
    ∃ u v pts l, exec .tick s = .next u ∧ exec (row.2 b s.position s.encLevel) s = .next v ∧
      v.result = some (.encoded pts l) ∧ u.encLevel = l ∧ u.signalLog = s.signalLog ++ pts ∧
      u.stepOut.valid = true ∧ u.stepOut.index = s.position ∧ u.stepOut.bit = b ∧ u.stepOut.points = pts ∧
      (MachineInv s → u.signalLog = (sentSignal row.1 u).1.flatten)

/-- R163: with no error armed, the decoder of the technique's line code receives exactly the points just appended; its symbol is
recorded, and its position with it when the symbol is `'?'`, which inside a session cannot happen. The row of `DEC` that `TICK`
runs is said technique by technique (the table of technique codes, spec/30_encoding.md section 1). -/
def Obligations.TickDecodesThePointsJustAppended : Prop :=
  ∀ row ∈ ([(.nrzl, .decNrzl), (.nrzi, .decNrzi), (.manchester, .decMan), (.diffmanchester, .decDman),
      (.bitstuff, .decNrzl), (.bytestuff, .decNrzl)] : List (Technique × (Nat → Level → List SignalPoint → Instr))),
    ∀ (s : State) (b : Bit), s.fsm = .running → s.tech = some row.1 → s.processedData[s.position]? = some b →
    s.pendingErrorInjection = false →
    ∃ u v y l, exec .tick s = .next u ∧
      exec (row.2 s.position s.decLevel u.stepOut.points) s = .next v ∧
      u.signalLog = s.signalLog ++ u.stepOut.points ∧
      v.result = some (.decoded y l) ∧ u.decLevel = l ∧ u.decodedBits = s.decodedBits ++ [y] ∧
      u.stepOut.decoded = y ∧ (u.stepOut.error = true ↔ y = .unknown) ∧
      (∀ q, q ∈ u.errorPositions ↔ q ∈ s.errorPositions ∨ (y = .unknown ∧ q = s.position)) ∧
      (MachineInv s → y = .bit b)

/-- R194, R162: a `TICK` that starts with the flag set records the complement of the current bit and its position, clears the
flag, leaves the signal that of the true bit, and, under NRZ-I and Differential Manchester, still advances `decLevel`
to the level of the last point. -/
def Obligations.ArmedTickComplementsTheBit : Prop :=
  ∀ (s : State) (t : Technique) (b : Bit), s.fsm = .running → s.tech = some t →
    s.processedData[s.position]? = some b → s.pendingErrorInjection = true →
    ∃ u, exec .tick s = .next u ∧ u.status = .ok ∧ u.decodedBits = s.decodedBits ++ [.bit b.complement] ∧
      (∀ q, q ∈ u.errorPositions ↔ q ∈ s.errorPositions ∨ q = s.position) ∧
      u.pendingErrorInjection = false ∧ u.stepOut.decoded = .bit b.complement ∧ u.stepOut.error = true ∧
      ((lineCodeOf t = .nrzi ∨ lineCodeOf t = .dman) → u.decLevel = u.encLevel) ∧
      ((lineCodeOf t = .nrzl ∨ lineCodeOf t = .man) → u.decLevel = s.decLevel)

/-- R164: after a `TICK` the position has advanced by one, and `fsm` is `Completed` exactly when it has reached
`len(processedData)`, and otherwise still `Running`; it is never seen `Completed` without the completion outputs. -/
def Obligations.TickAdvancesAndCompletesAtTheEnd : Prop :=
  ∀ (s : State) (t : Technique) (b : Bit), s.fsm = .running → s.tech = some t →
    s.processedData[s.position]? = some b →
    ∃ u, exec .tick s = .next u ∧ u.status = .ok ∧ u.position = s.position + 1 ∧
      u.fsm = (if s.position + 1 = s.processedData.length then .completed else .running) ∧
      (u.fsm = .completed →
        (u.finalBits, u.frameError) = deframe u.config (framingOf t) u.decodedBits ∧
        u.verdict = verdictOf u.kind (framingOf t) u.finalBits u.origData)

/-- The frame of `TICK`: what it leaves unchanged (R61, R160): everything latched by `START`, the parameters, the port, every
old cell of the two logs, the membership of every other position, and, short of completion, the completion outputs. -/
def Obligations.TickFrame : Prop :=
  ∀ s u : State, exec .tick s = .next u →
    u.config = s.config ∧ u.port = s.port ∧ u.tech = s.tech ∧ u.kind = s.kind ∧ u.origData = s.origData ∧
    u.processedData = s.processedData ∧ u.insertedPositions = s.insertedPositions ∧
    s.signalLog <+: u.signalLog ∧ s.decodedBits <+: u.decodedBits ∧
    (∀ q, q ≠ s.position → (q ∈ u.errorPositions ↔ q ∈ s.errorPositions)) ∧
    (s.fsm ≠ .running → u = refusedWith .illegalState s) ∧
    (u.fsm ≠ .completed → u.finalBits = s.finalBits ∧ u.frameError = s.frameError ∧ u.verdict = s.verdict)

/-- R171, R172, R173: the `TICK` that completes a session gives `finalBits` and `frameError` the framing's inverse of the
decoded bits, as the unit operations `DESTUFF.BIT` and `DESTUFF.BYTE` return it; in a session the decoded bits hold no `'?'`, and
a frame error arises only from injected errors. -/
def Obligations.CompletionAppliesTheFramersInverse : Prop :=
  ∀ (s u : State) (t : Technique), s.fsm = .running → s.tech = some t → exec .tick s = .next u → u.fsm = .completed →
    (framingOf t = .plain → u.finalBits = u.decodedBits ∧ u.frameError = false) ∧
    (∀ (x out : List Bit) (v : State), framingOf t = .bit → u.decodedBits = asSymbols x →
      exec (.destuffBit x) s = .next v → v.result = some (.destuffedBit out) →
      u.finalBits = asSymbols out ∧ u.frameError = false) ∧
    (∀ (x out : List Bit) (err : Bool) (v : State), framingOf t = .byte → u.decodedBits = asSymbols x →
      exec (.destuffByte x) s = .next v → v.result = some (.destuffedByte out err) →
      u.finalBits = asSymbols out ∧ u.frameError = err ∧ u.status = .ok) ∧
    (MachineInv s → (∃ x, u.decodedBits = asSymbols x) ∧ (u.frameError = true → u.errorPositions ≠ []))

/-- R174: the verdict applies exactly when the input was a bitstream and framing is off; it compares the two symbol sequences,
and then says match exactly when no error was recorded. -/
def Obligations.VerdictMatchesExactlyWithoutErrors : Prop :=
  ∀ (s : State) (t : Technique) (k : Kind), MachineInv s → s.fsm = .completed → s.tech = some t → s.kind = some k →
    (s.verdict = .none ↔ ¬ (k = .bitstream ∧ framingOf t = .plain)) ∧
    (k = .bitstream → framingOf t = .plain →
      (s.verdict = .isMatch ↔ s.finalBits = asSymbols s.origData) ∧
      (s.verdict = .isMatch ↔ s.errorPositions = []) ∧
      (s.verdict = .mismatch ↔ s.errorPositions ≠ []))

/-! ## The line codes -/

/-- R131. -/
def Obligations.EncNrzlEmitsTheLevelOfTheBit : Prop :=
  ∀ (s : State) (b : Bit) (i : Nat) (l : Level),
    decode { cw := 0x80#8, operands := [b.code, i, l.code] } = .ok (.encNrzl b i l) ∧
    exec (.encNrzl b i l) s = .next (unitDone (.encoded
      [⟨2 * i, if b = .zero then s.config.nrzlL0 else s.config.nrzlL0.neg⟩] l) s)

/-- R132. -/
def Obligations.EncNrziFlipsOnOnes : Prop :=
  ∀ (s : State) (b : Bit) (i : Nat) (l : Level),
    decode { cw := 0x81#8, operands := [b.code, i, l.code] } = .ok (.encNrzi b i l) ∧
    exec (.encNrzi .one i l) s = .next (unitDone (.encoded [⟨2 * i, l.neg⟩] l.neg) s) ∧
    exec (.encNrzi .zero i l) s = .next (unitDone (.encoded [⟨2 * i, l⟩] l) s)

/-- R133. -/
def Obligations.EncManEmitsTheTransitionOfTheBit : Prop :=
  ∀ (s : State) (b : Bit) (i : Nat) (l : Level),
    decode { cw := 0x82#8, operands := [b.code, i, l.code] } = .ok (.encMan b i l) ∧
    exec (.encMan .zero i l) s = .next (unitDone (.encoded [⟨2 * i, .high⟩, ⟨2 * i + 1, .low⟩] l) s) ∧
    exec (.encMan .one i l) s = .next (unitDone (.encoded [⟨2 * i, .low⟩, ⟨2 * i + 1, .high⟩] l) s)

/-- R134. -/
def Obligations.EncDmanFlipsBeforeZeros : Prop :=
  ∀ (s : State) (b : Bit) (i : Nat) (l : Level),
    decode { cw := 0x83#8, operands := [b.code, i, l.code] } = .ok (.encDman b i l) ∧
    exec (.encDman .zero i l) s = .next (unitDone (.encoded [⟨2 * i, l.neg⟩, ⟨2 * i + 1, l⟩] l) s) ∧
    exec (.encDman .one i l) s = .next (unitDone (.encoded [⟨2 * i, l⟩, ⟨2 * i + 1, l.neg⟩] l.neg) s)

/-- R141: the single point's level maps back, whatever its time; any other number of points is refused. -/
def Obligations.DecNrzlMapsTheLevelBack : Prop :=
  (∀ (s : State) (i t2 : Nat) (l lv : Level),
    decode { cw := 0x90#8, operands := [i, l.code, 1, t2, lv.code] } = .ok (.decNrzl i l [⟨t2, lv⟩]) ∧
    exec (.decNrzl i l [⟨t2, lv⟩]) s =
      .next (unitDone (.decoded (.bit (if lv = s.config.nrzlL0 then .zero else .one)) l) s)) ∧
  (∀ (s : State) (i : Nat) (l : Level) (pts : List SignalPoint), pts.length ≠ 1 →
    exec (.decNrzl i l pts) s = .next (refusedWith .illegalCommand s))

/-- R142: a transition is `'1'`, none is `'0'`; any other number of points than one is refused; a wrong carried level inverts
the first decoded bit only. -/
def Obligations.DecNrziReadsTransitions : Prop :=
  (∀ (s : State) (i t2 : Nat) (l lv : Level),
    decode { cw := 0x91#8, operands := [i, l.code, 1, t2, lv.code] } = .ok (.decNrzi i l [⟨t2, lv⟩]) ∧
    exec (.decNrzi i l [⟨t2, lv⟩]) s = .next (unitDone (.decoded (.bit (if lv ≠ l then .one else .zero)) lv) s)) ∧
  (∀ (s : State) (i : Nat) (l : Level) (pts : List SignalPoint), pts.length ≠ 1 →
    exec (.decNrzi i l pts) s = .next (refusedWith .illegalCommand s)) ∧
  (∀ (cfg : Config) (i : Nat) (l : Level) (b : Bit) (x : List Bit),
    decodeStream cfg .nrzi i l.neg (encodeStream cfg .nrzi i l (b :: x)).1 =
      some (.bit b.complement :: asSymbols x, (encodeStream cfg .nrzi i l (b :: x)).2))

/-- R143: exactly the two patterns of the encoder decode to bits; any other 0, 1 or 2 points are `'?'`. -/
def Obligations.DecManReadsOnlyTheTwoPatterns : Prop :=
  (∀ (i : Nat) (l : Level) (pts : List SignalPoint), pts.length ≤ 2 →
    decode { cw := 0x92#8, operands := decFields i l pts } = .ok (.decMan i l pts)) ∧
  (∀ (s : State) (i : Nat) (l : Level),
    exec (.decMan i l [⟨2 * i, .high⟩, ⟨2 * i + 1, .low⟩]) s = .next (unitDone (.decoded (.bit .zero) l) s) ∧
    exec (.decMan i l [⟨2 * i, .low⟩, ⟨2 * i + 1, .high⟩]) s = .next (unitDone (.decoded (.bit .one) l) s)) ∧
  (∀ (s : State) (i : Nat) (l : Level) (pts : List SignalPoint), pts.length ≤ 2 →
    pts ≠ [⟨2 * i, .high⟩, ⟨2 * i + 1, .low⟩] → pts ≠ [⟨2 * i, .low⟩, ⟨2 * i + 1, .high⟩] →
    exec (.decMan i l pts) s = .next (unitDone (.decoded .unknown l) s))

/-- R144: two points at the interval's two times with different levels decode by the first against the carried level; any other
0, 1 or 2 points are `'?'`; the carried level becomes that of the last point, if there is one. -/
def Obligations.DecDmanReadsTheFirstTransition : Prop :=
  (∀ (i : Nat) (l : Level) (pts : List SignalPoint), pts.length ≤ 2 →
    decode { cw := 0x93#8, operands := decFields i l pts } = .ok (.decDman i l pts)) ∧
  (∀ (s : State) (i : Nat) (l a : Level),
    exec (.decDman i l [⟨2 * i, a⟩, ⟨2 * i + 1, a.neg⟩]) s =
      .next (unitDone (.decoded (.bit (if a ≠ l then .zero else .one)) a.neg) s)) ∧
  (∀ (s : State) (i : Nat) (l : Level), exec (.decDman i l []) s = .next (unitDone (.decoded .unknown l) s)) ∧
  (∀ (s : State) (i : Nat) (l : Level) (p : SignalPoint),
    exec (.decDman i l [p]) s = .next (unitDone (.decoded .unknown p.level) s)) ∧
  (∀ (s : State) (i : Nat) (l : Level) (p q : SignalPoint),
    (p.t2 ≠ 2 * i ∨ q.t2 ≠ 2 * i + 1 ∨ p.level = q.level) →
    exec (.decDman i l [p, q]) s = .next (unitDone (.decoded .unknown q.level) s))

/-- R146: for each line code and every value of the parameters, a Bitstring encoded bit by bit and decoded interval by interval,
the decoder seeded like the encoder, is reproduced, and the two carried levels stay equal. -/
def Obligations.LineCodesRoundTrip : Prop :=
  ∀ (cfg : Config) (lc : LineCode) (i : Nat) (l : Level) (x : List Bit),
    decodeStream cfg lc i l (encodeStream cfg lc i l x).1 = some (asSymbols x, (encodeStream cfg lc i l x).2)

/-! ## The Framer -/

/-- R110, R111: `STUFF.BIT` always completes, and (a) to (e) hold of its results. -/
def Obligations.StuffBitBreaksEveryRunOfFive : Prop :=
  ∀ (s : State) (x : List Bit), ∃ out ins, exec (.stuffBit x) s = .next (unitDone (.stuffed out ins) s) ∧
    out.length = x.length + ins.length ∧
    (∀ p ∈ ins, out[p]? = some .zero) ∧
    ¬ (List.replicate 6 Bit.one <:+: out) ∧
    withoutCells out ins = x ∧
    ins.length = fullRuns 0 x

/-- R113: `DESTUFF.BIT(STUFF.BIT(x).stuffed) = x` for every Bitstring; without a run of five `'1'`s nothing is inserted. -/
def Obligations.BitDestuffingInvertsStuffing : Prop :=
  ∀ (s u : State) (x out : List Bit) (ins : List Nat), exec (.stuffBit x) s = .next u →
    u.result = some (.stuffed out ins) →
    exec (.destuffBit out) s = .next (unitDone (.destuffedBit x) s) ∧
    (¬ (List.replicate 5 Bit.one <:+: x) → out = x ∧ ins = [])

/-- R112: `DESTUFF.BIT` completes on every Bitstring and has no error result; the cells it discards are exactly the `'0'`s that
directly follow a counted fifth `'1'`. Since any `'0'` and any counted fifth `'1'` restart the count, these are the `'0'`s
before which stands a maximal run of `'1'`s whose length is a positive multiple of 5. -/
def Obligations.DestuffBitIsTotal : Prop :=
  ∀ (s : State) (x : List Bit), decode { cw := 0xB4#8, operands := bitstringFields x } = .ok (.destuffBit x) ∧
    ∃ out, exec (.destuffBit x) s = .next (unitDone (.destuffedBit out) s) ∧
    out = withoutCells x ((List.range x.length).filter (fun k =>
      decide (x[k]? = some .zero ∧ 0 < onesBefore x k ∧ onesBefore x k % 5 = 0))) ∧
    out.Sublist x ∧ (¬ ((List.replicate 5 Bit.one ++ [Bit.zero]) <:+: x) → out = x)

/-- R120, R121: `STUFF.BYTE` of whole bytes completes, and (a) to (e) hold of its results; (e) is said by the segments of a
good frame, in which a FLAG stands only after an ESC that escapes it, or last. -/
def Obligations.StuffByteEscapesFlagAndEsc : Prop :=
  ∀ (s : State) (x : List Bit), x.length % 8 = 0 →
    ∃ out ins, exec (.stuffByte x) s = .next (unitDone (.stuffed out ins) s) ∧
      out.length = x.length + 16 + 8 * ins.length ∧
      out.take 8 = flagByte ∧ out.drop (out.length - 8) = flagByte ∧
      (∀ p ∈ ins, p % 8 = 0 ∧ 8 ≤ p ∧ p + 24 ≤ out.length ∧ memRead out p 8 = escByte ∧
        (memRead out (p + 8) 8 = flagByte ∨ memRead out (p + 8) 8 = escByte)) ∧
      ins.length = ((wholeBytes x).filter (fun B => decide (B = flagByte ∨ B = escByte))).length ∧
      ∃ gs : List Segment, (∀ g ∈ gs, g.good) ∧ out = frameOf gs

/-- R126: `DESTUFF.BYTE(STUFF.BYTE(x).stuffed) = (x, false)` for every byte-aligned Bitstring, whatever the parameter
`byteDestuffBestEffort`. -/
def Obligations.ByteDestuffingInvertsStuffing : Prop :=
  ∀ (s u : State) (x out : List Bit) (ins : List Nat), x.length % 8 = 0 → exec (.stuffByte x) s = .next u →
    u.result = some (.stuffed out ins) →
    exec (.destuffByte out) s = .next (unitDone (.destuffedByte x false) s)

/-- The success condition of R123 and R124: `DESTUFF.BYTE` completes on every Bitstring, its flag is false exactly on the
frames FLAG, segments, FLAG, and then its output is the segments' bytes, whatever the parameter
`byteDestuffBestEffort`. Whatever that parameter, the output is whole bytes, and of an operand within `CAP` it is within `CAP`
(log entry 4). -/
def Obligations.DestuffByteAcceptsExactlyTheGoodFrames : Prop :=
  (∀ (s : State) (x : List Bit), ∃ out err,
    exec (.destuffByte x) s = .next (unitDone (.destuffedByte out err) s) ∧
    (err = false ↔ ∃ gs : List Segment, (∀ g ∈ gs, g.good) ∧ x = frameOf gs) ∧
    out.length % 8 = 0 ∧ (∀ c, s.config.cap = some c → x.length ≤ c → out.length ≤ c)) ∧
  (∀ (s : State) (gs : List Segment), (∀ g ∈ gs, g.good) →
    exec (.destuffByte (frameOf gs)) s =
      .next (unitDone (.destuffedByte (gs.flatMap Segment.byte) false) s))

/-- R125, and `DESTUFF.BYTE` on every Bitstring with the default of the parameter `byteDestuffBestEffort`
(spec/42_framer_byte_stuffing.md). Every Bitstring is, after a leading FLAG or without one, segments and then a rest at which
the scan stops: the output is the segments' bytes, and the flag is false only for a leading FLAG and a rest that is one FLAG.
Then the table's own cases, and the frame whose last FLAG is taken as escaped data. -/
def Obligations.FailedDestuffingKeepsWhatWasCopied : Prop :=
  (∀ x : List Bit, decode { cw := 0xB5#8, operands := bitstringFields x } = .ok (.destuffByte x)) ∧
  (∀ x : List Bit, ∃ (gs : List Segment) (rest : List Bit), (∀ g ∈ gs, g.good) ∧ stopsScan rest ∧
    (x = flagByte ++ (gs.flatMap Segment.cells ++ rest) ∨
      (x.take 8 ≠ flagByte ∧ x = gs.flatMap Segment.cells ++ rest))) ∧
  (∀ (s : State) (gs : List Segment) (rest : List Bit), s.config.bestEffort = .rule124 → (∀ g ∈ gs, g.good) →
    stopsScan rest →
    exec (.destuffByte (flagByte ++ (gs.flatMap Segment.cells ++ rest))) s =
      .next (unitDone (.destuffedByte (gs.flatMap Segment.byte) (decide (rest ≠ flagByte))) s) ∧
    ((gs.flatMap Segment.cells ++ rest).take 8 ≠ flagByte →
      exec (.destuffByte (gs.flatMap Segment.cells ++ rest)) s =
        .next (unitDone (.destuffedByte (gs.flatMap Segment.byte) true) s))) ∧
  ∀ s : State, s.config.bestEffort = .rule124 →
    ∀ c ∈ ([([], []),
        ([0, 1, 1, 1], []),
        ([0, 1, 0, 0, 0, 0, 0, 1, 0, 1, 1, 1, 1, 1, 1, 0], [0, 1, 0, 0, 0, 0, 0, 1]),
        ([0, 0, 1, 1, 1, 1, 1, 0, 0, 1, 0, 0, 0, 0, 0, 1, 0, 1, 1, 1, 1, 1, 1, 0],
          [0, 0, 1, 1, 1, 1, 1, 0, 0, 1, 0, 0, 0, 0, 0, 1]),
        ([0, 1, 1, 1, 1, 1, 1, 0, 0, 1, 0, 0, 0, 0, 0, 1], [0, 1, 0, 0, 0, 0, 0, 1]),
        ([0, 1, 1, 1, 1, 1, 1, 0], []),
        ([0, 1, 1, 1, 1, 1, 1, 0, 0, 1, 0, 0, 0, 0, 0, 1, 0, 1, 1, 1], [0, 1, 0, 0, 0, 0, 0, 1]),
        ([0, 1, 1, 1, 1, 1, 1, 0, 0, 1, 0, 0, 0, 0, 0, 1, 0, 1, 1, 1, 1, 1, 1, 0, 0, 1, 0, 0, 0, 0, 1, 0,
          0, 1, 1, 1, 1, 1, 1, 0], [0, 1, 0, 0, 0, 0, 0, 1]),
        ([0, 1, 1, 1, 1, 1, 1, 0, 0, 1, 1, 1, 1, 1, 0, 1], []),
        ([0, 1, 1, 1, 1, 1, 1, 0, 0, 1, 1, 1, 1, 1, 0, 1, 0, 1, 1, 1], []),
        ([0, 1, 1, 1, 1, 1, 1, 0, 0, 1, 1, 1, 1, 1, 1, 0, 0], []),
        ([0, 1, 1, 1, 1, 1, 1, 0, 0, 1, 1, 1, 1, 1, 0, 1, 0, 1, 1, 1, 1, 1, 1, 0],
          [0, 1, 1, 1, 1, 1, 1, 0])] : List (List Nat × List Nat)),
      exec (.destuffByte (bitsOf c.1)) s = .next (unitDone (.destuffedByte (bitsOf c.2) true) s)

/-! ## Frames and invariants over every command -/

/-- The frame of the unit operations (spec/30_encoding.md section 1): whatever `fsm` is, one answers a next state that differs
from the state before in nothing but its results and `status`. -/
def Obligations.UnitOperationsTouchOnlyResultsAndStatus : Prop :=
  ∀ (s : State) (i : Instr), isUnit i = true →
    ∃ t, exec i s = .next t ∧ { t with status := s.status, result := s.result } = s ∧
      (t.status = .ok ∨ t = refusedWith .illegalCommand s)

/-- The parameters are "not changed by any command"; that the port is left alone by every command, once its transaction is
taken, is the model's own (log entries 1 and 3). -/
def Obligations.CommandsLeaveParametersAndPortAlone : Prop :=
  (∀ (s t : State) (i : Instr), exec i s = .next t → t.config = s.config ∧ t.port = s.port) ∧
  (∀ s t : State, step s = .next t → t.config = s.config ∧ t.port = s.port.tail)

/-- R61: between `START` and `RESET` the stages' outputs do not change, and the two logs only grow by appending. -/
def Obligations.StageOutputsAreImmutable : Prop :=
  ∀ (s t : State) (i : Instr), i ≠ .reset → (isStart i = true → s.fsm ≠ .idle) → exec i s = .next t →
    t.origData = s.origData ∧ t.processedData = s.processedData ∧ t.insertedPositions = s.insertedPositions ∧
    t.tech = s.tech ∧ t.kind = s.kind ∧ s.signalLog <+: t.signalLog ∧ s.decodedBits <+: t.decodedBits ∧
    s.position ≤ t.position ∧ (∀ q ∈ s.errorPositions, q ∈ t.errorPositions)

/-- The two sets of positions keep their canonical form (log entry 12) under every step, from every state. -/
def Obligations.PositionSetsStayCanonical : Prop :=
  Memory.wf State.reset = true ∧
  ∀ s t : State, Memory.wf s = true → step s = .next t → Memory.wf t = true

/-- The invariant holds at reset. -/
def Obligations.SessionInvariantHoldsAtReset : Prop := MachineInv State.reset

/-- The invariant is kept by every step, from every state that meets it, whatever the parameters and whatever stands at the
port. -/
def Obligations.EveryStepKeepsTheSessionInvariant : Prop :=
  ∀ s t : State, MachineInv s → step s = .next t → MachineInv t

/-- From a state that meets the invariant, a step always answers a next state: every command is executed or refused with a
`status`, and the model's two faults are not reached. -/
def Obligations.InvariantHoldsEveryStepAnswersNext : Prop :=
  ∀ s : State, MachineInv s → answersNext s

/-- R32, R33, R35: the source's first two invariants and the six further ones. R52: with a finite `CAP` every buffer keeps its
bound, whatever the parameter `byteDestuffBestEffort`; a payload valid otherwise is refused exactly when its framed bitstring
would be longer than `CAP`, so never when `CAP` is unbounded. -/
def Obligations.InvariantGivesTheCounters : Prop :=
  (∀ (s : State) (c : Nat), MachineInv s → s.config.cap = some c →
    s.origData.length ≤ s.processedData.length ∧ s.processedData.length ≤ c ∧ s.signalLog.length ≤ 2 * c ∧
    s.decodedBits.length ≤ c ∧ s.finalBits.length ≤ c) ∧
  (∀ (s : State) (t : Technique) (k : Kind) (p : List Bit), s.fsm = .idle → p ≠ [] →
    (t = .bytestuff → p.length % 8 = 0) →
    ∃ u, exec (startInstr t k p) s = .next u ∧ (u.status = .ok ∨ u.status = .validationError) ∧
      (u.status = .validationError ↔ ∃ c, s.config.cap = some c ∧ c < (frame (framingOf t) p).1.length)) ∧
  ∀ s : State, MachineInv s →
    s.position ≤ s.processedData.length ∧
    (s.fsm = .completed ↔ s.fsm ≠ .idle ∧ s.position = s.processedData.length) ∧
    s.decodedBits.length = s.position ∧
    (∀ p ∈ s.errorPositions, p < s.position) ∧
    (∀ t, s.tech = some t → (lineCodeOf t = .nrzl ∨ lineCodeOf t = .nrzi) →
      s.signalLog.map SignalPoint.t2 = (List.range s.position).map (fun n => 2 * n)) ∧
    (∀ t, s.tech = some t → (lineCodeOf t = .man ∨ lineCodeOf t = .dman) →
      s.signalLog.map SignalPoint.t2 = List.range (2 * s.position)) ∧
    (∀ k : Nat, s.decodedBits[k]? ≠ some .unknown) ∧
    (∀ (k : Nat) (b : Bit), k < s.position → s.processedData[k]? = some b →
      s.decodedBits[k]? = some (.bit (if k ∈ s.errorPositions then b.complement else b))) ∧
    (s.fsm = .idle → ResetValues { s with status := .ok })

/-- R34: the exact forms of the source's third invariant, for the three framings. -/
def Obligations.InvariantGivesTheInsertedPositions : Prop :=
  ∀ (s : State) (t : Technique), MachineInv s → s.tech = some t →
    (∀ p ∈ s.insertedPositions, p < s.processedData.length) ∧
    (framingOf t = .plain → s.insertedPositions = [] ∧ s.processedData = s.origData) ∧
    (framingOf t = .bit → s.processedData.length = s.origData.length + s.insertedPositions.length ∧
      ∀ p ∈ s.insertedPositions, s.processedData[p]? = some .zero) ∧
    (framingOf t = .byte → s.processedData.length = s.origData.length + 16 + 8 * s.insertedPositions.length ∧
      ∀ p ∈ s.insertedPositions, p % 8 = 0 ∧ memRead s.processedData p 8 = escByte)

/-- R27: under NRZ-I and Differential Manchester, after every bit-step both carried levels equal the level of the last point. -/
def Obligations.CarriedLevelsFollowTheSignal : Prop :=
  ∀ (s : State) (t : Technique), MachineInv s → s.tech = some t → (lineCodeOf t = .nrzi ∨ lineCodeOf t = .dman) →
    0 < s.position →
    s.encLevel = s.decLevel ∧ s.signalLog.getLast?.map SignalPoint.level = some s.encLevel

/-! ## Whole sessions -/

/-- R182: a session in which no `ARM` is issued between `START` and completion reconstructs the original message, whatever other
commands are issued between, whatever the technique, the payload and the parameters. -/
def Obligations.ErrorFreeSessionsReconstructTheMessage : Prop :=
  ∀ (s u v : State) (t : Technique) (k : Kind) (p : List Bit) (cs : List Instr), s.fsm = .idle →
    exec (startInstr t k p) s = .next u → u.status = .ok → (∀ i ∈ cs, i ≠ .arm ∧ i ≠ .reset) →
    execAll cs u = .next v → v.fsm = .completed →
    v.decodedBits = asSymbols v.processedData ∧ v.errorPositions = [] ∧ v.origData = p ∧
    v.finalBits = asSymbols p ∧ v.frameError = false ∧
    v.verdict = (if k = .bitstream ∧ framingOf t = .plain then .isMatch else .none)

/-- The set of positions in error and nothing else decides what was received (spec/45_session_stepper.md section 7): a completed
unframed session delivers the complement at those indices and the payload's bits elsewhere. -/
def Obligations.UnframedErrorsShowExactlyWhereTheyWere : Prop :=
  ∀ (s : State) (t : Technique), MachineInv s → s.fsm = .completed → s.tech = some t → framingOf t = .plain →
    s.finalBits.length = s.origData.length ∧
    ∀ (k : Nat) (b : Bit), s.origData[k]? = some b →
      s.finalBits[k]? = some (.bit (if k ∈ s.errorPositions then b.complement else b))

/-- Arming changes what is received and never the signal: two states that differ in nothing but the flag step to the same
signal, the same carried levels and the same position (spec/45_session_stepper.md section 7). -/
def Obligations.InjectionLeavesTheSignalAlone : Prop :=
  ∀ (s u v : State) (t : Technique), s.tech = some t →
    exec .tick { s with pendingErrorInjection := false } = .next u →
    exec .tick { s with pendingErrorInjection := true } = .next v → s.fsm = .running →
    u.signalLog = v.signalLog ∧ u.encLevel = v.encLevel ∧ u.decLevel = v.decLevel ∧ u.position = v.position ∧
    u.fsm = v.fsm

/-- R233: from a running session, `len(processedData) - position` ticks complete it, and no fewer do; whatever else is
interleaved, a session has ended exactly when that many ticks have succeeded. -/
def Obligations.SessionsEndAfterTheirRemainingTicks : Prop :=
  (∀ s : State, MachineInv s → s.fsm = .running →
    (∃ t, execAll (ticks (s.processedData.length - s.position)) s = .next t ∧ t.fsm = .completed) ∧
    ∀ n, n < s.processedData.length - s.position →
      ∃ t, execAll (ticks n) s = .next t ∧ t.fsm = .running ∧ t.position = s.position + n) ∧
  (∀ (s t : State) (cs : List Instr), MachineInv s → s.fsm ≠ .idle → (∀ i ∈ cs, i ≠ .reset) →
    execAll cs s = .next t →
    t.position = s.position + succeededTicks cs s ∧
    (t.fsm = .completed ↔ succeededTicks cs s = s.processedData.length - s.position))

/-- R107, with the length of R101: text whose characters are all in {9, 10, 13} or 32..255 is restored. -/
def Obligations.TextRoundTrips : Prop :=
  ∀ text : List Char, (∀ c ∈ text, c.toNat = 9 ∨ c.toNat = 10 ∨ c.toNat = 13 ∨ (32 ≤ c.toNat ∧ c.toNat ≤ 255)) →
    ∃ bits, textToBits text = some bits ∧ bits.length = 8 * text.length ∧ bitsToText (asSymbols bits) = text

/-- R184: the projection of framed cells to payload cells, for the three framings; a framed cell that corresponds to a payload
cell holds that cell's bit. -/
def Obligations.OrigIndexFindsThePayloadCell : Prop :=
  (∀ (N : Nat) (ins : List Nat) (p : Nat), p < N →
    origIndex .plain N ins p = some p ∧
    (p ∈ ins → origIndex .bit N ins p = none) ∧
    (p ∉ ins → origIndex .bit N ins p = some (p - (ins.filter (fun q => decide (q < p))).length)) ∧
    (p < 8 ∨ N - 8 ≤ p → origIndex .byte N ins p = none) ∧
    ((∃ q ∈ ins, q ≤ p ∧ p < q + 8) → origIndex .byte N ins p = none) ∧
    (8 ≤ p → p < N - 8 → (∀ q ∈ ins, ¬ (q ≤ p ∧ p < q + 8)) →
      origIndex .byte N ins p = some (p - 8 - 8 * (ins.filter (fun q => decide (q < p))).length))) ∧
  (∀ (s : State) (t : Technique) (p k : Nat), MachineInv s → s.tech = some t →
    origIndex (framingOf t) s.processedData.length s.insertedPositions p = some k →
    ∃ b, s.processedData[p]? = some b ∧ s.origData[k]? = some b)
end

