-- ==== Sys2Proof/Laws/Decode.lean ====
section
/-! SUPPORT. What the operand readers of Decode.lean give on the fields the encoder writes. -/

namespace Sys2Proof

@[simp] theorem bitOfCode_code (b : Bit) : bitOfCode b.code = some b := by cases b <;> rfl
@[simp] theorem levelOfCode_code (l : Level) : levelOfCode l.code = some l := by cases l <;> rfl

theorem bitOfCode_eq_none (n : Nat) (h : 2 ≤ n) : bitOfCode n = none := by
  obtain ⟨m, rfl⟩ := Nat.exists_eq_add_of_le h
  rw [Nat.add_comm]
  rfl

theorem levelOfCode_eq_none (n : Nat) (h : 2 ≤ n) : levelOfCode n = none := by
  obtain ⟨m, rfl⟩ := Nat.exists_eq_add_of_le h
  rw [Nat.add_comm]
  rfl

theorem bitOfCode_eq_some {n : Nat} {b : Bit} (h : bitOfCode n = some b) : n = b.code := by
  match n with
  | 0 => cases h; rfl
  | 1 => cases h; rfl
  | n + 2 => cases h

theorem levelOfCode_eq_some {n : Nat} {l : Level} (h : levelOfCode n = some l) : n = l.code := by
  match n with
  | 0 => cases h; rfl
  | 1 => cases h; rfl
  | n + 2 => cases h

/-- Every opcode is named by its own word. -/
theorem decodeOpcode_encodeOpcode (o : Opcode) : decodeOpcode (encodeOpcode o) = some o := by
  cases o with
  | start t k => cases t <;> cases k <;> decide
  | enc lc => cases lc <;> decide
  | dec lc => cases lc <;> decide
  | reset => decide
  | tick => decide
  | arm => decide
  | pause => decide
  | resume => decide
  | stuffBit => decide
  | stuffByte => decide
  | destuffBit => decide
  | destuffByte => decide

/-! ## The readers -/

@[simp] theorem readNat_cons (n : Nat) (rest : List Nat) : readNat (n :: rest) = .ok (n, rest) := rfl

@[simp] theorem readBit_code (b : Bit) (rest : List Nat) : readBit (b.code :: rest) = .ok (b, rest) := by
  simp [readBit]

@[simp] theorem readLevel_code (l : Level) (rest : List Nat) : readLevel (l.code :: rest) = .ok (l, rest) := by
  simp [readLevel]

@[simp] theorem readBits_map (x : List Bit) (rest : List Nat) :
    readBits x.length (x.map Bit.code ++ rest) = .ok (x, rest) := by
  induction x with
  | nil => rfl
  | cons b x ih => simp [readBits, ih]

@[simp] theorem readBitstring_fields (x : List Bit) (rest : List Nat) :
    readBitstring (bitstringFields x ++ rest) = .ok (x, rest) := by
  simp [readBitstring, bitstringFields]

@[simp] theorem readPoint_fields (p : SignalPoint) (rest : List Nat) :
    readPoint (pointFields p ++ rest) = .ok (p, rest) := by
  simp [readPoint, pointFields]

@[simp] theorem readPointList_fields (pts : List SignalPoint) (rest : List Nat) :
    readPointList pts.length (pts.flatMap pointFields ++ rest) = .ok (pts, rest) := by
  induction pts with
  | nil => rfl
  | cons p ps ih => simp [readPointList, List.append_assoc, ih]

@[simp] theorem readEnc_fields (b : Bit) (i : Nat) (s : Level) (rest : List Nat) :
    readEnc (encFields b i s ++ rest) = .ok ((b, i, s), rest) := by
  simp [readEnc, encFields]

@[simp] theorem readDec_fields (i : Nat) (s : Level) (pts : List SignalPoint) (rest : List Nat)
    (h : pts.length ≤ 2) : readDec (decFields i s pts ++ rest) = .ok ((i, s, pts), rest) := by
  simp [readDec, decFields, readPoints, h]

/-- A decoded transaction is an opcode and the operands read for it. -/
theorem decode_eq_ok {tx : Transaction} {i : Instr} (h : decode tx = .ok i) :
    ∃ o, decodeOpcode tx.cw = some o ∧ decodeOperands o tx.operands = .ok i := by
  unfold decode at h
  split at h
  · cases h
  · next o ho => exact ⟨o, ho, h⟩

/-- A finished reading left nothing of the transaction. -/
theorem finish_eq_ok {α : Type} {r : Reading α} {f : α → Instr} {i : Instr} (h : finish r f = .ok i) :
    ∃ a, r = .ok (a, []) ∧ f a = i := by
  unfold finish at h
  split at h
  · cases h
  · next a => exact ⟨a, rfl, by simpa using h⟩
  · cases h

/-! ## What a reading that succeeds has read -/

theorem readBit_ok {ops : List Nat} {b : Bit} {r : List Nat} (h : readBit ops = .ok (b, r)) : ops = b.code :: r := by
  match ops with
  | [] => cases h
  | n :: ops =>
    unfold readBit at h
    split at h
    · simp_all
    · next n' ops' e =>
      split at h
      · next b' hb => simp at h e; obtain ⟨rfl, rfl⟩ := h; obtain ⟨rfl, rfl⟩ := e; rw [bitOfCode_eq_some hb]
      · cases h

theorem readLevel_ok {ops : List Nat} {b : Level} {r : List Nat} (h : readLevel ops = .ok (b, r)) :
    ops = b.code :: r := by
  match ops with
  | [] => cases h
  | n :: ops =>
    unfold readLevel at h
    split at h
    · simp_all
    · next n' ops' e =>
      split at h
      · next b' hb => simp at h e; obtain ⟨rfl, rfl⟩ := h; obtain ⟨rfl, rfl⟩ := e; rw [levelOfCode_eq_some hb]
      · cases h

theorem readNat_ok {ops : List Nat} {b : Nat} {r : List Nat} (h : readNat ops = .ok (b, r)) : ops = b :: r := by
  match ops with
  | [] => cases h
  | n :: ops => simp at h; simp [h]

theorem readBits_ok {n : Nat} {ops : List Nat} {x : List Bit} {r : List Nat} (h : readBits n ops = .ok (x, r)) :
    ops = x.map Bit.code ++ r ∧ x.length = n := by
  induction n generalizing ops x with
  | zero => simp [readBits] at h; obtain ⟨rfl, rfl⟩ := h; simp
  | succ n ih =>
    unfold readBits at h
    split at h
    · cases h
    · next b r1 hb =>
      split at h
      · cases h
      · next bs r2 hbs =>
        simp at h
        obtain ⟨rfl, rfl⟩ := h
        have := ih hbs
        rw [readBit_ok hb, this.1]; simp [this.2]

theorem readBitstring_ok {ops : List Nat} {x : List Bit} {r : List Nat} (h : readBitstring ops = .ok (x, r)) :
    ops = bitstringFields x ++ r := by
  unfold readBitstring at h
  split at h
  · cases h
  · next n r1 hn =>
    have := readBits_ok h
    rw [readNat_ok hn, this.1, bitstringFields, this.2]; simp

theorem readPoint_ok {ops : List Nat} {x : SignalPoint} {r : List Nat} (h : readPoint ops = .ok (x, r)) :
    ops = pointFields x ++ r := by
  unfold readPoint at h
  split at h
  · cases h
  · next n r1 hn =>
    split at h
    · cases h
    · next l r2 hl =>
      simp at h; obtain ⟨rfl, rfl⟩ := h
      rw [readNat_ok hn, readLevel_ok hl]; rfl

theorem readPointList_ok {n : Nat} {ops : List Nat} {x : List SignalPoint} {r : List Nat} (h : readPointList n ops
    = .ok (x, r)) : ops = x.flatMap pointFields ++ r ∧ x.length = n := by
  induction n generalizing ops x with
  | zero => simp [readPointList] at h; obtain ⟨rfl, rfl⟩ := h; simp
  | succ n ih =>
    unfold readPointList at h
    split at h
    · cases h
    · next b r1 hb =>
      split at h
      · cases h
      · next bs r2 hbs =>
        simp at h
        obtain ⟨rfl, rfl⟩ := h
        have := ih hbs
        rw [readPoint_ok hb, this.1]; simp [this.2]

theorem readEnc_ok {ops : List Nat} {a : Bit × Nat × Level} {r : List Nat} (h : readEnc ops = .ok (a, r)) :
    ops = encFields a.1 a.2.1 a.2.2 ++ r := by
  unfold readEnc at h
  split at h
  · cases h
  · next h1 =>
    split at h
    · cases h
    · next h2 =>
      split at h
      · cases h
      · next h3 =>
        simp at h; obtain ⟨rfl, rfl⟩ := h
        rw [readBit_ok h1, readNat_ok h2, readLevel_ok h3]; rfl

theorem readDec_ok {ops : List Nat} {a : Nat × Level × List SignalPoint} {r : List Nat} (h : readDec ops = .ok (a,
    r)) : ops = decFields a.1 a.2.1 a.2.2 ++ r ∧ a.2.2.length ≤ 2 := by
  unfold readDec at h
  split at h
  · cases h
  · next h1 =>
    split at h
    · cases h
    · next h2 =>
      split at h
      · cases h
      · next h3 =>
        simp at h; obtain ⟨rfl, rfl⟩ := h
        unfold readPoints at h3
        split at h3
        · cases h3
        · next n r3 hn =>
          split at h3
          · next hle =>
            have := readPointList_ok h3
            rw [readNat_ok h1, readLevel_ok h2, readNat_ok hn, this.1]; simp [decFields, this.2, hle]
          · cases h3

end Sys2Proof
end

