-- ==== Sys2Proof/Laws/Ops.lean ====
section
/-! SUPPORT. What the named operations of Machine/Ops.lean and Machine/Flags.lean can do. -/

namespace Sys2Proof

@[simp] theorem Bit.complement_complement (b : Bit) : b.complement.complement = b := by cases b <;> rfl
@[simp] theorem Bit.complement_ne (b : Bit) : b.complement ≠ b := by cases b <;> decide
@[simp] theorem Level.neg_neg (l : Level) : l.neg.neg = l := by cases l <;> rfl
@[simp] theorem Level.neg_ne (l : Level) : l.neg ≠ l := by cases l <;> decide
@[simp] theorem Level.ne_neg (l : Level) : l ≠ l.neg := by cases l <;> decide

theorem Level.eq_neg_of_ne {l m : Level} (h : l ≠ m) : l = m.neg := by cases l <;> cases m <;> simp_all [Level.neg]

namespace Machine

/-! ## The end of a command -/

@[simp] theorem raise_eq_next (k : Status) (s t : State) : raise k s = .next t ↔ { s with status := k } = t := by
  simp [raise]

@[simp] theorem finishSession_eq_next (s t : State) :
    finishSession s = .next t ↔ { s with status := .ok, result := none } = t := by
  simp [finishSession]

@[simp] theorem finishUnit_eq_next (r : Result) (s t : State) :
    finishUnit r s = .next t ↔ { s with status := .ok, result := some r } = t := by
  simp [finishUnit]

/-! ## Sets of positions -/

@[simp] theorem mem_insertPosition (p q : Nat) (set : List Nat) :
    q ∈ insertPosition p set ↔ q = p ∨ q ∈ set := by
  induction set with
  | nil => simp [insertPosition]
  | cons r rs ih =>
    unfold insertPosition
    split
    · simp
    · split
      · next h => subst h; simp
      · simp only [List.mem_cons, ih]; tauto

theorem positionsAscend_iff (set : List Nat) : positionsAscend set = true ↔ set.Pairwise (· < ·) := by
  induction set with
  | nil => simp [positionsAscend]
  | cons p qs ih =>
    cases qs with
    | nil => simp [positionsAscend]
    | cons q qs =>
      simp only [positionsAscend, Bool.and_eq_true, decide_eq_true_eq, ih, List.pairwise_cons]
      constructor
      · rintro ⟨h1, h2, h3⟩
        refine ⟨?_, h2, h3⟩
        intro r hr
        rcases List.mem_cons.mp hr with rfl | hr
        · exact h1
        · exact lt_trans h1 (h2 r hr)
      · rintro ⟨h1, h2, h3⟩
        exact ⟨h1 q (by simp), h2, h3⟩

/-- Inserting a position keeps the canonical form. -/
theorem positionsAscend_insertPosition (p : Nat) (set : List Nat) (h : positionsAscend set = true) :
    positionsAscend (insertPosition p set) = true := by
  rw [positionsAscend_iff] at *
  induction set with
  | nil => simp [insertPosition]
  | cons q qs ih =>
    rw [List.pairwise_cons] at h
    unfold insertPosition
    split
    · next hlt =>
      refine List.pairwise_cons.mpr ⟨?_, List.pairwise_cons.mpr h⟩
      intro r hr
      rcases List.mem_cons.mp hr with rfl | hr
      · exact hlt
      · exact lt_trans hlt (h.1 r hr)
    · split
      · exact List.pairwise_cons.mpr h
      · next h1 h2 =>
        refine List.pairwise_cons.mpr ⟨?_, ih h.2⟩
        intro r hr
        rcases (mem_insertPosition p r qs).mp hr with rfl | hr
        · omega
        · exact h.1 r hr

theorem positionsAscend_recordError (e : Bool) (i : Nat) (set : List Nat) (h : positionsAscend set = true) :
    positionsAscend (recordError e i set) = true := by
  unfold recordError
  split
  · exact positionsAscend_insertPosition i set h
  · exact h

@[simp] theorem mem_recordError (e : Bool) (i q : Nat) (set : List Nat) :
    q ∈ recordError e i set ↔ (e = true ∧ q = i) ∨ q ∈ set := by
  unfold recordError
  split <;> simp_all

/-! ## Bytes of a sequence -/

@[simp] theorem bytesFrom_length {α : Type} (n : Nat) (s : List α) : (bytesFrom n s).length = n := by
  induction n generalizing s with
  | zero => rfl
  | succ n ih => simp [bytesFrom, ih]

@[simp] theorem wholeBytes_nil {α : Type} : wholeBytes ([] : List α) = [] := by simp [wholeBytes, bytesFrom]

/-- A byte in front of a sequence is its first whole byte. -/
theorem wholeBytes_append {α : Type} (B s : List α) (h : B.length = 8) :
    wholeBytes (B ++ s) = B :: wholeBytes s := by
  have hn : (B ++ s).length / 8 = s.length / 8 + 1 := by simp only [List.length_append, h]; omega
  unfold wholeBytes
  rw [hn]
  simp [bytesFrom, h]

theorem leftoverCells_append {α : Type} (B s : List α) (h : B.length = 8) :
    leftoverCells (B ++ s) = leftoverCells s := by
  have hn : (B ++ s).length / 8 = s.length / 8 + 1 := by simp only [List.length_append, h]; omega
  unfold leftoverCells
  rw [hn, List.drop_append]
  have : 8 * (s.length / 8 + 1) - B.length = 8 * (s.length / 8) := by omega
  rw [this, List.drop_eq_nil_of_le (by omega), List.nil_append]

theorem wholeBytes_of_short {α : Type} (s : List α) (h : s.length < 8) : wholeBytes s = [] := by
  have : s.length / 8 = 0 := by omega
  simp [wholeBytes, this, bytesFrom]

theorem leftoverCells_of_short {α : Type} (s : List α) (h : s.length < 8) : leftoverCells s = s := by
  have : s.length / 8 = 0 := by omega
  simp [leftoverCells, this]

/-- A property of sequences that holds of every sequence shorter than a byte, and of a byte before a sequence it holds of,
holds of every sequence. -/
theorem bytes_induction {α : Type} {P : List α → Prop} (short : ∀ s : List α, s.length < 8 → P s)
    (byte : ∀ B s : List α, B.length = 8 → P s → P (B ++ s)) (s : List α) : P s := by
  induction h : s.length using Nat.strong_induction_on generalizing s with
  | _ n ih =>
    by_cases hs : s.length < 8
    · exact short s hs
    · have := byte (s.take 8) (s.drop 8) (by simp; omega)
        (ih (s.drop 8).length (by simp; omega) (s.drop 8) rfl)
      rwa [List.take_append_drop] at this

/-- The whole bytes and the cells left over make up the sequence. -/
theorem wholeBytes_flatten {α : Type} (s : List α) : (wholeBytes s).flatten ++ leftoverCells s = s := by
  induction s using bytes_induction with
  | short s h => simp [wholeBytes_of_short s h, leftoverCells_of_short s h]
  | byte B s h ih => simp [wholeBytes_append B s h, leftoverCells_append B s h, ih]

theorem length_of_mem_wholeBytes {α : Type} (s : List α) : ∀ B ∈ wholeBytes s, B.length = 8 := by
  induction s using bytes_induction with
  | short s h => simp [wholeBytes_of_short s h]
  | byte B s h ih => simpa [wholeBytes_append B s h, h] using ih

theorem wholeBytes_length {α : Type} (s : List α) : (wholeBytes s).length = s.length / 8 := by
  induction s using bytes_induction with
  | short s h => rw [wholeBytes_of_short s h, List.length_nil]; omega
  | byte B s h ih => rw [wholeBytes_append B s h, List.length_cons, List.length_append, ih]; omega

theorem leftoverCells_length {α : Type} (s : List α) : (leftoverCells s).length = s.length % 8 := by
  unfold leftoverCells
  simp
  omega

theorem leftoverCells_of_aligned {α : Type} (s : List α) (h : s.length % 8 = 0) : leftoverCells s = [] :=
  List.length_eq_zero_iff.mp (by rw [leftoverCells_length, h])

theorem wholeBytes_map {α β : Type} (f : α → β) (s : List α) :
    wholeBytes (s.map f) = (wholeBytes s).map (List.map f) := by
  induction s using bytes_induction with
  | short s h => rw [wholeBytes_of_short s h, wholeBytes_of_short _ (by simpa using h)]; rfl
  | byte B s h ih => rw [List.map_append, wholeBytes_append _ _ (by simpa using h), wholeBytes_append B s h, ih]; rfl

theorem leftoverCells_map {α β : Type} (f : α → β) (s : List α) :
    leftoverCells (s.map f) = (leftoverCells s).map f := by
  simp [leftoverCells]

/-! ## Bitstrings as symbols -/

@[simp] theorem asSymbols_nil : asSymbols [] = [] := rfl
@[simp] theorem asSymbols_cons (b : Bit) (x : List Bit) : asSymbols (b :: x) = .bit b :: asSymbols x := rfl
@[simp] theorem asSymbols_append (x y : List Bit) : asSymbols (x ++ y) = asSymbols x ++ asSymbols y := by
  simp [asSymbols]
@[simp] theorem asSymbols_length (x : List Bit) : (asSymbols x).length = x.length := by simp [asSymbols]

theorem symbolBit_injective : Function.Injective Symbol.bit := fun _ _ h => Symbol.bit.inj h

theorem asSymbols_injective : Function.Injective asSymbols := symbolBit_injective.list_map

@[simp] theorem asSymbols_inj (x y : List Bit) : asSymbols x = asSymbols y ↔ x = y := asSymbols_injective.eq_iff

/-! ## The verdict -/

theorem verdictApplies_iff (k : Option Kind) (f : Framing) :
    verdictApplies k f = true ↔ k = some .bitstream ∧ f = .plain := by
  simp [verdictApplies]

end Machine

end Sys2Proof
end

