-- ==== Sys2Proof/Laws/Framer.lean ====
section
/-! SUPPORT. The Framer's scans, one step at a time (spec/41_framer_bit_stuffing.md, spec/42_framer_byte_stuffing.md). -/

namespace Sys2Proof.Machine

/-! ## Bit stuffing -/

@[simp] theorem stuffScan_nil (c n : Nat) : stuffScan c n [] = ([], []) := rfl

@[simp] theorem stuffScan_zero (c n : Nat) (x : List Bit) :
    stuffScan c n (.zero :: x) = (.zero :: (stuffScan 0 (n + 1) x).1, (stuffScan 0 (n + 1) x).2) := rfl

theorem stuffScan_one_full (n : Nat) (x : List Bit) :
    stuffScan 4 n (.one :: x) =
      (.one :: .zero :: (stuffScan 0 (n + 2) x).1, (n + 1) :: (stuffScan 0 (n + 2) x).2) := rfl

theorem stuffScan_one (c n : Nat) (x : List Bit) (h : c ≠ 4) :
    stuffScan c n (.one :: x) = (.one :: (stuffScan (c + 1) (n + 1) x).1, (stuffScan (c + 1) (n + 1) x).2) := by
  have : c + 1 ≠ runLength := by simp only [runLength]; omega
  simp [stuffScan, this]

/-- A non-empty input gives a non-empty output. -/
theorem stuffScan_ne_nil (c n : Nat) (x : List Bit) (h : x ≠ []) : (stuffScan c n x).1 ≠ [] := by
  match x, h with
  | .zero :: x, _ => simp
  | .one :: x, _ =>
    by_cases hc : c = 4
    · subst hc; simp [stuffScan_one_full]
    · simp [stuffScan_one c n x hc]

/-- The inserted positions lie at or after the place the scan has reached, in ascending order. -/
theorem stuffScan_positions (c n : Nat) (x : List Bit) :
    (∀ p ∈ (stuffScan c n x).2, n < p) ∧ positionsAscend (stuffScan c n x).2 = true := by
  simp only [positionsAscend_iff]
  induction x generalizing c n with
  | nil => simp
  | cons b x ih =>
    cases b with
    | zero =>
      refine ⟨fun p hp => ?_, (ih 0 (n + 1)).2⟩
      have := (ih 0 (n + 1)).1 p hp
      omega
    | one =>
      by_cases hc : c = 4
      · subst hc
        rw [stuffScan_one_full]
        refine ⟨fun p hp => ?_, List.pairwise_cons.mpr ⟨fun p hp => ?_, (ih 0 (n + 2)).2⟩⟩
        · rcases List.mem_cons.mp hp with rfl | hp
          · omega
          · have := (ih 0 (n + 2)).1 p hp; omega
        · have := (ih 0 (n + 2)).1 p hp; omega
      · rw [stuffScan_one c n x hc]
        refine ⟨fun p hp => ?_, (ih (c + 1) (n + 1)).2⟩
        have := (ih (c + 1) (n + 1)).1 p hp
        omega

section
variable {α : Type} [DecidableEq α] (zero one : α)

@[simp] theorem destuffScan_nil (c : Nat) : destuffScan zero one c [] = [] := by simp [destuffScan]

theorem destuffScan_other (c : Nat) (b : α) (s : List α) (h : b ≠ one) :
    destuffScan zero one c (b :: s) = b :: destuffScan zero one 0 s := by cases s <;> simp [destuffScan, h]

theorem destuffScan_one (c : Nat) (s : List α) (h : c ≠ 4) :
    destuffScan zero one c (one :: s) = one :: destuffScan zero one (c + 1) s := by
  have : c + 1 ≠ runLength := by simp only [runLength]; omega
  cases s <;> simp [destuffScan, this]

theorem destuffScan_full_end : destuffScan zero one 4 [one] = [one] := by simp [destuffScan, runLength]

theorem destuffScan_full_drop (s : List α) :
    destuffScan zero one 4 (one :: zero :: s) = one :: destuffScan zero one 0 s := by
  rw [destuffScan]; simp [runLength]

theorem destuffScan_full_keep (d : α) (s : List α) (h : d ≠ zero) :
    destuffScan zero one 4 (one :: d :: s) = one :: destuffScan zero one 0 (d :: s) := by
  rw [destuffScan]; simp [runLength, h]

/-- A destuffer only discards. -/
theorem destuffScan_length_le (s : List α) : ∀ c, (destuffScan zero one c s).length ≤ s.length := by
  induction h : s.length using Nat.strong_induction_on generalizing s with
  | _ n ih =>
    intro c
    match s, h with
    | [], _ => simp
    | [d], h => simp only [destuffScan]; split_ifs <;> simp [← h]
    | d :: e :: r, h =>
      have h1 := ih (e :: r).length (by simp [← h]) (e :: r) rfl
      have h2 := ih r.length (by simp only [← h, List.length_cons]; omega) r rfl 0
      have h10 := h1 0
      have h1c := h1 (c + 1)
      simp only [List.length_cons] at h h10 h1c
      simp only [destuffScan]
      split_ifs <;> simp only [List.length_cons] <;> omega

end

/-! ## Byte stuffing -/

@[simp] theorem flagByte_length : flagByte.length = 8 := rfl
@[simp] theorem escByte_length : escByte.length = 8 := rfl
@[simp] theorem flagByte_ne_escByte : flagByte ≠ escByte := by decide
@[simp] theorem escByte_ne_flagByte : escByte ≠ flagByte := by decide

theorem needsEscape_iff (B : List Bit) : needsEscape B = true ↔ B = flagByte ∨ B = escByte := by
  simp [needsEscape]

theorem escapeBytes_escape (n : Nat) (B : List Bit) (bs : List (List Bit)) (h : needsEscape B = true) :
    escapeBytes n (B :: bs) =
      (escByte ++ (B ++ (escapeBytes (n + 16) bs).1), n :: (escapeBytes (n + 16) bs).2) := by
  simp [escapeBytes, h]

theorem escapeBytes_copy (n : Nat) (B : List Bit) (bs : List (List Bit)) (h : needsEscape B = false) :
    escapeBytes n (B :: bs) = (B ++ (escapeBytes (n + 8) bs).1, (escapeBytes (n + 8) bs).2) := by
  simp [escapeBytes, h]

theorem escapeBytes_positions (n : Nat) (bs : List (List Bit)) :
    (∀ p ∈ (escapeBytes n bs).2, n ≤ p) ∧ positionsAscend (escapeBytes n bs).2 = true := by
  simp only [positionsAscend_iff]
  induction bs generalizing n with
  | nil => simp [escapeBytes]
  | cons B bs ih =>
    cases h : needsEscape B with
    | true =>
      rw [escapeBytes_escape n B bs h]
      refine ⟨fun p hp => ?_, List.pairwise_cons.mpr ⟨fun p hp => ?_, (ih (n + 16)).2⟩⟩
      · rcases List.mem_cons.mp hp with rfl | hp
        · exact le_refl _
        · have := (ih (n + 16)).1 p hp; omega
      · have := (ih (n + 16)).1 p hp; omega
    | false =>
      rw [escapeBytes_copy n B bs h]
      refine ⟨fun p hp => ?_, (ih (n + 8)).2⟩
      have := (ih (n + 8)).1 p hp
      omega

section
variable {α : Type} [DecidableEq α] (flag esc tail : List α)

theorem unescapeBytes_esc (D : List α) (bs : List (List α)) :
    unescapeBytes flag esc tail (esc :: D :: bs) =
      (D ++ (unescapeBytes flag esc tail bs).1, (unescapeBytes flag esc tail bs).2) := by
  rw [unescapeBytes.eq_def]
  simp

theorem unescapeBytes_flag (bs : List (List α)) (h : flag ≠ esc) :
    unescapeBytes flag esc tail (flag :: bs) = ([], decide (¬ (bs = [] ∧ tail = []))) := by
  rw [unescapeBytes.eq_def]
  simp [h]

theorem unescapeBytes_copy (B : List α) (bs : List (List α)) (he : B ≠ esc) (hf : B ≠ flag) :
    unescapeBytes flag esc tail (B :: bs) =
      (B ++ (unescapeBytes flag esc tail bs).1, (unescapeBytes flag esc tail bs).2) := by
  rw [unescapeBytes.eq_def]
  simp [he, hf]

/-- What the loop of R124 copies are some of its bytes. -/
theorem unescapeBytes_out (bs : List (List α)) :
    ∃ cs : List (List α), cs.Sublist bs ∧ (unescapeBytes flag esc tail bs).1 = cs.flatten := by
  induction h : bs.length using Nat.strong_induction_on generalizing bs with
  | _ n ih =>
    match bs, h with
    | [], _ => exact ⟨[], by simp, rfl⟩
    | B :: r, h =>
      by_cases he : B = esc
      · subst he
        match r, h with
        | [], _ => exact ⟨[], by simp, by simp [unescapeBytes]⟩
        | D :: r, h =>
          obtain ⟨cs, h1, h2⟩ := ih r.length (by simp only [← h, List.length_cons]; omega) r rfl
          exact ⟨D :: cs, (h1.cons_cons D).cons B, by simp [unescapeBytes_esc, h2]⟩
      · by_cases hf : B = flag
        · subst hf
          exact ⟨[], by simp, by simp [unescapeBytes_flag _ _ _ _ he]⟩
        · obtain ⟨cs, h1, h2⟩ := ih r.length (by simp [← h]) r rfl
          exact ⟨B :: cs, h1.cons_cons B, by simp [unescapeBytes_copy _ _ _ _ _ he hf, h2]⟩

/-- So are those of rule R124's algorithm. -/
theorem destuffByteScan_out (s : List α) :
    ∃ cs : List (List α), cs.Sublist (wholeBytes s) ∧ (destuffByteScan flag esc s).1 = cs.flatten := by
  unfold destuffByteScan
  split
  · exact ⟨[], by simp, rfl⟩
  · next B bs hw =>
    rw [hw]
    split
    · obtain ⟨cs, h1, h2⟩ := unescapeBytes_out flag esc (leftoverCells s) bs
      exact ⟨cs, h1.cons B, h2⟩
    · exact unescapeBytes_out flag esc (leftoverCells s) (B :: bs)

/-- The output of rule R124's algorithm is "always a multiple of 8 long" and no longer than its operand. -/
theorem destuffByteScan_length (s : List α) :
    (destuffByteScan flag esc s).1.length % 8 = 0 ∧ (destuffByteScan flag esc s).1.length ≤ s.length := by
  obtain ⟨cs, h, e⟩ := destuffByteScan_out flag esc s
  have hcs : cs.flatten.length = 8 * cs.length := by
    have : ∀ B ∈ cs, B.length = 8 := fun B hB => length_of_mem_wholeBytes s B (h.subset hB)
    clear h e
    induction cs with
    | nil => rfl
    | cons B cs ih =>
      rw [List.flatten_cons, List.length_append, ih fun B hB => this B (List.mem_cons_of_mem _ hB),
        this B List.mem_cons_self, List.length_cons]
      omega
  have hle := h.length_le
  rw [wholeBytes_length] at hle
  rw [e, hcs]
  omega

end

/-- The best-effort output under a parameter other than the default is whole bytes and keeps within `CAP` (R124, R52). -/
theorem otherOutput_length (cfg : Config) (s : List Symbol) :
    (otherOutput cfg s).length % 8 = 0 ∧
    ∀ c, cfg.cap = some c → s.length ≤ c → (otherOutput cfg s).length ≤ c := by
  have hb : boundedLength cfg.cap s.length (Config.otherBestEffort s).length ≤ (Config.otherBestEffort s).length ∧
      ∀ c, cfg.cap = some c → s.length ≤ c →
        boundedLength cfg.cap s.length (Config.otherBestEffort s).length ≤ c := by
    unfold boundedLength
    refine ⟨?_, fun c hc hs => ?_⟩
    · split
      · exact le_refl _
      · split <;> omega
    · simp [hc, hs]
  have hl : (otherOutput cfg s).length =
      8 * (boundedLength cfg.cap s.length (Config.otherBestEffort s).length / 8) := by
    simp only [otherOutput, List.length_take]
    omega
  refine ⟨by omega, fun c hc hs => ?_⟩
  have := hb.2 c hc hs
  omega

/-- An output that is within both bounds already is not cut. -/
theorem otherOutput_eq (cfg : Config) (s : List Symbol) (h8 : (Config.otherBestEffort s).length % 8 = 0)
    (hc : ∀ c, cfg.cap = some c → s.length ≤ c → (Config.otherBestEffort s).length ≤ c) :
    otherOutput cfg s = Config.otherBestEffort s := by
  have : boundedLength cfg.cap s.length (Config.otherBestEffort s).length = (Config.otherBestEffort s).length := by
    unfold boundedLength
    split
    · rfl
    · next c hcap =>
      split
      · next hs => exact Nat.min_eq_left (hc c hcap hs)
      · rfl
  simp only [otherOutput, this]
  exact List.take_of_length_le (by omega)

/-- Whatever the parameter, the output is the scan's or the other function's. -/
theorem bestEffortOutput_cases {α : Type} (cfg : Config) (r : List α × Bool) (other : List α) :
    (bestEffortOutput cfg r other).1 = r.1 ∨ (bestEffortOutput cfg r other).1 = other := by
  unfold bestEffortOutput
  split
  · exact .inl rfl
  · split
    · exact .inr rfl
    · exact .inl rfl

/-- Whatever the parameter, what `DESTUFF.BYTE` returns is whole bytes (R124) and, for an operand within `CAP`, within `CAP`
(R52). -/
theorem destuffBytes_length (cfg : Config) (s : List Bit) :
    (destuffBytes cfg s).1.length % 8 = 0 ∧
    ∀ c, cfg.cap = some c → s.length ≤ c → (destuffBytes cfg s).1.length ≤ c := by
  have hscan := destuffByteScan_length flagByte escByte s
  have hother := otherOutput_length cfg (asSymbols s)
  rcases bestEffortOutput_cases cfg (destuffByteScan flagByte escByte s) (otherOutput cfg (asSymbols s)) with h | h
  · rw [destuffBytes, h]
    exact ⟨hscan.1, fun c _ hs => hscan.2.trans hs⟩
  · rw [destuffBytes, h]
    exact ⟨hother.1, fun c hc hs => hother.2 c hc (by simpa [asSymbols] using hs)⟩

/-- The same of what finalization computes. -/
theorem destuffByteSymbols_length (cfg : Config) (s : List Symbol) :
    (destuffByteSymbols cfg s).1.length % 8 = 0 ∧
    ∀ c, cfg.cap = some c → s.length ≤ c → (destuffByteSymbols cfg s).1.length ≤ c := by
  have hscan := destuffByteScan_length (asSymbols flagByte) (asSymbols escByte) s
  have hother := otherOutput_length cfg s
  rcases bestEffortOutput_cases cfg (destuffByteScan (asSymbols flagByte) (asSymbols escByte) s)
    (asSymbols (otherOutput cfg s)) with h | h
  · rw [destuffByteSymbols, h]
    exact ⟨hscan.1, fun c _ hs => hscan.2.trans hs⟩
  · rw [destuffByteSymbols, h]
    simpa [asSymbols] using hother

/-- The framing's inverse of at most `CAP` symbols is at most `CAP` symbols (R52). -/
theorem deframe_length_le (cfg : Config) (f : Framing) (j : List Symbol) (c : Nat) (hc : cfg.cap = some c)
    (hj : j.length ≤ c) : (deframe cfg f j).1.length ≤ c := by
  cases f with
  | plain => exact hj
  | bit => exact (destuffScan_length_le _ _ j 0).trans hj
  | byte => exact (destuffByteSymbols_length cfg j).2 c hc hj

/-- A failed scan's flag is not a matter of the parameter `byteDestuffBestEffort` (D19). -/
@[simp] theorem bestEffortOutput_err {α : Type} (cfg : Config) (r : List α × Bool) (other : List α) :
    (bestEffortOutput cfg r other).2 = r.2 := by
  unfold bestEffortOutput
  split
  · rfl
  · split <;> rfl

/-- Nor is the output of a scan that succeeds. -/
theorem bestEffortOutput_ok {α : Type} (cfg : Config) (r : List α × Bool) (other : List α) (h : r.2 = false) :
    bestEffortOutput cfg r other = r := by
  unfold bestEffortOutput
  split
  · rfl
  · simp [h]

/-! ## The framed bitstring -/

/-- Framing never shortens: a non-empty payload gives a non-empty framed bitstring (R157). -/
theorem frame_ne_nil (f : Framing) (p : List Bit) (h : p ≠ []) : (frame f p).1 ≠ [] := by
  cases f with
  | plain => exact h
  | bit => exact stuffScan_ne_nil 0 0 p h
  | byte => simp [frame, stuffBytes, flagByte]

/-- The inserted positions are in canonical form. -/
theorem frame_positionsAscend (f : Framing) (p : List Bit) : positionsAscend (frame f p).2 = true := by
  cases f with
  | plain => rfl
  | bit => exact (stuffScan_positions 0 0 p).2
  | byte => exact (escapeBytes_positions 8 (wholeBytes p)).2

end Sys2Proof.Machine
end

