-- ==== Sys2Proof/Laws/LineCode.lean ====
section
/-! SUPPORT. One bit through a line code (spec/43_line_encoder.md R136, spec/44_line_decoder.md R145, R146). -/

namespace Sys2Proof.Machine

@[simp] theorem lastLevel_nil (l : Level) : lastLevel l [] = l := rfl
@[simp] theorem lastLevel_one (l : Level) (p : SignalPoint) : lastLevel l [p] = p.level := rfl
@[simp] theorem lastLevel_two (l : Level) (p q : SignalPoint) : lastLevel l [p, q] = q.level := rfl

/-- The encoder's points of one bit decode to the bit, and the decoder's level follows the encoder's. -/
theorem decodeLine_encodeLine (cfg : Config) (lc : LineCode) (b : Bit) (i : Nat) (l : Level) :
    decodeLine cfg lc i l (encodeLine cfg lc b i l).1 = some (.bit b, (encodeLine cfg lc b i l).2) := by
  cases lc with
  | nrzl =>
    cases b <;> simp [decodeLine, encodeLine, decodeNrzl, encodeNrzl, nrzlLevel, pointAt]
  | nrzi =>
    cases b <;> simp [decodeLine, encodeLine, decodeNrzi, encodeNrzi, pointAt]
  | man =>
    cases b <;> simp [decodeLine, encodeLine, decodeMan, encodeMan, validPair, pointAt, pointHalf]
  | dman =>
    cases b <;> simp [decodeLine, encodeLine, decodeDman, encodeDman, validPair, pointAt, pointHalf]

/-- R145: under NRZ-I and Differential Manchester the carried level is that of the interval's last point. -/
theorem lastLevel_encodeLine (cfg : Config) (lc : LineCode) (b : Bit) (i : Nat) (l m : Level)
    (h : lc = .nrzi ∨ lc = .dman) :
    lastLevel m (encodeLine cfg lc b i l).1 = (encodeLine cfg lc b i l).2 := by
  rcases h with rfl | rfl <;> cases b <;> simp [encodeLine, encodeNrzi, encodeDman, pointAt, pointHalf]

/-- Under NRZ-L and Manchester the carried level never changes (R26). -/
theorem encodeLine_level (cfg : Config) (lc : LineCode) (b : Bit) (i : Nat) (l : Level)
    (h : lc = .nrzl ∨ lc = .man) : (encodeLine cfg lc b i l).2 = l := by
  rcases h with rfl | rfl <;> cases b <;> simp [encodeLine, encodeNrzl, encodeMan]

/-- R136 (a): NRZ-L and NRZ-I emit one point, at the bit's time. -/
theorem encodeLine_t2_single (cfg : Config) (lc : LineCode) (b : Bit) (i : Nat) (l : Level)
    (h : lc = .nrzl ∨ lc = .nrzi) : (encodeLine cfg lc b i l).1.map SignalPoint.t2 = [2 * i] := by
  rcases h with rfl | rfl <;> cases b <;> simp [encodeLine, encodeNrzl, encodeNrzi, pointAt]

/-- R136 (b): Manchester and Differential Manchester emit two points, at the bit's time and half a bit later. -/
theorem encodeLine_t2_pair (cfg : Config) (lc : LineCode) (b : Bit) (i : Nat) (l : Level)
    (h : lc = .man ∨ lc = .dman) : (encodeLine cfg lc b i l).1.map SignalPoint.t2 = [2 * i, 2 * i + 1] := by
  rcases h with rfl | rfl <;> cases b <;> simp [encodeLine, encodeMan, encodeDman, pointAt, pointHalf]

theorem encodeLine_ne_nil (cfg : Config) (lc : LineCode) (b : Bit) (i : Nat) (l : Level) :
    (encodeLine cfg lc b i l).1 ≠ [] := by
  cases lc <;> cases b <;> simp [encodeLine, encodeNrzl, encodeNrzi, encodeMan, encodeDman]

end Sys2Proof.Machine
end

