-- ==== Sys2Proof/Laws/State.lean ====
section
/-! SUPPORT. The fields of the named updates of State: one lemma per field per update, true by rfl. -/

namespace Sys2Proof.Machine

/-! ## finalize -/

@[simp] theorem finalize_config (t : Technique) (s : State) : (finalize t s).config = s.config := rfl
@[simp] theorem finalize_fsm (t : Technique) (s : State) : (finalize t s).fsm = s.fsm := rfl
@[simp] theorem finalize_tech (t : Technique) (s : State) : (finalize t s).tech = s.tech := rfl
@[simp] theorem finalize_kind (t : Technique) (s : State) : (finalize t s).kind = s.kind := rfl
@[simp] theorem finalize_origData (t : Technique) (s : State) : (finalize t s).origData = s.origData := rfl
@[simp] theorem finalize_processedData (t : Technique) (s : State) :
    (finalize t s).processedData = s.processedData := rfl
@[simp] theorem finalize_insertedPositions (t : Technique) (s : State) :
    (finalize t s).insertedPositions = s.insertedPositions := rfl
@[simp] theorem finalize_position (t : Technique) (s : State) : (finalize t s).position = s.position := rfl
@[simp] theorem finalize_encLevel (t : Technique) (s : State) : (finalize t s).encLevel = s.encLevel := rfl
@[simp] theorem finalize_decLevel (t : Technique) (s : State) : (finalize t s).decLevel = s.decLevel := rfl
@[simp] theorem finalize_pendingErrorInjection (t : Technique) (s : State) :
    (finalize t s).pendingErrorInjection = s.pendingErrorInjection := rfl
@[simp] theorem finalize_signalLog (t : Technique) (s : State) : (finalize t s).signalLog = s.signalLog := rfl
@[simp] theorem finalize_decodedBits (t : Technique) (s : State) : (finalize t s).decodedBits = s.decodedBits := rfl
@[simp] theorem finalize_errorPositions (t : Technique) (s : State) :
    (finalize t s).errorPositions = s.errorPositions := rfl
@[simp] theorem finalize_stepOut (t : Technique) (s : State) : (finalize t s).stepOut = s.stepOut := rfl
@[simp] theorem finalize_finalBits (t : Technique) (s : State) :
    (finalize t s).finalBits = (deframe s.config (framingOf t) s.decodedBits).1 := rfl
@[simp] theorem finalize_frameError (t : Technique) (s : State) :
    (finalize t s).frameError = (deframe s.config (framingOf t) s.decodedBits).2 := rfl
@[simp] theorem finalize_verdict (t : Technique) (s : State) :
    (finalize t s).verdict = verdictOf s.kind (framingOf t) (deframe s.config (framingOf t) s.decodedBits).1 s.origData := rfl
@[simp] theorem finalize_status (t : Technique) (s : State) : (finalize t s).status = s.status := rfl
@[simp] theorem finalize_result (t : Technique) (s : State) : (finalize t s).result = s.result := rfl
@[simp] theorem finalize_port (t : Technique) (s : State) : (finalize t s).port = s.port := rfl

/-! ## beginSession -/

@[simp] theorem beginSession_config (t : Technique) (k : Kind) (p : List Bit) (s : State) :
    (beginSession t k p s).config = s.config := rfl
@[simp] theorem beginSession_fsm (t : Technique) (k : Kind) (p : List Bit) (s : State) :
    (beginSession t k p s).fsm = .running := rfl
@[simp] theorem beginSession_tech (t : Technique) (k : Kind) (p : List Bit) (s : State) :
    (beginSession t k p s).tech = some t := rfl
@[simp] theorem beginSession_kind (t : Technique) (k : Kind) (p : List Bit) (s : State) :
    (beginSession t k p s).kind = some k := rfl
@[simp] theorem beginSession_origData (t : Technique) (k : Kind) (p : List Bit) (s : State) :
    (beginSession t k p s).origData = p := rfl
@[simp] theorem beginSession_processedData (t : Technique) (k : Kind) (p : List Bit) (s : State) :
    (beginSession t k p s).processedData = (frame (framingOf t) p).1 := rfl
@[simp] theorem beginSession_insertedPositions (t : Technique) (k : Kind) (p : List Bit) (s : State) :
    (beginSession t k p s).insertedPositions = (frame (framingOf t) p).2 := rfl
@[simp] theorem beginSession_position (t : Technique) (k : Kind) (p : List Bit) (s : State) :
    (beginSession t k p s).position = 0 := rfl
@[simp] theorem beginSession_encLevel (t : Technique) (k : Kind) (p : List Bit) (s : State) :
    (beginSession t k p s).encLevel = initLevel s.config (lineCodeOf t) := rfl
@[simp] theorem beginSession_decLevel (t : Technique) (k : Kind) (p : List Bit) (s : State) :
    (beginSession t k p s).decLevel = initLevel s.config (lineCodeOf t) := rfl
@[simp] theorem beginSession_pendingErrorInjection (t : Technique) (k : Kind) (p : List Bit) (s : State) :
    (beginSession t k p s).pendingErrorInjection = false := rfl
@[simp] theorem beginSession_signalLog (t : Technique) (k : Kind) (p : List Bit) (s : State) :
    (beginSession t k p s).signalLog = [] := rfl
@[simp] theorem beginSession_decodedBits (t : Technique) (k : Kind) (p : List Bit) (s : State) :
    (beginSession t k p s).decodedBits = [] := rfl
@[simp] theorem beginSession_errorPositions (t : Technique) (k : Kind) (p : List Bit) (s : State) :
    (beginSession t k p s).errorPositions = [] := rfl
@[simp] theorem beginSession_stepOut (t : Technique) (k : Kind) (p : List Bit) (s : State) :
    (beginSession t k p s).stepOut = StepOut.reset := rfl
@[simp] theorem beginSession_finalBits (t : Technique) (k : Kind) (p : List Bit) (s : State) :
    (beginSession t k p s).finalBits = [] := rfl
@[simp] theorem beginSession_frameError (t : Technique) (k : Kind) (p : List Bit) (s : State) :
    (beginSession t k p s).frameError = false := rfl
@[simp] theorem beginSession_verdict (t : Technique) (k : Kind) (p : List Bit) (s : State) :
    (beginSession t k p s).verdict = .none := rfl
@[simp] theorem beginSession_status (t : Technique) (k : Kind) (p : List Bit) (s : State) :
    (beginSession t k p s).status = s.status := rfl
@[simp] theorem beginSession_result (t : Technique) (k : Kind) (p : List Bit) (s : State) :
    (beginSession t k p s).result = s.result := rfl
@[simp] theorem beginSession_port (t : Technique) (k : Kind) (p : List Bit) (s : State) :
    (beginSession t k p s).port = s.port := rfl

/-! ## bitStep -/

@[simp] theorem bitStep_config (t : Technique) (b : Bit) (s : State) : (bitStep t b s).config = s.config := rfl
@[simp] theorem bitStep_fsm (t : Technique) (b : Bit) (s : State) : (bitStep t b s).fsm = s.fsm := rfl
@[simp] theorem bitStep_tech (t : Technique) (b : Bit) (s : State) : (bitStep t b s).tech = s.tech := rfl
@[simp] theorem bitStep_kind (t : Technique) (b : Bit) (s : State) : (bitStep t b s).kind = s.kind := rfl
@[simp] theorem bitStep_origData (t : Technique) (b : Bit) (s : State) : (bitStep t b s).origData = s.origData := rfl
@[simp] theorem bitStep_processedData (t : Technique) (b : Bit) (s : State) :
    (bitStep t b s).processedData = s.processedData := rfl
@[simp] theorem bitStep_insertedPositions (t : Technique) (b : Bit) (s : State) :
    (bitStep t b s).insertedPositions = s.insertedPositions := rfl
@[simp] theorem bitStep_position (t : Technique) (b : Bit) (s : State) :
    (bitStep t b s).position = s.position + 1 := rfl
@[simp] theorem bitStep_encLevel (t : Technique) (b : Bit) (s : State) :
    (bitStep t b s).encLevel = (stepEncoded t b s).2 := rfl
@[simp] theorem bitStep_decLevel (t : Technique) (b : Bit) (s : State) :
    (bitStep t b s).decLevel = (stepDecoded t b s).decLevel := rfl
@[simp] theorem bitStep_pendingErrorInjection (t : Technique) (b : Bit) (s : State) :
    (bitStep t b s).pendingErrorInjection = false := rfl
@[simp] theorem bitStep_signalLog (t : Technique) (b : Bit) (s : State) :
    (bitStep t b s).signalLog = s.signalLog ++ (stepEncoded t b s).1 := rfl
@[simp] theorem bitStep_decodedBits (t : Technique) (b : Bit) (s : State) :
    (bitStep t b s).decodedBits = s.decodedBits ++ [(stepDecoded t b s).y] := rfl
@[simp] theorem bitStep_errorPositions (t : Technique) (b : Bit) (s : State) :
    (bitStep t b s).errorPositions = recordError (stepDecoded t b s).error s.position s.errorPositions := rfl
@[simp] theorem bitStep_stepOut (t : Technique) (b : Bit) (s : State) :
    (bitStep t b s).stepOut = ⟨true, s.position, b, (stepEncoded t b s).1, (stepDecoded t b s).y, (stepDecoded t b s).error⟩ := rfl
@[simp] theorem bitStep_finalBits (t : Technique) (b : Bit) (s : State) : (bitStep t b s).finalBits = s.finalBits := rfl
@[simp] theorem bitStep_frameError (t : Technique) (b : Bit) (s : State) :
    (bitStep t b s).frameError = s.frameError := rfl
@[simp] theorem bitStep_verdict (t : Technique) (b : Bit) (s : State) : (bitStep t b s).verdict = s.verdict := rfl
@[simp] theorem bitStep_status (t : Technique) (b : Bit) (s : State) : (bitStep t b s).status = s.status := rfl
@[simp] theorem bitStep_result (t : Technique) (b : Bit) (s : State) : (bitStep t b s).result = s.result := rfl
@[simp] theorem bitStep_port (t : Technique) (b : Bit) (s : State) : (bitStep t b s).port = s.port := rfl

/-! ## completeIfDone: what it leaves alone whether or not the session is done -/

@[simp] theorem completeIfDone_config (t : Technique) (s : State) : (completeIfDone t s).config = s.config := by
  unfold completeIfDone; split <;> rfl
@[simp] theorem completeIfDone_tech (t : Technique) (s : State) : (completeIfDone t s).tech = s.tech := by
  unfold completeIfDone; split <;> rfl
@[simp] theorem completeIfDone_kind (t : Technique) (s : State) : (completeIfDone t s).kind = s.kind := by
  unfold completeIfDone; split <;> rfl
@[simp] theorem completeIfDone_origData (t : Technique) (s : State) : (completeIfDone t s).origData = s.origData := by
  unfold completeIfDone; split <;> rfl
@[simp] theorem completeIfDone_processedData (t : Technique) (s : State) :
    (completeIfDone t s).processedData = s.processedData := by
  unfold completeIfDone; split <;> rfl
@[simp] theorem completeIfDone_insertedPositions (t : Technique) (s : State) :
    (completeIfDone t s).insertedPositions = s.insertedPositions := by
  unfold completeIfDone; split <;> rfl
@[simp] theorem completeIfDone_position (t : Technique) (s : State) : (completeIfDone t s).position = s.position := by
  unfold completeIfDone; split <;> rfl
@[simp] theorem completeIfDone_encLevel (t : Technique) (s : State) : (completeIfDone t s).encLevel = s.encLevel := by
  unfold completeIfDone; split <;> rfl
@[simp] theorem completeIfDone_decLevel (t : Technique) (s : State) : (completeIfDone t s).decLevel = s.decLevel := by
  unfold completeIfDone; split <;> rfl
@[simp] theorem completeIfDone_pendingErrorInjection (t : Technique) (s : State) :
    (completeIfDone t s).pendingErrorInjection = s.pendingErrorInjection := by
  unfold completeIfDone; split <;> rfl
@[simp] theorem completeIfDone_signalLog (t : Technique) (s : State) :
    (completeIfDone t s).signalLog = s.signalLog := by
  unfold completeIfDone; split <;> rfl
@[simp] theorem completeIfDone_decodedBits (t : Technique) (s : State) :
    (completeIfDone t s).decodedBits = s.decodedBits := by
  unfold completeIfDone; split <;> rfl
@[simp] theorem completeIfDone_errorPositions (t : Technique) (s : State) :
    (completeIfDone t s).errorPositions = s.errorPositions := by
  unfold completeIfDone; split <;> rfl
@[simp] theorem completeIfDone_stepOut (t : Technique) (s : State) : (completeIfDone t s).stepOut = s.stepOut := by
  unfold completeIfDone; split <;> rfl
@[simp] theorem completeIfDone_status (t : Technique) (s : State) : (completeIfDone t s).status = s.status := by
  unfold completeIfDone; split <;> rfl
@[simp] theorem completeIfDone_result (t : Technique) (s : State) : (completeIfDone t s).result = s.result := by
  unfold completeIfDone; split <;> rfl
@[simp] theorem completeIfDone_port (t : Technique) (s : State) : (completeIfDone t s).port = s.port := by
  unfold completeIfDone; split <;> rfl

theorem completeIfDone_fsm (t : Technique) (s : State) :
    (completeIfDone t s).fsm = if s.position = s.processedData.length then .completed else s.fsm := by
  unfold completeIfDone; split <;> rfl

theorem completeIfDone_done (t : Technique) (s : State) (h : s.position = s.processedData.length) :
    completeIfDone t s = finalize t { s with fsm := .completed } := if_pos h

theorem completeIfDone_notDone (t : Technique) (s : State) (h : s.position ≠ s.processedData.length) :
    completeIfDone t s = s := if_neg h

end Sys2Proof.Machine
end

