-- ==== Sys2Proof/Laws/Exec.lean ====
section
/-! SUPPORT. What the shared session operations and the step can answer: one lemma each, which later proofs cite instead of
unfolding them. -/

namespace Sys2Proof.Machine

/-! ## START -/

/-- The state an accepted `START` leaves (R156): the straight-to-`Completed` branch is dead (R157). -/
theorem startSession_accepted (t : Technique) (k : Kind) (p : List Bit) (s : State) (hi : s.fsm = .idle)
    (hv : startValid s.config (framingOf t) p = true) :
    startSession t k p s = .next { beginSession t k p s with status := .ok, result := none } := by
  have hp : p ≠ [] := by
    rintro rfl
    simp [startValid] at hv
  have : completeIfEmpty t (beginSession t k p s) = beginSession t k p s :=
    if_neg (frame_ne_nil (framingOf t) p hp)
  simp [startSession, hi, hv, this, finishSession]

/-- `START` outside `Idle` (R196). -/
theorem startSession_wrongState (t : Technique) (k : Kind) (p : List Bit) (s : State) (hi : s.fsm ≠ .idle) :
    startSession t k p s = .next { s with status := .illegalState } := if_pos hi

/-- `START` in `Idle` of operands its tests refuse (R191). -/
theorem startSession_invalid (t : Technique) (k : Kind) (p : List Bit) (s : State) (hi : s.fsm = .idle)
    (hv : startValid s.config (framingOf t) p = false) :
    startSession t k p s = .next { s with status := .validationError } := by
  unfold startSession
  rw [if_neg (not_not.mpr hi), hv]
  rfl

/-- Everything `START` can answer (R156, R196, R191). -/
theorem startSession_cases {t : Technique} {k : Kind} {p : List Bit} {s u : State}
    (h : startSession t k p s = .next u) :
    (s.fsm ≠ .idle ∧ u = { s with status := .illegalState }) ∨
    (s.fsm = .idle ∧ startValid s.config (framingOf t) p = false ∧ u = { s with status := .validationError }) ∨
    (s.fsm = .idle ∧ startValid s.config (framingOf t) p = true ∧
      u = { beginSession t k p s with status := .ok, result := none }) := by
  by_cases hi : s.fsm = .idle
  · cases hv : startValid s.config (framingOf t) p with
    | true =>
      rw [startSession_accepted t k p s hi hv] at h
      exact .inr (.inr ⟨hi, rfl, (Host.Outcome.next.inj h).symm⟩)
    | false =>
      rw [startSession_invalid t k p s hi hv] at h
      exact .inr (.inl ⟨hi, rfl, (Host.Outcome.next.inj h).symm⟩)
  · rw [startSession_wrongState t k p s hi] at h
    exact .inl ⟨hi, (Host.Outcome.next.inj h).symm⟩

/-- The tests of `START` (R153, R155, R154). -/
theorem startValid_iff (cfg : Config) (f : Framing) (p : List Bit) :
    startValid cfg f p = true ↔
      p ≠ [] ∧ (f = .byte → p.length % 8 = 0) ∧ ∀ c, cfg.cap = some c → (frame f p).1.length ≤ c := by
  have hcap : fitsCap cfg (frame f p).1.length = true ↔ ∀ c, cfg.cap = some c → (frame f p).1.length ≤ c := by
    unfold fitsCap
    split <;> simp_all
  simp only [startValid, Bool.and_eq_true, hcap, Bool.or_eq_true, byteAligned, decide_eq_true_eq, and_assoc]
  refine and_congr ?_ (and_congr ?_ Iff.rfl)
  · cases p <;> simp
  · tauto

/-- Each `START` row runs `startSession` of its technique (R158). -/
theorem exec_startInstr (t : Technique) (k : Kind) (p : List Bit) (s : State) :
    exec (startInstr t k p) s = startSession t k p s := by
  cases t <;> rfl

/-! ## TICK -/

/-- `TICK` on the bit at `position` (R160). -/
theorem execTick_running (s : State) (t : Technique) (b : Bit) (hr : s.fsm = .running) (ht : s.tech = some t)
    (hb : s.processedData[s.position]? = some b) :
    execTick s = .next { completeIfDone t (bitStep t b s) with status := .ok, result := none } := by
  simp [execTick, hr, ht, hb, finishSession]

/-- `TICK` outside `Running` (R168). -/
theorem execTick_wrongState (s : State) (h : s.fsm ≠ .running) :
    execTick s = .next { s with status := .illegalState } := if_neg h

/-- Everything `TICK` can answer with a next state (R160, R168). -/
theorem execTick_cases {s u : State} (h : execTick s = .next u) :
    (s.fsm ≠ .running ∧ u = { s with status := .illegalState }) ∨
    (∃ t b, s.fsm = .running ∧ s.tech = some t ∧ s.processedData[s.position]? = some b ∧
      u = { completeIfDone t (bitStep t b s) with status := .ok, result := none }) := by
  by_cases hr : s.fsm = .running
  · cases ht : s.tech with
    | none => simp [execTick, hr, ht] at h
    | some t =>
      cases hb : s.processedData[s.position]? with
      | none => simp [execTick, hr, ht, hb] at h
      | some b =>
        rw [execTick_running s t b hr ht hb] at h
        exact .inr ⟨t, b, hr, rfl, rfl, (Host.Outcome.next.inj h).symm⟩
  · rw [execTick_wrongState s hr] at h
    exact .inl ⟨hr, (Host.Outcome.next.inj h).symm⟩

/-- The decoding half without an injection: the symbol is whatever the decoder makes of the points (R163). -/
theorem stepDecoded_plain (t : Technique) (b : Bit) (s : State) (h : s.pendingErrorInjection = false) :
    stepDecoded t b s =
      plainDecode s.config (lineCodeOf t) s.position s.decLevel (stepEncoded t b s).1 := by
  simp [stepDecoded, stepDecode, h]

/-- The decoding half with an injection (R162). -/
theorem stepDecoded_injected (t : Technique) (b : Bit) (s : State) (h : s.pendingErrorInjection = true) :
    stepDecoded t b s = injectedDecode (lineCodeOf t) b s.decLevel (stepEncoded t b s).1 := by
  simp [stepDecoded, stepDecode, h]

/-! ## The decoders' refusals -/

/-- Everything a decoder command can answer (R84, R140). -/
theorem finishDecode_cases (r : Option (Symbol × Level)) (s : State) :
    (r = none ∧ finishDecode r s = .next { s with status := .illegalCommand }) ∨
    (∃ y l, r = some (y, l) ∧ finishDecode r s = .next { s with status := .ok, result := some (.decoded y l) }) := by
  cases r with
  | none => exact .inl ⟨rfl, rfl⟩
  | some v => exact .inr ⟨v.1, v.2, rfl, rfl⟩

/-! ## The step -/

theorem step_nil (s : State) (h : s.port = []) : step s = .next s := by
  simp [step, takeCommand, h]

theorem step_cons (s : State) (tx : Transaction) (rest : List Transaction) (h : s.port = tx :: rest) :
    step s = runTransaction tx { s with port := rest } := by
  simp [step, takeCommand, h]

/-- Everything a step can answer with a next state. -/
theorem step_cases {s u : State} (h : step s = .next u) :
    (s.port = [] ∧ u = s) ∨
    (∃ tx rest e, s.port = tx :: rest ∧ decode tx = .error e ∧
      u = { s with port := rest, status := .illegalCommand }) ∨
    (∃ tx rest i, s.port = tx :: rest ∧ decode tx = .ok i ∧ exec i { s with port := rest } = .next u) := by
  cases hp : s.port with
  | nil =>
    rw [step_nil s hp] at h
    exact .inl ⟨rfl, by simpa using h.symm⟩
  | cons tx rest =>
    rw [step_cons s tx rest hp, runTransaction] at h
    cases hd : decode tx with
    | ok i => exact .inr (.inr ⟨tx, rest, i, rfl, hd, by simpa [hd] using h⟩)
    | error e => exact .inr (.inl ⟨tx, rest, e, rfl, hd, by simpa [hd, raise] using h.symm⟩)

end Sys2Proof.Machine
end

