-- ==== Sys2Proof/Laws/Memory.lean ====
section
/-! SUPPORT. Every operation that writes a set of positions keeps its canonical form, and reset has it (log entry 12). -/

namespace Sys2Proof.Machine

theorem memory_wf_iff (s : State) :
    Memory.wf s = true ↔ positionsAscend s.insertedPositions = true ∧ positionsAscend s.errorPositions = true := by
  simp [Memory.wf]

theorem memory_wf_reset : Memory.wf State.reset = true := rfl

/-- `START` writes the framer's positions and an empty set of errors. -/
theorem memory_wf_beginSession (t : Technique) (k : Kind) (p : List Bit) (s : State) :
    Memory.wf (beginSession t k p s) = true := by
  rw [memory_wf_iff]
  exact ⟨frame_positionsAscend (framingOf t) p, rfl⟩

/-- A bit-step records at most its own position. -/
theorem memory_wf_bitStep (t : Technique) (b : Bit) (s : State) (h : Memory.wf s = true) :
    Memory.wf (bitStep t b s) = true := by
  rw [memory_wf_iff] at *
  exact ⟨h.1, positionsAscend_recordError _ _ _ h.2⟩

/-- Completion writes no set of positions. -/
theorem memory_wf_completeIfDone (t : Technique) (s : State) (h : Memory.wf s = true) :
    Memory.wf (completeIfDone t s) = true := by
  rw [memory_wf_iff] at *
  simpa using h

end Sys2Proof.Machine
end

