-- ==== Sys2Proof/Laws/Inversion.lean ====
section
/-! SUPPORT. What each class of commands can answer, and, said once, everything any command can answer: the proofs over
all commands cite `exec_cases` instead of unfolding `exec`. -/

namespace Sys2Proof.Machine

open Sys2Proof.Safety

/-- Everything a unit operation can answer: its results, or `IllegalCommand` (R70, R84). -/
theorem exec_unit (s : State) (i : Instr) (h : isUnit i = true) :
    (∃ r, exec i s = .next (unitDone r s)) ∨ exec i s = .next (refusedWith .illegalCommand s) := by
  cases i <;> simp [isUnit] at h
  case encNrzl => exact .inl ⟨_, rfl⟩
  case encNrzi => exact .inl ⟨_, rfl⟩
  case encMan => exact .inl ⟨_, rfl⟩
  case encDman => exact .inl ⟨_, rfl⟩
  case stuffBit => exact .inl ⟨_, rfl⟩
  case destuffBit => exact .inl ⟨_, rfl⟩
  case destuffByte => exact .inl ⟨_, rfl⟩
  case stuffByte x =>
    by_cases h : byteAligned x = true
    · exact .inl ⟨_, if_pos h⟩
    · exact .inr (if_neg h)
  case decNrzl i l pts =>
    rcases finishDecode_cases (withPoints pts (decodeNrzl s.config i l pts)) s with ⟨_, h⟩ | ⟨y, m, _, h⟩
    · exact .inr h
    · exact .inl ⟨_, h⟩
  case decNrzi i l pts =>
    rcases finishDecode_cases (withPoints pts (decodeNrzi i l pts)) s with ⟨_, h⟩ | ⟨y, m, _, h⟩
    · exact .inr h
    · exact .inl ⟨_, h⟩
  case decMan i l pts =>
    rcases finishDecode_cases (withPoints pts (some (decodeMan i l pts))) s with ⟨_, h⟩ | ⟨y, m, _, h⟩
    · exact .inr h
    · exact .inl ⟨_, h⟩
  case decDman i l pts =>
    rcases finishDecode_cases (withPoints pts (some (decodeDman i l pts))) s with ⟨_, h⟩ | ⟨y, m, _, h⟩
    · exact .inr h
    · exact .inl ⟨_, h⟩

/-- The `START` rows are `startInstr` of a technique (R158). -/
theorem start_of_isStart (i : Instr) (h : isStart i = true) : ∃ t k p, i = startInstr t k p := by
  cases i <;> simp [isStart] at h
  case startNrzl k p => exact ⟨.nrzl, k, p, rfl⟩
  case startNrzi k p => exact ⟨.nrzi, k, p, rfl⟩
  case startMan k p => exact ⟨.manchester, k, p, rfl⟩
  case startDman k p => exact ⟨.diffmanchester, k, p, rfl⟩
  case startBitstuff k p => exact ⟨.bitstuff, k, p, rfl⟩
  case startBytestuff k p => exact ⟨.bytestuff, k, p, rfl⟩

/-- `ARM` (R165). -/
theorem exec_arm (s : State) : exec .arm s =
    if s.fsm = .running then .next { s with pendingErrorInjection := true, status := .ok, result := none }
    else .next { s with status := .illegalState } := by
  simp only [exec, execArm, finishSession, raise]
/-- `PAUSE` (R166). -/
theorem exec_pause (s : State) : exec .pause s =
    if s.fsm = .running then .next { s with fsm := .paused, status := .ok, result := none }
    else .next { s with status := .illegalState } := by
  simp only [exec, execPause, finishSession, raise]
/-- `RESUME` (R167). -/
theorem exec_resume (s : State) : exec .resume s =
    if s.fsm = .paused then .next { s with fsm := .running, status := .ok, result := none }
    else .next { s with status := .illegalState } := by
  simp only [exec, execResume, finishSession, raise]

/-- Everything a command can answer with a next state: a refusal, a unit operation's results, or the writes of its own rule
(R150, R156, R159, R160, R165 to R167). -/
theorem exec_cases {i : Instr} {s u : State} (h : exec i s = .next u) :
    (∃ k, u = refusedWith k s) ∨ (isUnit i = true ∧ ∃ r, u = unitDone r s) ∨
    (i = .reset ∧ u = { State.reset with config := s.config, port := s.port }) ∨
    (∃ t k p, i = startInstr t k p ∧ s.fsm = .idle ∧ startValid s.config (framingOf t) p = true ∧
      u = { beginSession t k p s with status := .ok, result := none }) ∨
    (i = .tick ∧ ∃ t b, s.fsm = .running ∧ s.tech = some t ∧ s.processedData[s.position]? = some b ∧
      u = { completeIfDone t (bitStep t b s) with status := .ok, result := none }) ∨
    (i = .arm ∧ s.fsm = .running ∧ u = { s with pendingErrorInjection := true, status := .ok, result := none }) ∨
    (i = .pause ∧ s.fsm = .running ∧ u = { s with fsm := .paused, status := .ok, result := none }) ∨
    (i = .resume ∧ s.fsm = .paused ∧ u = { s with fsm := .running, status := .ok, result := none }) := by
  by_cases hu : isUnit i = true
  · rcases exec_unit s i hu with ⟨r, e⟩ | e
    · rw [e] at h; exact .inr (.inl ⟨hu, r, (Host.Outcome.next.inj h).symm⟩)
    · rw [e] at h; exact .inl ⟨_, (Host.Outcome.next.inj h).symm⟩
  · by_cases hs : isStart i = true
    · obtain ⟨t, k, p, rfl⟩ := start_of_isStart i hs
      rw [exec_startInstr] at h
      rcases startSession_cases h with ⟨_, h⟩ | ⟨_, _, h⟩ | ⟨a, b, h⟩
      · exact .inl ⟨_, h⟩
      · exact .inl ⟨_, h⟩
      · exact .inr (.inr (.inr (.inl ⟨t, k, p, rfl, a, b, h⟩)))
    · cases i <;> simp [isUnit, isStart] at hu hs
      case reset => exact .inr (.inr (.inl ⟨rfl, (Host.Outcome.next.inj h).symm⟩))
      case tick =>
        rcases execTick_cases h with ⟨_, h⟩ | ⟨t, b, h⟩
        · exact .inl ⟨_, h⟩
        · exact .inr (.inr (.inr (.inr (.inl ⟨rfl, t, b, h⟩))))
      case arm =>
        rw [exec_arm] at h
        split at h
        · next hr => exact .inr (.inr (.inr (.inr (.inr (.inl ⟨rfl, hr, (Host.Outcome.next.inj h).symm⟩)))))
        · exact .inl ⟨_, (Host.Outcome.next.inj h).symm⟩
      case pause =>
        rw [exec_pause] at h
        split at h
        · next hr => exact .inr (.inr (.inr (.inr (.inr (.inr (.inl ⟨rfl, hr, (Host.Outcome.next.inj h).symm⟩))))))
        · exact .inl ⟨_, (Host.Outcome.next.inj h).symm⟩
      case resume =>
        rw [exec_resume] at h
        split at h
        · next hr => exact .inr (.inr (.inr (.inr (.inr (.inr (.inr ⟨rfl, hr, (Host.Outcome.next.inj h).symm⟩))))))
        · exact .inl ⟨_, (Host.Outcome.next.inj h).symm⟩

end Sys2Proof.Machine
end

