-- ==== Sys2Proof/Laws/PerInstr.lean ====
section
/-! SUPPORT. Statements about every instruction as syntax, one lemma per constructor. -/

namespace Sys2Proof.Laws.WordNamed

/-- The command word the encoder writes for an instruction names that instruction's row (R72, R73, R85). -/
def Statement (i : Instr) : Prop := decodeOpcode (encode i).cw = some i.opcode

theorem reset : Statement .reset := decodeOpcode_encodeOpcode _
theorem startNrzl (k : Kind) (p : List Bit) : Statement (.startNrzl k p) := decodeOpcode_encodeOpcode _
theorem startNrzi (k : Kind) (p : List Bit) : Statement (.startNrzi k p) := decodeOpcode_encodeOpcode _
theorem startMan (k : Kind) (p : List Bit) : Statement (.startMan k p) := decodeOpcode_encodeOpcode _
theorem startDman (k : Kind) (p : List Bit) : Statement (.startDman k p) := decodeOpcode_encodeOpcode _
theorem startBitstuff (k : Kind) (p : List Bit) : Statement (.startBitstuff k p) := decodeOpcode_encodeOpcode _
theorem startBytestuff (k : Kind) (p : List Bit) : Statement (.startBytestuff k p) := decodeOpcode_encodeOpcode _
theorem tick : Statement .tick := decodeOpcode_encodeOpcode _
theorem arm : Statement .arm := decodeOpcode_encodeOpcode _
theorem pause : Statement .pause := decodeOpcode_encodeOpcode _
theorem resume : Statement .resume := decodeOpcode_encodeOpcode _
theorem encNrzl (b : Bit) (i : Nat) (s : Level) : Statement (.encNrzl b i s) := decodeOpcode_encodeOpcode _
theorem encNrzi (b : Bit) (i : Nat) (s : Level) : Statement (.encNrzi b i s) := decodeOpcode_encodeOpcode _
theorem encMan (b : Bit) (i : Nat) (s : Level) : Statement (.encMan b i s) := decodeOpcode_encodeOpcode _
theorem encDman (b : Bit) (i : Nat) (s : Level) : Statement (.encDman b i s) := decodeOpcode_encodeOpcode _
theorem decNrzl (i : Nat) (s : Level) (pts : List SignalPoint) : Statement (.decNrzl i s pts) := decodeOpcode_encodeOpcode _
theorem decNrzi (i : Nat) (s : Level) (pts : List SignalPoint) : Statement (.decNrzi i s pts) := decodeOpcode_encodeOpcode _
theorem decMan (i : Nat) (s : Level) (pts : List SignalPoint) : Statement (.decMan i s pts) := decodeOpcode_encodeOpcode _
theorem decDman (i : Nat) (s : Level) (pts : List SignalPoint) : Statement (.decDman i s pts) := decodeOpcode_encodeOpcode _
theorem stuffBit (x : List Bit) : Statement (.stuffBit x) := decodeOpcode_encodeOpcode _
theorem stuffByte (x : List Bit) : Statement (.stuffByte x) := decodeOpcode_encodeOpcode _
theorem destuffBit (x : List Bit) : Statement (.destuffBit x) := decodeOpcode_encodeOpcode _
theorem destuffByte (x : List Bit) : Statement (.destuffByte x) := decodeOpcode_encodeOpcode _

end Sys2Proof.Laws.WordNamed
end

