-- ==== Sys2Proof/Laws/Streams.lean ====
section
/-! SUPPORT. Streams of bits through a line code, one bit at the end (Safety.lean), what a bit-step's halves give, and runs of ones. -/

namespace Sys2Proof.Safety

open Sys2Proof.Machine

/-- One more bit of a stream is encoded with the level carried after the bits before it. -/
theorem encodeStream_snoc (cfg : Config) (lc : LineCode) (i : Nat) (l : Level) (x : List Bit) (b : Bit) :
    encodeStream cfg lc i l (x ++ [b]) = ((encodeStream cfg lc i l x).1 ++ [(encodeLine cfg lc b (i + x.length) (encodeStream cfg lc i l x).2).1],
      (encodeLine cfg lc b (i + x.length) (encodeStream cfg lc i l x).2).2) := by
  induction x generalizing i l with
  | nil => simp [encodeStream]
  | cons c x ih => simp [encodeStream, ih]; rw [show i + 1 + x.length = i + (x.length + 1) by omega]; simp

theorem received_length (errs : List Nat) (i : Nat) (x : List Bit) : (received errs i x).length = x.length := by
  induction x generalizing i with
  | nil => rfl
  | cons c x ih => simp [received, ih]

/-- One more bit received. -/
theorem received_snoc (errs : List Nat) (i : Nat) (x : List Bit) (b : Bit) :
    received errs i (x ++ [b]) = received errs i x ++ [.bit (if i + x.length ∈ errs then b.complement else b)] := by
  induction x generalizing i with
  | nil => simp [received]
  | cons c x ih => simp [received, ih]; rw [show i + 1 + x.length = i + (x.length + 1) by omega]

/-- Only the errors inside the stream matter. -/
theorem received_congr (e e' : List Nat) (i : Nat) (x : List Bit) (h : ∀ p, i ≤ p → p < i + x.length → (p ∈ e ↔ p ∈
    e')) : received e i x = received e' i x := by
  induction x generalizing i with
  | nil => rfl
  | cons c x ih =>
    have h0 := h i (by omega) (by simp)
    have := ih (i+1) (fun p hp hl => h p (by omega) (by simp; omega))
    simp [received, this, h0]

/-- The symbol received at an index. -/
theorem received_get (e : List Nat) (i : Nat) (x : List Bit) (k : Nat) (b : Bit) (h : x[k]? = some b) :
    (received e i x)[k]? = some (.bit (if i + k ∈ e then b.complement else b)) := by
  induction x generalizing i k with
  | nil => simp at h
  | cons c x ih =>
    cases k with
    | zero => simp at h; simp [received, h]
    | succ k => simp at h; simp [received, ih (i+1) k h]; rw [show i + 1 + k = i + (k+1) by omega]

/-- With no errors the stream itself is received. -/
theorem received_nil (i x) : received [] i x = asSymbols x := by
  induction x generalizing i with
  | nil => rfl
  | cons b x ih => simp [received, ih]

end Sys2Proof.Safety

namespace Sys2Proof.Machine

open Sys2Proof.Safety

/-- `TICK` on the bit at `position`, as `exec` answers it (R160). -/
theorem exec_tick (s : State) (t : Technique) (b : Bit) (hr : s.fsm = .running) (ht : s.tech = some t)
    (hb : s.processedData[s.position]? = some b) : exec .tick s = .next { completeIfDone t (bitStep t b s) with status := .ok, result := none } := execTick_running s t b hr ht hb

/-- The unit operation of a line code's encoder. -/
theorem exec_encInstr (s : State) (lc b i l) :
    exec (encInstr lc b i l) s = .next (unitDone (.encoded (encodeLine s.config lc b i l).1 (encodeLine s.config lc
    b i l).2) s) := by cases lc <;> rfl

/-- The unit operation of a line code's decoder, on points it does not refuse. -/
theorem exec_decInstr (s : State) (lc i l pts y m) (h : pts.length ≤ 2) (hd : decodeLine s.config lc i l pts = some
    (y, m)) : exec (decInstr lc i l pts) s = .next (unitDone (.decoded y m) s) := by
  cases lc <;> simp [decInstr, exec, execDecNrzl, execDecNrzi, execDecMan, execDecDman, withPoints, pointsFit, h, decodeLine] at hd ⊢ <;> simp [finishDecode, hd, finishUnit, unitDone]

/-- R136: an encoder emits at most two points. -/
theorem encodeLine_length_le (cfg lc b i l) : (encodeLine cfg lc b i l).1.length ≤ 2 := by
  cases lc <;> cases b <;> simp [encodeLine, encodeNrzl, encodeNrzi, encodeMan, encodeDman]

/-- No decoder refuses the shape of the encoder's points, whatever level it carries (R141, R142). -/
theorem decodeLine_accepts (cfg : Config) (lc : LineCode) (b : Bit) (i : Nat) (l m : Level) :
   ∃ y d, decodeLine cfg lc i m (encodeLine cfg lc b i l).1 = some (y, d) := by
  cases lc <;> cases b <;> simp [decodeLine, encodeLine, decodeNrzl, encodeNrzl, decodeNrzi, encodeNrzi] <;> exact ⟨_, _, rfl⟩

/-- Short of completion the completion test changes nothing. -/
theorem completeIfDone_eq_self (t : Technique) (s : State) (h : (completeIfDone t s).fsm ≠ .completed) :
    completeIfDone t s = s := by
  unfold completeIfDone at *; split at h <;> simp_all

/-- The bit-step's decoding half where both carried levels agree (R162, R163): the levels agree afterwards, and the symbol is the
bit, complemented exactly when an error was armed. -/
theorem stepDecoded_of_levels_agree (t : Technique) (b : Bit) (s : State) (h : s.decLevel = s.encLevel) :
   (stepDecoded t b s).decLevel = (stepEncoded t b s).2 ∧ (stepDecoded t b s).error = s.pendingErrorInjection ∧
   (stepDecoded t b s).y = .bit (if s.pendingErrorInjection then b.complement else b) := by
  cases hp : s.pendingErrorInjection with
  | true =>
    rw [stepDecoded_injected t b s hp]
    refine ⟨?_, rfl, by simp [injectedDecode]⟩
    simp only [injectedDecode, stepEncoded]
    cases hl : lineCodeOf t with
    | nrzl => simp [encodeLine_level, h]
    | man => simp [encodeLine_level, h]
    | nrzi => exact lastLevel_encodeLine _ _ _ _ _ _ (by simp)
    | dman => exact lastLevel_encodeLine _ _ _ _ _ _ (by simp)
  | false =>
    rw [stepDecoded_plain t b s hp]
    have := decodeLine_encodeLine s.config (lineCodeOf t) b s.position s.encLevel
    rw [← h] at this
    simp [plainDecode, stepEncoded, ← h, this, decodeFailed]

/-! ## Runs of ones (R112) -/

@[simp] theorem onesBefore_start (x : List Bit) : onesBefore x 0 = 0 := by simp [onesBefore]

/-- A `'1'` lengthens the run. -/
theorem onesBefore_one (x : List Bit) (k : Nat) (h : x[k]? = some .one) : onesBefore x (k + 1) = onesBefore x k + 1 := by
  simp [onesBefore, List.take_add_one, h]

/-- A `'0'` ends it. -/
theorem onesBefore_zero (x : List Bit) (k : Nat) (h : x[k]? = some .zero) : onesBefore x (k + 1) = 0 := by
  simp [onesBefore, List.take_add_one, h]

end Sys2Proof.Machine
end

