-- ==== Sys2Proof/Laws/Symbols.lean ====
section
/-! SUPPORT. The destuffing scans read bits (the unit operations) or symbols (finalization); on symbols that hold no `'?'` they
are the same scan (spec/45_session_stepper.md R171, R172). -/

namespace Sys2Proof.Machine

/-- The bit destuffer commutes with an injective renaming of cells. -/
theorem destuffScan_map {α β : Type} [DecidableEq α] [DecidableEq β] (f : α → β) (hf : Function.Injective f) (z o :
    α) (s : List α) :
    ∀ c, destuffScan (f z) (f o) c (s.map f) = (destuffScan z o c s).map f := by
  induction h : s.length using Nat.strong_induction_on generalizing s with
  | _ n ih =>
    intro c
    match s, h with
    | [], _ => simp
    | [d], _ =>
      by_cases hd : d = o
      · subst hd; simp [destuffScan]
      · have : f d ≠ f o := fun e => hd (hf e)
        simp [destuffScan, hd, this]
    | d :: e :: r, h =>
      have h1 := ih (e :: r).length (by simp [← h]) (e :: r) rfl
      have h2 := ih r.length (by simp only [← h, List.length_cons]; omega) r rfl
      simp only [List.map_cons] at *
      simp only [destuffScan, hf.eq_iff]
      split_ifs <;> simp [h1, h2]

/-- So does the loop of the byte destuffer. -/
theorem unescapeBytes_map {α β : Type} [DecidableEq α] [DecidableEq β] (f : α → β) (hf : Function.Injective f) (fl
    es tl : List α) (bs : List (List α)) :
    unescapeBytes (fl.map f) (es.map f) (tl.map f) (bs.map (List.map f)) = ((unescapeBytes fl es tl bs).1.map f, (unescapeBytes fl es tl bs).2) := by
  induction h : bs.length using Nat.strong_induction_on generalizing bs with
  | _ n ih =>
    have hinj := hf.list_map
    match bs, h with
    | [], _ => simp [unescapeBytes]
    | [B], h =>
       have h1 := ih 0 (by simp [← h]) [] rfl
       simp only [List.map_nil] at h1
       simp only [List.map_cons, List.map_nil, unescapeBytes, hinj.eq_iff]; split_ifs <;> simp_all
    | B :: D :: r, h =>
      have h1 := ih (D :: r).length (by simp [← h]) (D :: r) rfl
      have h2 := ih r.length (by simp only [← h, List.length_cons]; omega) r rfl
      simp only [List.map_cons] at *
      rw [unescapeBytes, unescapeBytes]
      simp only [hinj.eq_iff]
      split_ifs <;> simp [h1, h2]

/-- So does rule R124's algorithm. -/
theorem destuffByteScan_map {α β : Type} [DecidableEq α] [DecidableEq β] (f : α → β) (hf : Function.Injective f)
    (fl es s : List α) :
    destuffByteScan (fl.map f) (es.map f) (s.map f) = ((destuffByteScan fl es s).1.map f, (destuffByteScan fl es s).2) := by
  have hinj := hf.list_map
  unfold destuffByteScan
  rw [wholeBytes_map, leftoverCells_map]
  cases wholeBytes s with
  | nil => rfl
  | cons B bs =>
    simp only [List.map_cons]
    have h2 := unescapeBytes_map f hf fl es (leftoverCells s) (B :: bs)
    simp only [List.map_cons] at h2
    rw [h2, unescapeBytes_map f hf]
    by_cases h : B = fl <;> simp [hinj.eq_iff, h]

/-- R171 on a Bitstring. -/
theorem destuffBitSymbols_asSymbols (x : List Bit) : destuffBitSymbols (asSymbols x) = asSymbols (destuffBits x) :=
  destuffScan_map Symbol.bit symbolBit_injective _ _ x 0

/-- R172 on a Bitstring. -/
theorem destuffByteSymbols_asSymbols (cfg : Config) (x : List Bit) :
    destuffByteSymbols cfg (asSymbols x) = (asSymbols (destuffBytes cfg x).1, (destuffBytes cfg x).2) := by
  have := destuffByteScan_map Symbol.bit symbolBit_injective flagByte escByte x
  unfold destuffByteSymbols destuffBytes asSymbols
  rw [this]
  cases h : cfg.bestEffort <;> simp [bestEffortOutput, h]
  split <;> rfl

end Sys2Proof.Machine
end

