-- ==== Sys2Proof/Machine/Assembly.lean ====
section
/-! DEFINITION. The command syntax of spec/30_encoding.md R86: one command per line, mnemonic first, operands separated
by commas, a Bitstring literal in index order. -/

namespace Sys2Proof.Machine

/-- The mnemonic of a command, as spec/opcode_table.json spells it (R70). -/
def mnemonic : Instr → String
  | .reset => "RESET"
  | .startNrzl _ _ => "START.NRZL"
  | .startNrzi _ _ => "START.NRZI"
  | .startMan _ _ => "START.MAN"
  | .startDman _ _ => "START.DMAN"
  | .startBitstuff _ _ => "START.BITSTUFF"
  | .startBytestuff _ _ => "START.BYTESTUFF"
  | .tick => "TICK"
  | .arm => "ARM"
  | .pause => "PAUSE"
  | .resume => "RESUME"
  | .encNrzl _ _ _ => "ENC.NRZL"
  | .encNrzi _ _ _ => "ENC.NRZI"
  | .encMan _ _ _ => "ENC.MAN"
  | .encDman _ _ _ => "ENC.DMAN"
  | .decNrzl _ _ _ => "DEC.NRZL"
  | .decNrzi _ _ _ => "DEC.NRZI"
  | .decMan _ _ _ => "DEC.MAN"
  | .decDman _ _ _ => "DEC.DMAN"
  | .stuffBit _ => "STUFF.BIT"
  | .stuffByte _ => "STUFF.BYTE"
  | .destuffBit _ => "DESTUFF.BIT"
  | .destuffByte _ => "DESTUFF.BYTE"

/-- A bit operand. -/
def showBit : Bit → String
  | .zero => "0"
  | .one => "1"

/-- A level operand: "`<s>` in +1 -1". -/
def showLevel : Level → String
  | .low => "-1"
  | .high => "+1"

/-- A kind operand. -/
def showKind : Kind → String
  | .text => "text"
  | .bitstream => "bitstream"

/-- The bits of a literal, index 0 leftmost (R11). -/
def showBits : List Bit → String
  | [] => ""
  | b :: x => showBit b ++ showBits x

/-- A Bitstring literal. -/
def showBitstring (x : List Bit) : String := "\"" ++ showBits x ++ "\""

/-- A time in the source's units: `t2` halves (R81). -/
def showTime (t2 : Nat) : String :=
  if t2 % 2 = 0 then toString (t2 / 2) else toString (t2 / 2) ++ ".5"

/-- A point `(<time>,<level>)`. -/
def showPoint (p : SignalPoint) : String := "(" ++ showTime p.t2 ++ "," ++ showLevel p.level ++ ")"

/-- The points of a list, with commas between. -/
def showPoints : List SignalPoint → String
  | [] => ""
  | [p] => showPoint p
  | p :: q :: ps => showPoint p ++ "," ++ showPoints (q :: ps)

/-- The operands of a command as text. -/
def showOperands : Instr → String
  | .reset => ""
  | .startNrzl k p => " " ++ showKind k ++ ", " ++ showBitstring p
  | .startNrzi k p => " " ++ showKind k ++ ", " ++ showBitstring p
  | .startMan k p => " " ++ showKind k ++ ", " ++ showBitstring p
  | .startDman k p => " " ++ showKind k ++ ", " ++ showBitstring p
  | .startBitstuff k p => " " ++ showKind k ++ ", " ++ showBitstring p
  | .startBytestuff k p => " " ++ showKind k ++ ", " ++ showBitstring p
  | .tick => ""
  | .arm => ""
  | .pause => ""
  | .resume => ""
  | .encNrzl b i s => " " ++ showBit b ++ ", " ++ toString i ++ ", " ++ showLevel s
  | .encNrzi b i s => " " ++ showBit b ++ ", " ++ toString i ++ ", " ++ showLevel s
  | .encMan b i s => " " ++ showBit b ++ ", " ++ toString i ++ ", " ++ showLevel s
  | .encDman b i s => " " ++ showBit b ++ ", " ++ toString i ++ ", " ++ showLevel s
  | .decNrzl i s pts => " " ++ toString i ++ ", " ++ showLevel s ++ ", [" ++ showPoints pts ++ "]"
  | .decNrzi i s pts => " " ++ toString i ++ ", " ++ showLevel s ++ ", [" ++ showPoints pts ++ "]"
  | .decMan i s pts => " " ++ toString i ++ ", " ++ showLevel s ++ ", [" ++ showPoints pts ++ "]"
  | .decDman i s pts => " " ++ toString i ++ ", " ++ showLevel s ++ ", [" ++ showPoints pts ++ "]"
  | .stuffBit x => " " ++ showBitstring x
  | .stuffByte x => " " ++ showBitstring x
  | .destuffBit x => " " ++ showBitstring x
  | .destuffByte x => " " ++ showBitstring x

/-- A command's line of R86. -/
def assembly (i : Instr) : String := mnemonic i ++ showOperands i

end Sys2Proof.Machine
end

