-- ==== Sys2Proof/Tests/Slice0.lean ====
section
/-! SUPPORT. Small tests. Expected values are spec/95_test_vectors.md's (named V1 to V13, P1 to P7) or worked by hand from the
rule named; the last section shows, for each statement with hypotheses, states and operands that meet them. -/

namespace Sys2Proof.Tests

open Sys2Proof.Machine Sys2Proof.Safety

/-! ## Helpers -/

/-- The state after commands, from reset. -/
def after (cs : List Instr) : State :=
  match execAll cs State.reset with
  | .next t => t
  | .fault _ => State.reset
  | .refused _ => State.reset

/-- The state after commands, from reset with a capacity. -/
def cappedAt (c : Nat) : State := { State.reset with config := { Config.default with cap := some c } }

/-- What a command leaves, read through `f`. -/
def seen {α : Type} (i : Instr) (s : State) (f : State → α) : Option α :=
  match exec i s with
  | .next t => some (f t)
  | .fault _ => none
  | .refused _ => none

/-- A running NRZ-L session of payload `10`, no bit stepped. -/
def running : State := after [.startNrzl .bitstream [.one, .zero]]
/-- A paused one. -/
def pausing : State := after [.startNrzl .bitstream [.one, .zero], .pause]
/-- A completed one of payload `1`. -/
def completed : State := after [.startNrzl .bitstream [.one], .tick]
/-- A completed one of payload `1` with its bit in error. -/
def completedInError : State := after [.startNrzl .bitstream [.one], .arm, .tick]
/-- A running NRZ-I session of payload `10`, one bit stepped. -/
def runningNrzi : State := after [.startNrzi .bitstream [.one, .zero], .tick]
/-- A running Differential Manchester session of payload `01`, one bit stepped. -/
def runningDman : State := after [.startDman .text [.zero, .one], .tick]
/-- A running bit-stuffing session of payload `11111`. -/
def runningBit : State := after [.startBitstuff .bitstream (bitsOf [1, 1, 1, 1, 1])]
/-- A running byte-stuffing session of the payload FLAG. -/
def runningByte : State := after [.startBytestuff .text flagByte]
/-- A completed bit-stuffing session of payload `1`. -/
def completedBit : State := after [.startBitstuff .bitstream [.one], .tick]

/-! ## Well-formedness (R76): a `DEC` of three points is refused -/

/-- Three points. -/
def threePoints : List SignalPoint := [⟨0, .low⟩, ⟨1, .high⟩, ⟨2, .low⟩]

theorem test_decNrzl_three_points : (Instr.decNrzl 0 .low threePoints).wellFormed = false := by decide
theorem test_decNrzi_three_points : (Instr.decNrzi 0 .low threePoints).wellFormed = false := by decide
theorem test_decMan_three_points : (Instr.decMan 0 .low threePoints).wellFormed = false := by decide
theorem test_decDman_three_points : (Instr.decDman 0 .low threePoints).wellFormed = false := by decide
theorem test_decDman_two_points : (Instr.decDman 0 .low (threePoints.take 2)).wellFormed = true := by decide

/-! ## Decoding: each constructor's word, written out from R72, R73, and its operands from R76 to R81 -/

theorem test_word_reset : decode { cw := 0b00000000#8, operands := [] } = .ok .reset := by rfl
theorem test_word_startNrzl :
    decode { cw := 0b00011000#8, operands := [2, 1, 0] } = .ok (.startNrzl .bitstream [.one, .zero]) := by rfl
theorem test_word_startNrzi :
    decode { cw := 0b00010001#8, operands := [1, 0] } = .ok (.startNrzi .text [.zero]) := by rfl
theorem test_word_startMan :
    decode { cw := 0b00011010#8, operands := [1, 1] } = .ok (.startMan .bitstream [.one]) := by rfl
theorem test_word_startDman :
    decode { cw := 0b00010011#8, operands := [0] } = .ok (.startDman .text []) := by rfl
theorem test_word_startBitstuff :
    decode { cw := 0b00011100#8, operands := [3, 1, 0, 1] } = .ok (.startBitstuff .bitstream [.one, .zero, .one]) := by rfl
theorem test_word_startBytestuff :
    decode { cw := 0b00010101#8, operands := [1, 1] } = .ok (.startBytestuff .text [.one]) := by rfl
theorem test_word_tick : decode { cw := 0b00100000#8, operands := [] } = .ok .tick := by rfl
theorem test_word_arm : decode { cw := 0b00110000#8, operands := [] } = .ok .arm := by rfl
theorem test_word_pause : decode { cw := 0b01000000#8, operands := [] } = .ok .pause := by rfl
theorem test_word_resume : decode { cw := 0b01010000#8, operands := [] } = .ok .resume := by rfl
theorem test_word_encNrzl : decode { cw := 0b10000000#8, operands := [1, 7, 0] } = .ok (.encNrzl .one 7 .low) := by rfl
theorem test_word_encNrzi : decode { cw := 0b10000001#8, operands := [0, 7, 1] } = .ok (.encNrzi .zero 7 .high) := by rfl
theorem test_word_encMan : decode { cw := 0b10000010#8, operands := [1, 0, 1] } = .ok (.encMan .one 0 .high) := by rfl
theorem test_word_encDman : decode { cw := 0b10000011#8, operands := [0, 2, 0] } = .ok (.encDman .zero 2 .low) := by rfl
theorem test_word_decNrzl :
    decode { cw := 0b10010000#8, operands := [3, 0, 1, 18, 1] } = .ok (.decNrzl 3 .low [⟨18, .high⟩]) := by rfl
theorem test_word_decNrzi :
    decode { cw := 0b10010001#8, operands := [3, 1, 0] } = .ok (.decNrzi 3 .high []) := by rfl
theorem test_word_decMan :
    decode { cw := 0b10010010#8, operands := [2, 0, 2, 4, 1, 5, 0] } = .ok (.decMan 2 .low [⟨4, .high⟩, ⟨5, .low⟩]) := by rfl
theorem test_word_decDman :
    decode { cw := 0b10010011#8, operands := [0, 1, 1, 0, 0] } = .ok (.decDman 0 .high [⟨0, .low⟩]) := by rfl
theorem test_word_stuffBit : decode { cw := 0b10100100#8, operands := [2, 1, 1] } = .ok (.stuffBit [.one, .one]) := by rfl
theorem test_word_stuffByte : decode { cw := 0b10100101#8, operands := [1, 0] } = .ok (.stuffByte [.zero]) := by rfl
theorem test_word_destuffBit : decode { cw := 0b10110100#8, operands := [0] } = .ok (.destuffBit []) := by rfl
theorem test_word_destuffByte : decode { cw := 0b10110101#8, operands := [1, 1] } = .ok (.destuffByte [.one]) := by rfl

/-- V11: the sample illegal words name no command. -/
theorem test_illegal_words :
    ([0x01#8, 0x08#8, 0x16#8, 0x17#8, 0x1E#8, 0x1F#8, 0x28#8, 0x60#8, 0x70#8, 0x84#8, 0x88#8, 0x95#8, 0xA0#8, 0xA3#8, 0xB6#8,
      0xC0#8, 0xFF#8] : List CommandWord).all (fun cw => (decodeOpcode cw).isNone) = true := by decide

/-- V11: 29 legal words in all. -/
theorem test_legal_word_count :
    ((List.range 256).filter (fun w => (decodeOpcode (BitVec.ofNat 8 w)).isSome)).length = 29 := by decide

/-- R84: an index-0 bit operand of 2, and a count of three points, are reserved. -/
theorem test_reserved_operands :
    decode { cw := 0x80#8, operands := [2, 0, 0] } = .error .reservedOperand ∧
    decode { cw := 0x92#8, operands := [0, 0, 3, 0, 0, 1, 0, 2, 0] } = .error .reservedOperand := by decide

/-- The rows of spec/opcode_table.json, each word of which the decoder names as the table does. -/
theorem test_table_words :
    ([0x00, 0x10, 0x11, 0x12, 0x13, 0x14, 0x15, 0x20, 0x30, 0x40, 0x50, 0x80].map
        (fun w => (decodeTableWord 8 w).map mnemonic)) =
      ["RESET", "START.NRZL", "START.NRZI", "START.MAN", "START.DMAN", "START.BITSTUFF", "START.BYTESTUFF", "TICK", "ARM",
        "PAUSE", "RESUME", "ENC.NRZL"].map some ∧
    ([0x81, 0x82, 0x83, 0x90, 0x91, 0x92, 0x93, 0xA4, 0xA5, 0xB4, 0xB5].map (fun w => (decodeTableWord 8 w).map mnemonic)) =
      ["ENC.NRZI", "ENC.MAN", "ENC.DMAN", "DEC.NRZL", "DEC.NRZI", "DEC.MAN", "DEC.DMAN", "STUFF.BIT", "STUFF.BYTE",
        "DESTUFF.BIT", "DESTUFF.BYTE"].map some := by decide

/-- `withFetchWord` makes the very next step run the word: `ENC.MAN 0, 0, -1` (R133). -/
theorem test_fetch_word :
    step (State.reset.withFetchWord 8 0x82) =
      .next (unitDone (.encoded [⟨0, .high⟩, ⟨1, .low⟩] .low) State.reset) := by rfl

/-- Every row's word, run first after reset, answers a next state. -/
theorem test_table_steps :
    ([0x00, 0x10, 0x11, 0x12, 0x13, 0x14, 0x15, 0x20, 0x30, 0x40, 0x50, 0x80, 0x81, 0x82, 0x83, 0x90, 0x91, 0x92, 0x93, 0xA4,
      0xA5, 0xB4, 0xB5] : List Nat).all (fun w =>
        match step (State.reset.withFetchWord 8 w) with
        | .next _ => true
        | .fault _ => false
        | .refused _ => false) = true := by decide

/-- `TICK` in `Idle` runs and is refused (R168). -/
theorem test_fetch_tick : step (State.reset.withFetchWord 8 0x20) = .next (refusedWith .illegalState State.reset) := by rfl

/-! ## The line codes (V4, V6, V7) -/

theorem test_encNrzl : seen (.encNrzl .one 3 .high) State.reset State.result = some (some (.encoded [⟨6, .low⟩] .high)) := by
  decide
theorem test_encNrzi : seen (.encNrzi .one 3 .low) State.reset State.result = some (some (.encoded [⟨6, .high⟩] .high)) := by
  decide
theorem test_encMan :
    seen (.encMan .one 3 .low) State.reset State.result = some (some (.encoded [⟨6, .low⟩, ⟨7, .high⟩] .low)) := by decide
theorem test_encDman :
    seen (.encDman .zero 3 .high) State.reset State.result = some (some (.encoded [⟨6, .low⟩, ⟨7, .high⟩] .high)) := by decide
theorem test_decNrzl_late_point :
    seen (.decNrzl 3 .low [⟨18, .high⟩]) State.reset State.result = some (some (.decoded (.bit .zero) .low)) := by decide
theorem test_decNrzi :
    seen (.decNrzi 3 .high [⟨6, .low⟩]) State.reset State.result = some (some (.decoded (.bit .one) .low)) := by decide
theorem test_decNrzi_two_points :
    seen (.decNrzi 3 .low [⟨6, .high⟩, ⟨7, .low⟩]) State.reset State.status = some .illegalCommand := by decide
theorem test_decMan : seen (.decMan 3 .high [⟨6, .low⟩, ⟨7, .high⟩]) State.reset State.result =
    some (some (.decoded (.bit .one) .high)) := by decide
theorem test_decMan_other_times : seen (.decMan 2 .low [⟨4, .high⟩, ⟨6, .low⟩]) State.reset State.result =
    some (some (.decoded .unknown .low)) := by decide
theorem test_decDman : seen (.decDman 3 .high [⟨6, .low⟩, ⟨7, .high⟩]) State.reset State.result =
    some (some (.decoded (.bit .zero) .high)) := by decide
theorem test_decDman_equal_levels : seen (.decDman 0 .low [⟨0, .high⟩, ⟨1, .high⟩]) State.reset State.result =
    some (some (.decoded .unknown .high)) := by decide

/-! ## The Framer (V1, V2, V3, V5) -/

theorem test_stuffBit_ten_ones : stuffBits (List.replicate 10 .one) = (bitsOf [1, 1, 1, 1, 1, 0, 1, 1, 1, 1, 1, 0], [5, 11]) := by
  decide
theorem test_stuffBit_scenario : stuffBits (bitsOf [0, 1, 1, 1, 1, 1, 1, 0, 1, 1, 1, 1, 1, 0]) =
    (bitsOf [0, 1, 1, 1, 1, 1, 0, 1, 0, 1, 1, 1, 1, 1, 0, 0], [6, 14]) := by decide
theorem test_destuffBit_second_run : destuffBits (bitsOf [1, 1, 1, 1, 1, 1, 1, 1, 1, 1, 0]) = List.replicate 10 .one := by decide
theorem test_destuffBit_one_zero : destuffBits (bitsOf [1, 1, 1, 1, 1, 0, 0]) = bitsOf [1, 1, 1, 1, 1, 0] := by decide
theorem test_stuffByte_both : stuffBytes (escByte ++ flagByte) =
    (flagByte ++ escByte ++ escByte ++ escByte ++ flagByte ++ flagByte, [8, 24]) := by decide
theorem test_stuffByte_unaligned : seen (.stuffByte (bitsOf [0, 1, 0, 1])) State.reset State.status = some .illegalCommand := by
  decide
theorem test_destuffByte_midstream :
    destuffBytes Config.default (flagByte ++ bitsOf [0, 1, 0, 0, 0, 0, 0, 1] ++ flagByte ++ flagByte) =
      (bitsOf [0, 1, 0, 0, 0, 0, 0, 1], true) := by decide
/-- R125's escaped last FLAG, and R124 by hand: `00111110`, ESC and FLAG, ESC and 7 cells, with a leading FLAG and without. -/
theorem test_destuffByte_escaped_flag :
    destuffBytes Config.default (flagByte ++ escByte ++ flagByte) = (flagByte, true) ∧
    ([flagByte, []].map (fun x => destuffBytes Config.default (x ++ bitsOf [0, 0, 1, 1, 1, 1, 1, 0] ++ escByte ++ flagByte ++
      escByte ++ List.replicate 7 .zero))) =
      List.replicate 2 (bitsOf [0, 0, 1, 1, 1, 1, 1, 0] ++ flagByte, true) := by decide

/-! ## The session commands (P2, P5, P6, V8, V9, V10) -/

theorem test_reset_clears : exec .reset completedInError = .next State.reset := by rfl
/-- V8, the first point of `START.NRZL` of `1`: level `-1`. -/
theorem test_tick_nrzl : completed.signalLog = [⟨0, .low⟩] ∧ completed.verdict = .isMatch := by decide
/-- P2: the injected step keeps the point of the true bit and records its complement. -/
theorem test_tick_injected : completedInError.signalLog = [⟨0, .low⟩] ∧ completedInError.decodedBits = [.bit .zero] ∧
    completedInError.errorPositions = [0] ∧ completedInError.verdict = .mismatch := by decide
/-- V9: an injected error advances `decLevel` over the step. -/
theorem test_tick_injected_nrzi :
    (after [.startNrzi .bitstream [.one, .zero], .arm, .tick]).decLevel = .high := by decide
theorem test_arm_refused_in_pause : seen .arm pausing (fun t => (t.status, t.pendingErrorInjection)) =
    some (.illegalState, false) := by decide
theorem test_pause : pausing.fsm = .paused ∧ pausing.status = .ok := by decide
theorem test_resume : seen .resume pausing State.fsm = some .running := by decide
theorem test_resume_running : seen .resume running State.status = some .illegalState := by decide
theorem test_startNrzl : running.processedData = [.one, .zero] ∧ running.encLevel = .low := by decide
theorem test_startNrzi : (after [.startNrzi .text [.one]]).kind = some .text := by decide
theorem test_startMan_empty : seen (.startMan .bitstream []) State.reset (fun t => (t.fsm, t.status)) =
    some (.idle, .validationError) := by decide
theorem test_startDman : (after [.startDman .text [.zero]]).tech = some .diffmanchester := by decide
theorem test_startBitstuff : runningBit.processedData = bitsOf [1, 1, 1, 1, 1, 0] ∧ runningBit.insertedPositions = [5] := by decide
theorem test_startBytestuff : runningByte.insertedPositions = [8] ∧ runningByte.processedData.length = 32 := by decide
/-- P6: `START.BYTESTUFF` of four cells. -/
theorem test_startBytestuff_unaligned : seen (.startBytestuff .bitstream (bitsOf [0, 1, 0, 1])) State.reset State.status =
    some .validationError := by decide
/-- R154: the framed bitstring of `11111` has six cells. -/
theorem test_start_capacity : seen (.startBitstuff .text (bitsOf [1, 1, 1, 1, 1])) (cappedAt 5) State.status =
    some .validationError ∧
    seen (.startBitstuff .text (bitsOf [1, 1, 1, 1, 1])) (cappedAt 6) State.status = some .ok := by decide

/-! ## The host's side (V12, V13, R86) -/

theorem test_textToBits : textToBits ['H', 'i'] = some (bitsOf [0, 1, 0, 0, 1, 0, 0, 0, 0, 1, 1, 0, 1, 0, 0, 1]) := by decide
theorem test_bitsToText_pads : bitsToText (asSymbols (bitsOf [0, 1, 0, 0, 1, 0, 0])) = ['H'] := by decide
theorem test_bitsToText_bell : bitsToText (asSymbols (bitsOf [0, 0, 0, 0, 0, 1, 1, 1])) = ['?'] := by decide
theorem test_detectKind : detectKind [' ', '1', '0', ' ', '0', '1', ' '] = .bitstream ∧ detectKind ['1', '0', '2'] = .text ∧
    detectKind [' ', ' '] = .text := by decide
theorem test_origIndex_bit : (List.range 16).map (origIndex .bit 16 [6, 14]) =
    [some 0, some 1, some 2, some 3, some 4, some 5, none, some 6, some 7, some 8, some 9, some 10, some 11, some 12, none,
      some 13] := by decide
theorem test_origIndex_byte : [7, 8, 15, 16, 23, 24].map (origIndex .byte 32 [8]) =
    [none, none, none, some 0, some 7, none] := by decide
/-- P2's injected step, its last point `(0,-1)` read as `(0, 0)`. -/
theorem test_reads : [StepField.valid, .index, .bit, .points, .decoded, .error].map (fun f => readStepOut f completedInError) =
    [[1], [0], [1], [0, 0], [0], [1]] ∧ readElement .verdict completedInError = 2 ∧
    readCell .errorPositions 0 completedInError = some [1] := by decide
theorem test_assembly : assembly (.decMan 2 .low [⟨4, .high⟩, ⟨5, .low⟩]) = "DEC.MAN 2, -1, [(2,+1),(2.5,-1)]" := by decide

/-! ## States that meet the invariant (witnesses of the statements about `MachineInv`) -/

theorem test_inv_reset : MachineInv State.reset := by
  show idleAtReset State.reset
  rfl

/-- The invariant of a concrete session, part by part. -/
theorem machineInv_of_session {s : State} (t : Technique) (k : Kind) (hi : s.fsm ≠ .idle) (hl : Latched t k s) (hp : Progress t s)
    (hr : StepReport s) (ho : Outputs t s) : MachineInv s := by
  unfold MachineInv
  rw [if_neg hi]
  exact ⟨t, k, hl, hp, hr, ho⟩

theorem test_inv_running : MachineInv running :=
  machineInv_of_session .nrzl .bitstream (by decide) (by constructor <;> decide) (by constructor <;> decide)
    (by constructor <;> decide) (by constructor <;> decide)
theorem test_inv_pausing : MachineInv pausing :=
  machineInv_of_session .nrzl .bitstream (by decide) (by constructor <;> decide) (by constructor <;> decide)
    (by constructor <;> decide) (by constructor <;> decide)
theorem test_inv_completed : MachineInv completed :=
  machineInv_of_session .nrzl .bitstream (by decide) (by constructor <;> decide) (by constructor <;> decide)
    (by constructor <;> decide) (by constructor <;> decide)
theorem test_inv_completedInError : MachineInv completedInError :=
  machineInv_of_session .nrzl .bitstream (by decide) (by constructor <;> decide) (by constructor <;> decide)
    (by constructor <;> decide) (by constructor <;> decide)
theorem test_inv_runningNrzi : MachineInv runningNrzi :=
  machineInv_of_session .nrzi .bitstream (by decide) (by constructor <;> decide) (by constructor <;> decide)
    (by constructor <;> decide) (by constructor <;> decide)
theorem test_inv_runningDman : MachineInv runningDman :=
  machineInv_of_session .diffmanchester .text (by decide) (by constructor <;> decide) (by constructor <;> decide)
    (by constructor <;> decide) (by constructor <;> decide)
theorem test_inv_runningBit : MachineInv runningBit :=
  machineInv_of_session .bitstuff .bitstream (by decide) (by constructor <;> decide) (by constructor <;> decide)
    (by constructor <;> decide) (by constructor <;> decide)
theorem test_inv_runningByte : MachineInv runningByte :=
  machineInv_of_session .bytestuff .text (by decide) (by constructor <;> decide) (by constructor <;> decide)
    (by constructor <;> decide) (by constructor <;> decide)
theorem test_inv_completedBit : MachineInv completedBit :=
  machineInv_of_session .bitstuff .bitstream (by decide) (by constructor <;> decide) (by constructor <;> decide)
    (by constructor <;> decide) (by constructor <;> decide)

/-! ## Witnesses: for each statement with hypotheses, values that meet them, clause by clause -/

/-- A state with one transaction at its port. -/
def offered (tx : Transaction) : State := { State.reset with port := [tx] }
/-- A byte-stuffing session of two cells with one still to step: no run reaches it, but the statement covers it. -/
def nearlyByte : State :=
  { runningByte with
    processedData := bitsOf [0, 1]
    position := 1
    decodedBits := [.bit .zero] }
/-- A bit-stuffing session of payload `1`. -/
def runningOneBit : State := after [.startBitstuff .bitstream [.one]]
/-- An unframed session of payload `1`. -/
def runningOne : State := after [.startNrzl .bitstream [.one]]
/-- The same with an error armed. -/
def armedOne : State := after [.startNrzl .bitstream [.one], .arm]
/-- Two segments of a good frame: an escaped FLAG, and a plain byte. -/
def flagSegments : List Segment := [⟨true, flagByte⟩, ⟨false, bitsOf [0, 1, 0, 0, 0, 0, 0, 1]⟩]

theorem test_witness_ResetGivesEveryElementItsResetValue : MachineInv State.reset ∧ State.reset.fsm = .idle :=
  ⟨test_inv_reset, rfl⟩
theorem test_witness_IllegalCommandsChangeOnlyStatus :
    ((offered { cw := 0x16#8, operands := [0] }).port = [{ cw := 0x16#8, operands := [0] }] ∧ decodeOpcode 0x16#8 = none) ∧
    decode { cw := 0x80#8, operands := [2, 0, 0] } = .error .reservedOperand ∧ ([] : List SignalPoint).length ≠ 1 ∧
    (threePoints.take 2).length ≠ 1 ∧ [Bit.one].length % 8 ≠ 0 := by decide
theorem test_witness_BadOperandFieldsAreRefused :
    2 ≤ 2 ∧ 3 ≤ 3 ∧ [Bit.one].length < 2 ∧ (Instr.encMan .one 0 .low).wellFormed = true ∧ [0] ≠ ([] : List Nat) ∧
    [1, 0] ++ [0] = (Instr.encMan .one 0 .low).operandFields := by decide
/-- The level of the first and of the last of two points, a cell of `DESTUFF.BYTE`, and a transaction that ends too soon. -/
theorem test_witness_BadOperandFieldsAreRefused_points :
    (([] : List SignalPoint).length < 1 ∧ (threePoints.take 1).length < 2 ∧ 1 ≤ 2 ∧ 2 ≤ 2) ∧
    decode { cw := 0x92#8, operands := [0, 1, 2, 0, 0, 1, 2] } = .error .reservedOperand ∧
    Opcode.destuffByte ∈ [Opcode.stuffBit, .stuffByte, .destuffBit, .destuffByte] ∧
    decode { cw := 0xB5#8, operands := [1, 2] } = .error .reservedOperand ∧
    (offered { cw := 0x80#8, operands := [1, 0] }).port = [{ cw := 0x80#8, operands := [1, 0] }] ∧
    decode { cw := 0x80#8, operands := [1, 0] } = .error .missingOperand ∧
    decode { cw := 0x20#8, operands := [0] } = .error .extraOperand := by decide
theorem test_witness_StepRunsTheDecodedCommand :
    (offered { cw := 0x30#8, operands := [] }).port = [{ cw := 0x30#8, operands := [] }] ∧
    decode { cw := 0x30#8, operands := [] } = .ok .arm ∧ State.reset.port = [] := ⟨rfl, rfl, rfl⟩
theorem test_witness_DecodeInvertsEncode : (Instr.decMan 2 .low (threePoints.take 2)).wellFormed = true := by decide
theorem test_witness_EncodeInvertsDecode : decode { cw := 0x50#8, operands := [] } = .ok .resume := rfl
theorem test_witness_StartWithoutFramingBeginsASession :
    State.reset.fsm = .idle ∧ [Bit.one] ≠ [] ∧ (∀ c, State.reset.config.cap = some c → [Bit.one].length ≤ c) ∧
    (cappedAt 1).config.cap = some 1 ∧ [Bit.one].length ≤ 1 := by
  refine ⟨rfl, by decide, ?_, rfl, by decide⟩
  intro c h
  cases h
theorem test_witness_StartBitstuffBeginsASession :
    (cappedAt 6).fsm = .idle ∧ bitsOf [1, 1, 1, 1, 1] ≠ [] ∧
    (∀ c, (cappedAt 6).config.cap = some c → (stuffBits (bitsOf [1, 1, 1, 1, 1])).1.length ≤ c) := by
  refine ⟨rfl, by decide, fun c h => by cases h; decide⟩
theorem test_witness_StartBytestuffBeginsASession :
    (cappedAt 32).fsm = .idle ∧ flagByte ≠ [] ∧ flagByte.length % 8 = 0 ∧
    (∀ c, (cappedAt 32).config.cap = some c → (stuffBytes flagByte).1.length ≤ c) := by
  refine ⟨rfl, by decide, by decide, fun c h => by cases h; decide⟩
theorem test_witness_InvalidStartChangesOnlyStatus :
    (cappedAt 5).fsm = .idle ∧ [Bit.one].length % 8 ≠ 0 ∧ (cappedAt 5).config.cap = some 5 ∧
    5 < (frame (framingOf .bitstuff) (bitsOf [1, 1, 1, 1, 1])).1.length ∧ State.reset.config.cap = none ∧
    flagByte.length % 8 = 0 ∧ exec (startInstr .bytestuff .text flagByte) State.reset = .next runningByte := by
  exact ⟨rfl, by decide, rfl, by decide, rfl, by decide, rfl⟩
theorem test_witness_AcceptedStartSetsTheSessionStartValues :
    State.reset.fsm = .idle ∧ exec (startInstr .nrzl .bitstream [.one, .zero]) State.reset = .next running ∧
    running.status = .ok := ⟨rfl, rfl, rfl⟩
/-- The first clause as above; the second's premise is the spec's own dead case, met by the empty payload. -/
theorem test_witness_StartNeverCompletesASession :
    exec (startInstr .bitstuff .bitstream [.one]) State.reset = .next runningOneBit ∧ State.reset.fsm = .idle ∧
    (frame (framingOf .nrzl) []).1 = [] := ⟨rfl, rfl, rfl⟩
theorem test_witness_FsmFollowsTheTransitionTable :
    exec .pause running = .next pausing ∧ exec .tick runningOne = .next completed ∧ runningOne.fsm = .running ∧
    exec .arm State.reset = .next (refusedWith .illegalState State.reset) ∧
    step (offered { cw := 0x60#8, operands := [] }) = .next (refusedWith .illegalCommand State.reset) ∧
    decodeOpcode 0x60#8 = none := ⟨rfl, rfl, rfl, rfl, rfl, by decide⟩
theorem test_witness_CommandsOutOfTheirStateChangeOnlyStatus :
    running.fsm ≠ .idle ∧ completed.fsm ≠ .running ∧ pausing.fsm ≠ .running ∧ State.reset.fsm ≠ .running ∧
    running.fsm ≠ .paused ∧ isUnit (.stuffBit []) = true ∧
    exec (.stuffBit []) running = .next (unitDone (.stuffed [] []) running) := by
  exact ⟨by decide, by decide, by decide, by decide, by decide, rfl, rfl⟩
theorem test_witness_RefusalsAreTestedInOrder :
    running.fsm = .running ∧
    ({ running with port := [{ cw := 0x16#8, operands := [0] }] } : State).port = [{ cw := 0x16#8, operands := [0] }] ∧
    State.reset.fsm = .idle := ⟨rfl, rfl, rfl⟩
theorem test_witness_ArmSetsThePendingFlag :
    runningOne.fsm = .running ∧ exec .arm runningOne = .next armedOne ∧ completed.fsm ≠ .running := by
  exact ⟨rfl, rfl, by decide⟩
theorem test_witness_PauseWritesOnlyTheControlState : running.fsm = .running ∧ pausing.fsm ≠ .running := by decide
theorem test_witness_ResumeContinuesWhereTheSessionLeftOff :
    pausing.fsm = .paused ∧ running.fsm ≠ .paused ∧ running.fsm = .running ∧ 0 < 1 := by decide
/-- A running session of each technique with a bit to step, in the order of the rows of the statement. -/
def runningEach : List State :=
  [running, runningNrzi, after [.startMan .text [.one]], runningDman, runningBit, runningByte]
theorem test_witness_TickEncodesTheCurrentBit :
    runningEach.map State.fsm = List.replicate 6 .running ∧
    runningEach.map State.tech =
      [some .nrzl, some .nrzi, some .manchester, some .diffmanchester, some .bitstuff, some .bytestuff] ∧
    runningEach.map (fun s => s.processedData[s.position]?) =
      [some .one, some .zero, some .one, some .one, some .one, some .zero] ∧
    MachineInv runningNrzi := ⟨rfl, rfl, rfl, test_inv_runningNrzi⟩
theorem test_witness_TickDecodesThePointsJustAppended :
    runningEach.map State.pendingErrorInjection = List.replicate 6 false ∧ MachineInv runningDman :=
  ⟨rfl, test_inv_runningDman⟩
theorem test_witness_ArmedTickComplementsTheBit :
    armedOne.fsm = .running ∧ armedOne.tech = some .nrzl ∧ armedOne.processedData[armedOne.position]? = some .one ∧
    armedOne.pendingErrorInjection = true ∧ lineCodeOf .nrzl = .nrzl ∧ lineCodeOf .diffmanchester = .dman := by decide
theorem test_witness_TickAdvancesAndCompletesAtTheEnd :
    running.fsm = .running ∧ running.tech = some .nrzl ∧ running.processedData[running.position]? = some .one ∧
    runningOne.position + 1 = runningOne.processedData.length := by decide
theorem test_witness_TickFrame :
    exec .tick runningOne = .next completed ∧ exec .tick pausing = .next (refusedWith .illegalState pausing) ∧
    exec .tick (after [.startNrzi .bitstream [.one, .zero]]) = .next runningNrzi ∧ runningNrzi.fsm ≠ .completed := by
  exact ⟨rfl, rfl, rfl, by decide⟩
theorem test_witness_CompletionAppliesTheFramersInverse_plain :
    runningOne.fsm = .running ∧ runningOne.tech = some .nrzl ∧ exec .tick runningOne = .next completed ∧
    completed.fsm = .completed ∧ framingOf .nrzl = .plain ∧ MachineInv runningOne := by
  refine ⟨rfl, rfl, rfl, rfl, rfl, machineInv_of_session .nrzl .bitstream (by decide) (by constructor <;> decide)
    (by constructor <;> decide) (by constructor <;> decide) (by constructor <;> decide)⟩
theorem test_witness_CompletionAppliesTheFramersInverse_bit :
    runningOneBit.fsm = .running ∧ exec .tick runningOneBit = .next completedBit ∧ completedBit.fsm = .completed ∧
    framingOf .bitstuff = .bit ∧ completedBit.decodedBits = asSymbols [.one] ∧
    exec (.destuffBit [.one]) runningOneBit = .next (unitDone (.destuffedBit [.one]) runningOneBit) := by
  exact ⟨rfl, rfl, rfl, rfl, rfl, rfl⟩
/-- The clause holds in every state; the two cells here are no frame, so `err` is true. -/
theorem test_witness_CompletionAppliesTheFramersInverse_byte :
    nearlyByte.fsm = .running ∧ nearlyByte.tech = some .bytestuff ∧ framingOf .bytestuff = .byte ∧
    seen .tick nearlyByte (fun u => (u.fsm, u.decodedBits, u.frameError)) = some (.completed, asSymbols (bitsOf [0, 1]), true) ∧
    exec (.destuffByte (bitsOf [0, 1])) nearlyByte = .next (unitDone (.destuffedByte [] true) nearlyByte) := by
  exact ⟨rfl, rfl, rfl, by decide, rfl⟩
theorem test_witness_VerdictMatchesExactlyWithoutErrors :
    (MachineInv completed ∧ completed.fsm = .completed ∧ completed.tech = some .nrzl ∧ completed.kind = some .bitstream ∧
      framingOf .nrzl = .plain) ∧
    (MachineInv completedInError ∧ completedInError.fsm = .completed ∧ completedInError.errorPositions ≠ []) ∧
    (MachineInv completedBit ∧ completedBit.fsm = .completed ∧ framingOf .bitstuff ≠ .plain) := by
  exact ⟨⟨test_inv_completed, rfl, rfl, rfl, rfl⟩, ⟨test_inv_completedInError, rfl, by decide⟩,
    ⟨test_inv_completedBit, rfl, by decide⟩⟩
theorem test_witness_DecPointCounts :
    ([] : List SignalPoint).length ≠ 1 ∧ (threePoints.take 2).length ≠ 1 ∧ (threePoints.take 2).length ≤ 2 ∧
    ([] : List SignalPoint).length ≤ 2 ∧ ([] : List SignalPoint) ≠ [⟨0, .high⟩, ⟨1, .low⟩] ∧
    [⟨0, .high⟩, ⟨1, .high⟩] ≠ [⟨0, .high⟩, (⟨1, .low⟩ : SignalPoint)] ∧
    (SignalPoint.mk 2 .high).t2 ≠ 2 * 0 ∧ (SignalPoint.mk 0 .low).level = (SignalPoint.mk 1 .low).level := by decide
theorem test_witness_BitDestuffingInvertsStuffing :
    exec (.stuffBit (bitsOf [1, 1, 1, 1, 1])) State.reset =
      .next (unitDone (.stuffed (bitsOf [1, 1, 1, 1, 1, 0]) [5]) State.reset) ∧
    ¬ (List.replicate 5 Bit.one <:+: bitsOf [1, 1, 1, 1]) := ⟨rfl, by decide⟩
/-- In `11111111110` and `1111100` (spec/95_test_vectors.md V2) the cells that go are 10, and 5 alone. -/
theorem test_witness_DestuffBitIsTotal :
    ¬ ((List.replicate 5 Bit.one ++ [Bit.zero]) <:+: bitsOf [1, 1, 1, 1, 1]) ∧
    onesBefore (bitsOf [1, 1, 1, 1, 1, 1, 1, 1, 1, 1, 0]) 10 = 10 ∧ onesBefore (bitsOf [1, 1, 1, 1, 1, 0, 0]) 5 = 5 ∧
    onesBefore (bitsOf [1, 1, 1, 1, 1, 0, 0]) 6 = 0 := by decide
theorem test_witness_StuffByteEscapesFlagAndEsc : ([] : List Bit).length % 8 = 0 ∧ escByte.length % 8 = 0 := by decide
theorem test_witness_ByteDestuffingInvertsStuffing :
    flagByte.length % 8 = 0 ∧
    exec (.stuffByte flagByte) State.reset =
      .next (unitDone (.stuffed (flagByte ++ escByte ++ flagByte ++ flagByte) [8]) State.reset) := ⟨rfl, rfl⟩
theorem test_witness_DestuffByteAcceptsExactlyTheGoodFrames :
    (∀ g ∈ flagSegments, g.good) ∧ (∀ g ∈ ([] : List Segment), g.good) ∧
    destuffBytes Config.default (frameOf flagSegments) = (flagByte ++ bitsOf [0, 1, 0, 0, 0, 0, 0, 1], false) ∧
    ((cappedAt 5).config.cap = some 5 ∧ (bitsOf [0, 1, 1, 1, 1]).length ≤ 5) := by
  refine ⟨?_, by simp, by decide, rfl, by decide⟩
  intro g hg
  simp only [flagSegments, List.mem_cons, List.not_mem_nil, or_false] at hg
  rcases hg with rfl | rfl
  · exact ⟨rfl, by decide⟩
  · exact ⟨rfl, fun _ => by decide⟩
/-- A rest of each kind, at the boundary of its length: 7 cells, an ESC and 7 cells, a FLAG alone, a FLAG and a cell. -/
theorem test_witness_FailedDestuffingKeepsWhatWasCopied :
    State.reset.config.bestEffort = .rule124 ∧ stopsScan (List.replicate 7 .zero) ∧
    stopsScan (escByte ++ List.replicate 7 .zero) ∧ stopsScan flagByte ∧ stopsScan (flagByte ++ [.one]) ∧
    ((∀ g ∈ ([] : List Segment), g.good) ∧ (([] : List Bit) ++ escByte).take 8 ≠ flagByte) ∧
    (flagSegments.flatMap Segment.cells ++ flagByte).take 8 ≠ flagByte := by
  exact ⟨rfl, .inl (by decide), .inr (.inl (by decide)), .inr (.inr rfl), .inr (.inr rfl), ⟨by simp, by decide⟩, by decide⟩
theorem test_witness_UnitOperationsTouchOnlyResultsAndStatus :
    isUnit (.decNrzl 0 .low []) = true ∧ isUnit (.destuffByte []) = true := by decide
theorem test_witness_CommandsLeaveParametersAndPortAlone :
    exec .arm runningOne = .next armedOne ∧ step running = .next running := ⟨rfl, rfl⟩
theorem test_witness_StageOutputsAreImmutable :
    Instr.tick ≠ .reset ∧ isStart .tick = false ∧ exec .tick runningOne = .next completed ∧
    (isStart (.startNrzl .text []) = true ∧ running.fsm ≠ .idle) ∧
    exec (.startNrzl .text []) running = .next (refusedWith .illegalState running) := by
  exact ⟨by decide, rfl, rfl, ⟨rfl, by decide⟩, rfl⟩
theorem test_witness_PositionSetsStayCanonical :
    Memory.wf runningByte = true ∧ step runningByte = .next runningByte := ⟨rfl, rfl⟩
theorem test_witness_EveryStepKeepsTheSessionInvariant :
    MachineInv (offered { cw := 0x00#8, operands := [] }) ∧
    step (offered { cw := 0x00#8, operands := [] }) = .next State.reset := by
  refine ⟨?_, rfl⟩
  show idleAtReset _
  rfl
theorem test_witness_InvariantGivesTheCounters :
    MachineInv runningNrzi ∧ runningNrzi.tech = some .nrzi ∧ lineCodeOf .nrzi = .nrzi ∧ 0 < runningNrzi.position ∧
    runningNrzi.processedData[0]? = some .one ∧ MachineInv runningDman ∧ lineCodeOf .diffmanchester = .dman ∧
    MachineInv State.reset ∧ State.reset.fsm = .idle := by
  exact ⟨test_inv_runningNrzi, rfl, rfl, by decide, rfl, test_inv_runningDman, rfl, test_inv_reset, rfl⟩
/-- A byte-stuffing session of one byte, its frame as long as `CAP`, on an instance whose best effort is not the default. -/
def cappedOther : State :=
  match exec (.startBytestuff .text (bitsOf [0, 1, 0, 0, 0, 0, 0, 1]))
    { State.reset with config := { Config.default with cap := some 24, bestEffort := .other } } with
  | .next t => t
  | .fault _ => State.reset
  | .refused _ => State.reset
theorem test_witness_InvariantGivesTheCounters_capacity :
    (MachineInv cappedOther ∧ cappedOther.config.cap = some 24 ∧ cappedOther.processedData.length = 24) ∧
    ((cappedAt 5).fsm = .idle ∧ bitsOf [1, 1, 1, 1, 1] ≠ [] ∧ Technique.bitstuff ≠ .bytestuff ∧
      (cappedAt 5).config.cap = some 5 ∧ (frame (framingOf .bitstuff) (bitsOf [1, 1, 1, 1, 1])).1.length = 6) := by
  refine ⟨⟨?_, rfl, rfl⟩, rfl, by decide, by decide, rfl, rfl⟩
  exact machineInv_of_session .bytestuff .text (by decide) (by constructor <;> decide) (by constructor <;> decide)
    (by constructor <;> decide) (by constructor <;> decide)
theorem test_witness_InvariantGivesTheInsertedPositions :
    MachineInv runningBit ∧ runningBit.tech = some .bitstuff ∧ runningBit.insertedPositions = [5] ∧ MachineInv runningByte ∧
    runningByte.tech = some .bytestuff ∧ MachineInv running ∧ framingOf .nrzl = .plain := by
  exact ⟨test_inv_runningBit, rfl, rfl, test_inv_runningByte, rfl, test_inv_running, rfl⟩
theorem test_witness_CarriedLevelsFollowTheSignal :
    MachineInv runningDman ∧ runningDman.tech = some .diffmanchester ∧ lineCodeOf .diffmanchester = .dman ∧
    0 < runningDman.position := ⟨test_inv_runningDman, rfl, rfl, by decide⟩
theorem test_witness_ErrorFreeSessionsReconstructTheMessage :
    State.reset.fsm = .idle ∧ exec (startInstr .nrzl .bitstream [.one]) State.reset = .next runningOne ∧
    runningOne.status = .ok ∧ (∀ i ∈ [Instr.pause, .resume, .tick], i ≠ .arm ∧ i ≠ .reset) ∧
    execAll [.pause, .resume, .tick] runningOne = .next completed ∧ completed.fsm = .completed := by
  exact ⟨rfl, rfl, rfl, by decide, rfl, rfl⟩
theorem test_witness_UnframedErrorsShowExactlyWhereTheyWere :
    MachineInv completedInError ∧ completedInError.fsm = .completed ∧ completedInError.tech = some .nrzl ∧
    framingOf .nrzl = .plain ∧ completedInError.origData[0]? = some .one := by
  exact ⟨test_inv_completedInError, rfl, rfl, rfl, rfl⟩
theorem test_witness_InjectionLeavesTheSignalAlone :
    runningOne.tech = some .nrzl ∧ runningOne.fsm = .running ∧
    exec .tick { runningOne with pendingErrorInjection := false } = .next completed ∧
    exec .tick { runningOne with pendingErrorInjection := true } = .next completedInError := by
  exact ⟨rfl, rfl, rfl, rfl⟩
theorem test_witness_SessionsEndAfterTheirRemainingTicks :
    MachineInv running ∧ running.fsm = .running ∧ 1 < running.processedData.length - running.position ∧ running.fsm ≠ .idle ∧
    (∀ i ∈ [Instr.arm, .tick], i ≠ .reset) ∧
    seen .tick running State.position = some 1 := by
  exact ⟨test_inv_running, rfl, by decide, by decide, by decide, by decide⟩
theorem test_witness_TextRoundTrips :
    ∀ c ∈ [Char.ofNat 9, Char.ofNat 32, Char.ofNat 255],
      c.toNat = 9 ∨ c.toNat = 10 ∨ c.toNat = 13 ∨ (32 ≤ c.toNat ∧ c.toNat ≤ 255) := by
  intro c hc
  simp only [List.mem_cons, List.not_mem_nil, or_false] at hc
  rcases hc with rfl | rfl | rfl <;> simp
theorem test_witness_OrigIndexFindsThePayloadCell :
    MachineInv runningByte ∧ runningByte.tech = some .bytestuff ∧
    origIndex (framingOf .bytestuff) runningByte.processedData.length runningByte.insertedPositions 16 = some 0 ∧
    MachineInv runningBit ∧ origIndex (framingOf .bitstuff) runningBit.processedData.length runningBit.insertedPositions 4 = some 4 ∧
    5 < 6 ∧ 5 ∈ [5] ∧ 4 ∉ [5] ∧ (∃ q ∈ [8], q ≤ 15 ∧ 15 < q + 8) ∧ (∀ q ∈ [8], ¬ (q ≤ 16 ∧ 16 < q + 8)) := by
  exact ⟨test_inv_runningByte, rfl, by decide, test_inv_runningBit, by decide, by decide, by decide, by decide, by decide,
    by decide⟩

end Sys2Proof.Tests
end

/-! PROOFS of the state's statements (spec/10_state.md R27, R32 to R35, R52), with the facts about the framers, the streams of
bits and the session invariant that they rest on. -/

/-! ## Where the framers insert (R34, R110, R120) -/

namespace Sys2Proof.Machine

/-- Reading exactly the middle part of a sequence (R13). -/
theorem memRead_middle {α : Type} (u v w : List α) : memRead (u ++ (v ++ w)) u.length v.length = v := by
  simp [memRead]

/-- The bit stuffer writes one cell for each cell read and one for each inserted position. -/
theorem stuffScan_length (c n : Nat) (x : List Bit) :
    (stuffScan c n x).1.length = x.length + (stuffScan c n x).2.length := by
  induction x generalizing c n with
  | nil => rfl
  | cons b x ih =>
    cases b with
    | zero => simp only [stuffScan_zero, List.length_cons, ih]; omega
    | one =>
      by_cases hc : c = 4
      · subst hc; simp only [stuffScan_one_full, List.length_cons, ih]; omega
      · simp only [stuffScan_one c n x hc, List.length_cons, ih]; omega

/-- Each position the bit stuffer inserts is that of a `'0'` it has written. -/
theorem stuffScan_inserted (c n : Nat) (x : List Bit) :
    ∀ p ∈ (stuffScan c n x).2, ∃ u w, (stuffScan c n x).1 = u ++ .zero :: w ∧ p = n + u.length := by
  induction x generalizing c n with
  | nil => simp
  | cons b x ih =>
    intro p hp
    cases b with
    | zero =>
      obtain ⟨u, w, hout, rfl⟩ := ih 0 (n + 1) p hp
      exact ⟨.zero :: u, w, by simp [hout], by simp only [List.length_cons]; omega⟩
    | one =>
      by_cases hc : c = 4
      · subst hc
        rw [stuffScan_one_full] at hp ⊢
        rcases List.mem_cons.mp hp with rfl | hp
        · exact ⟨[.one], _, rfl, rfl⟩
        · obtain ⟨u, w, hout, rfl⟩ := ih 0 (n + 2) p hp
          exact ⟨.one :: .zero :: u, w, by simp [hout], by simp only [List.length_cons]; omega⟩
      · rw [stuffScan_one c n x hc] at hp ⊢
        obtain ⟨u, w, hout, rfl⟩ := ih (c + 1) (n + 1) p hp
        exact ⟨.one :: u, w, by simp [hout], by simp only [List.length_cons]; omega⟩

/-- The byte stuffer writes one byte for each byte read and one for each inserted position. -/
theorem escapeBytes_length (n : Nat) (bs : List (List Bit)) (h8 : ∀ B ∈ bs, B.length = 8) :
    (escapeBytes n bs).1.length = 8 * bs.length + 8 * (escapeBytes n bs).2.length := by
  induction bs generalizing n with
  | nil => rfl
  | cons B bs ih =>
    have hB := h8 B List.mem_cons_self
    have ih := fun m => ih m fun D hD => h8 D (List.mem_cons_of_mem B hD)
    cases h : needsEscape B with
    | true =>
      simp only [escapeBytes_escape n B bs h, List.length_append, List.length_cons, ih, hB, escByte_length]
      omega
    | false =>
      simp only [escapeBytes_copy n B bs h, List.length_append, List.length_cons, ih, hB]
      omega

/-- Each position the byte stuffer inserts is that of an ESC it has written, at a byte boundary. -/
theorem escapeBytes_inserted (n : Nat) (bs : List (List Bit)) (h8 : ∀ B ∈ bs, B.length = 8) :
    ∀ p ∈ (escapeBytes n bs).2, ∃ u w, (escapeBytes n bs).1 = u ++ (escByte ++ w) ∧ u.length % 8 = 0 ∧
      p = n + u.length := by
  induction bs generalizing n with
  | nil => simp [escapeBytes]
  | cons B bs ih =>
    intro p hp
    have hB := h8 B List.mem_cons_self
    have ih := fun m => ih m fun D hD => h8 D (List.mem_cons_of_mem B hD)
    cases h : needsEscape B with
    | true =>
      rw [escapeBytes_escape n B bs h] at hp ⊢
      rcases List.mem_cons.mp hp with rfl | hp
      · exact ⟨[], _, rfl, rfl, rfl⟩
      · obtain ⟨u, w, hout, hu, rfl⟩ := ih (n + 16) p hp
        refine ⟨escByte ++ (B ++ u), w, by simp [hout], ?_, ?_⟩ <;>
          (simp only [List.length_append, escByte_length, hB]; omega)
    | false =>
      rw [escapeBytes_copy n B bs h] at hp ⊢
      obtain ⟨u, w, hout, hu, rfl⟩ := ih (n + 8) p hp
      refine ⟨B ++ u, w, by simp [hout], ?_, ?_⟩ <;> (simp only [List.length_append, hB]; omega)

/-- The length of a byte-stuffed frame: its whole bytes, two FLAGs and an ESC for each inserted position. -/
theorem stuffBytes_length (x : List Bit) :
    (stuffBytes x).1.length = 8 * (x.length / 8) + 16 + 8 * (stuffBytes x).2.length := by
  have hlen := escapeBytes_length 8 (wholeBytes x) (length_of_mem_wholeBytes x)
  rw [wholeBytes_length] at hlen
  simp only [stuffBytes, List.length_append, flagByte_length, hlen]
  omega

/-- Each inserted position of a byte-stuffed frame is that of an ESC at a byte boundary. -/
theorem stuffBytes_inserted (x : List Bit) :
    ∀ p ∈ (stuffBytes x).2, ∃ u w, (stuffBytes x).1 = u ++ (escByte ++ w) ∧ u.length % 8 = 0 ∧ p = u.length := by
  intro p hp
  obtain ⟨u, w, hout, hu, rfl⟩ := escapeBytes_inserted 8 (wholeBytes x) (length_of_mem_wholeBytes x) p hp
  exact ⟨flagByte ++ u, w ++ flagByte, by simp [stuffBytes, hout], by simpa using hu, by simp⟩

/-- Framing never shortens (R52). -/
theorem length_le_frame_length (f : Framing) (p : List Bit) : p.length ≤ (frame f p).1.length := by
  cases f with
  | plain => exact le_refl _
  | bit => exact Nat.le.intro (stuffScan_length 0 0 p).symm
  | byte =>
    have := stuffBytes_length p
    show p.length ≤ (stuffBytes p).1.length
    omega

/-- The inserted positions lie within the framed bitstring (R34). -/
theorem frame_inserted_lt (f : Framing) (p : List Bit) : ∀ q ∈ (frame f p).2, q < (frame f p).1.length := by
  intro q hq
  cases f with
  | plain => simp [frame] at hq
  | bit =>
    obtain ⟨u, w, hout, rfl⟩ := stuffScan_inserted 0 0 p q hq
    simp [frame, stuffBits, hout]
  | byte =>
    obtain ⟨u, w, hout, -, rfl⟩ := stuffBytes_inserted p q hq
    simp [frame, hout]

end Sys2Proof.Machine

/-! ## The signal and the reception of a stream (R27, R35) -/

namespace Sys2Proof.Safety

open Sys2Proof.Machine

/-- Under NRZ-L and NRZ-I the points of a stream stand at the times 0, 1, 2, ... -/
theorem encodeStream_times_single (cfg : Config) (lc : LineCode) (l : Level) (x : List Bit)
    (h : lc = .nrzl ∨ lc = .nrzi) :
    (encodeStream cfg lc 0 l x).1.flatten.map SignalPoint.t2 = (List.range x.length).map (fun n => 2 * n) := by
  induction x using List.reverseRecOn with
  | nil => rfl
  | append_singleton x b ih =>
    simp [encodeStream_snoc, ih, encodeLine_t2_single _ _ _ _ _ h, List.range_succ]

/-- Under Manchester and Differential Manchester they stand at 0, 0.5, 1, ... -/
theorem encodeStream_times_pair (cfg : Config) (lc : LineCode) (l : Level) (x : List Bit)
    (h : lc = .man ∨ lc = .dman) :
    (encodeStream cfg lc 0 l x).1.flatten.map SignalPoint.t2 = List.range (2 * x.length) := by
  induction x using List.reverseRecOn with
  | nil => rfl
  | append_singleton x b ih =>
    simp [encodeStream_snoc, ih, encodeLine_t2_pair _ _ _ _ _ h, Nat.mul_succ, List.range_succ]

/-- A stream has at most two points for each bit. -/
theorem encodeStream_flatten_length_le (cfg : Config) (lc : LineCode) (i : Nat) (l : Level) (x : List Bit) :
    (encodeStream cfg lc i l x).1.flatten.length ≤ 2 * x.length := by
  induction x generalizing i l with
  | nil => exact le_refl _
  | cons b x ih =>
    have hbit := encodeLine_length_le cfg lc b i l
    have hrest := ih (i + 1) (encodeLine cfg lc b i l).2
    simp only [encodeStream, List.flatten_cons, List.length_append, List.length_cons]
    omega

/-- Points after which the level is `m` whatever it was before end at level `m`. -/
theorem getLast_level_of_lastLevel {pts : List SignalPoint} {m : Level} (hne : pts ≠ [])
    (h : ∀ l, lastLevel l pts = m) : pts.getLast?.map SignalPoint.level = some m := by
  have hlast := h m
  have hget := List.getLast?_eq_some_getLast hne
  simp only [lastLevel, hget] at hlast
  rw [hget, Option.map_some, hlast]

/-- Under NRZ-I and Differential Manchester the level carried after a stream is that of its last point (R27). -/
theorem encodeStream_last_level (cfg : Config) (lc : LineCode) (i : Nat) (l : Level) (x : List Bit)
    (h : lc = .nrzi ∨ lc = .dman) (hx : x ≠ []) :
    (encodeStream cfg lc i l x).1.flatten.getLast?.map SignalPoint.level = some (encodeStream cfg lc i l x).2 := by
  induction x using List.reverseRecOn with
  | nil => exact absurd rfl hx
  | append_singleton x b =>
    simp only [encodeStream_snoc, List.flatten_append, List.flatten_singleton]
    rw [List.getLast?_append_of_ne_nil _ (encodeLine_ne_nil _ _ _ _ _)]
    exact getLast_level_of_lastLevel (encodeLine_ne_nil _ _ _ _ _) fun m => lastLevel_encodeLine _ _ _ _ _ m h

/-- No `'?'` is received (R35 (d)). -/
theorem unknown_not_mem_received (errors : List Nat) (i : Nat) (x : List Bit) : .unknown ∉ received errors i x := by
  induction x generalizing i with
  | nil => simp [received]
  | cons b x ih => simp [received, ih]

/-! ## What the session invariant says, part by part -/

/-- In `Idle` the invariant is the reset state, elsewhere a session. -/
theorem machineInv_cases {s : State} (h : MachineInv s) :
    (s.fsm = .idle ∧ idleAtReset s) ∨ (s.fsm ≠ .idle ∧ ∃ t k, SessionInv t k s) := by
  unfold MachineInv at h
  split at h
  · next hi => exact .inl ⟨hi, h⟩
  · next hi => exact .inr ⟨hi, h⟩

/-- R35 (f): in `Idle` every element but `status` has its reset value. -/
theorem resetValues_of_idleAtReset {s : State} (h : idleAtReset s) : ResetValues { s with status := .ok } := by
  rw [idleAtReset] at h
  rw [h]
  constructor <;> rfl

theorem buffers_nil_of_idleAtReset {s : State} (h : idleAtReset s) :
    s.origData = [] ∧ s.processedData = [] ∧ s.signalLog = [] ∧ s.decodedBits = [] ∧ s.finalBits = [] :=
  have hreset := resetValues_of_idleAtReset h
  ⟨hreset.origData, hreset.processedData, hreset.signalLog, hreset.decodedBits, hreset.finalBits⟩

/-- A state with a technique is in a session of that technique. -/
theorem sessionInv_of_tech {s : State} {t : Technique} (h : MachineInv s) (ht : s.tech = some t) :
    ∃ k, SessionInv t k s := by
  rcases machineInv_cases h with ⟨-, hidle⟩ | ⟨-, u, k, hsess⟩
  · have hnone : s.tech = none := (resetValues_of_idleAtReset hidle).tech
    rw [hnone] at ht
    cases ht
  · have hu := hsess.latched.tech.symm.trans ht
    cases hu
    exact ⟨k, hsess⟩

section
variable {t : Technique} {k : Kind} {s : State}

theorem Progress.stepped_length (h : Progress t s) : (stepped s).length = s.position := by
  simpa [stepped] using h.inside

/-- R33. -/
theorem Progress.decodedBits_length (h : Progress t s) : s.decodedBits.length = s.position := by
  rw [h.decoded, received_length, h.stepped_length]

theorem Progress.signalLog_length_le (h : Progress t s) : s.signalLog.length ≤ 2 * s.position := by
  rw [h.signal, ← h.stepped_length]
  exact encodeStream_flatten_length_le _ _ _ _ _

/-- R35 (b), (c). -/
theorem Progress.signal_times_single (h : Progress t s) (hlc : lineCodeOf t = .nrzl ∨ lineCodeOf t = .nrzi) :
    s.signalLog.map SignalPoint.t2 = (List.range s.position).map (fun n => 2 * n) := by
  rw [h.signal, ← h.stepped_length]
  exact encodeStream_times_single _ _ _ _ hlc

theorem Progress.signal_times_pair (h : Progress t s) (hlc : lineCodeOf t = .man ∨ lineCodeOf t = .dman) :
    s.signalLog.map SignalPoint.t2 = List.range (2 * s.position) := by
  rw [h.signal, ← h.stepped_length]
  exact encodeStream_times_pair _ _ _ _ hlc

/-- R35 (d). -/
theorem Progress.decodedBits_ne_unknown (h : Progress t s) (i : Nat) : s.decodedBits[i]? ≠ some .unknown := by
  rw [h.decoded]
  exact fun hi => unknown_not_mem_received _ _ _ (List.mem_of_getElem? hi)

/-- R35 (e). -/
theorem Progress.decodedBits_get (h : Progress t s) {i : Nat} {b : Bit} (hi : i < s.position)
    (hb : s.processedData[i]? = some b) :
    s.decodedBits[i]? = some (.bit (if i ∈ s.errorPositions then b.complement else b)) := by
  have hstep : (stepped s)[i]? = some b := by rw [stepped, List.getElem?_take_of_lt hi, hb]
  rw [h.decoded, received_get _ 0 _ i b hstep, Nat.zero_add]

/-- R52: the framed bitstring of a session is within the capacity. -/
theorem Latched.processedData_length_le (h : Latched t k s) {c : Nat} (hc : s.config.cap = some c) :
    s.processedData.length ≤ c := by
  obtain ⟨-, -, hcap⟩ := (startValid_iff _ _ _).mp h.valid
  rw [h.processed]
  exact hcap c hc

theorem Latched.origData_length_le (h : Latched t k s) : s.origData.length ≤ s.processedData.length := by
  rw [h.processed]
  exact length_le_frame_length _ _

/-- R52: the final bits are within the capacity, whatever `byteDestuffBestEffort`. -/
theorem Outputs.finalBits_length_le (h : Outputs t s) {c : Nat} (hc : s.config.cap = some c)
    (hd : s.decodedBits.length ≤ c) : s.finalBits.length ≤ c := by
  by_cases hf : s.fsm = .completed
  · have hfinal : s.finalBits = (deframe s.config (framingOf t) s.decodedBits).1 := congrArg Prod.fst (h.deframed hf)
    rw [hfinal]
    exact deframe_length_le _ _ _ c hc hd
  · simp [(h.before hf).1]

/-- R52: the bound of every buffer of a session. -/
theorem SessionInv.buffers_bounded (h : SessionInv t k s) {c : Nat} (hc : s.config.cap = some c) :
    s.origData.length ≤ s.processedData.length ∧ s.processedData.length ≤ c ∧ s.signalLog.length ≤ 2 * c ∧
    s.decodedBits.length ≤ c ∧ s.finalBits.length ≤ c := by
  have hpd := h.latched.processedData_length_le hc
  have hpos := h.progress.inside
  have hsig := h.progress.signalLog_length_le
  have hdec : s.decodedBits.length ≤ c := by rw [h.progress.decodedBits_length]; omega
  exact ⟨h.latched.origData_length_le, hpd, by omega, hdec, h.outputs.finalBits_length_le hc hdec⟩

end

/-- R154, R191: in `Idle`, `START` of a payload that is valid but for its length is refused exactly when its framed bitstring is
longer than a finite `CAP`. -/
theorem exec_start_status (s : State) (t : Technique) (k : Kind) (p : List Bit) (hi : s.fsm = .idle) (hp : p ≠ [])
    (h8 : t = .bytestuff → p.length % 8 = 0) :
    ∃ u, exec (startInstr t k p) s = .next u ∧ (u.status = .ok ∨ u.status = .validationError) ∧
      (u.status = .validationError ↔ ∃ c, s.config.cap = some c ∧ c < (frame (framingOf t) p).1.length) := by
  have hbyte : framingOf t = .byte → p.length % 8 = 0 := by cases t <;> simp_all [framingOf]
  have hvalid : startValid s.config (framingOf t) p = true ↔
      ¬ ∃ c, s.config.cap = some c ∧ c < (frame (framingOf t) p).1.length := by
    rw [startValid_iff, and_iff_right hp, and_iff_right hbyte]
    simp
  rw [exec_startInstr]
  cases hv : startValid s.config (framingOf t) p with
  | true => exact ⟨_, startSession_accepted t k p s hi hv, .inl rfl, by simpa using hvalid.mp hv⟩
  | false => exact ⟨_, startSession_invalid t k p s hi hv, .inr rfl, by simpa [hv] using hvalid⟩

/-! ## The statements -/

/-- Settles O52: each clause is read off the session invariant, or off the reset values in `Idle`. -/
theorem invariantGivesTheCounters : Obligations.InvariantGivesTheCounters := by
  refine ⟨fun s c h hc => ?_, exec_start_status, fun s h => ?_⟩
  · rcases machineInv_cases h with ⟨-, hidle⟩ | ⟨-, t, k, hsess⟩
    · obtain ⟨horig, hpd, hsig, hdec, hfinal⟩ := buffers_nil_of_idleAtReset hidle
      simp [horig, hpd, hsig, hdec, hfinal]
    · exact hsess.buffers_bounded hc
  · rcases machineInv_cases h with ⟨hi, hidle⟩ | ⟨hni, t, k, hsess⟩
    · have hreset := resetValues_of_idleAtReset hidle
      have htech : s.tech = none := hreset.tech
      have hpos : s.position = 0 := hreset.position
      have herr : s.errorPositions = [] := hreset.errorPositions
      obtain ⟨-, hpd, -, hdec, -⟩ := buffers_nil_of_idleAtReset hidle
      refine ⟨?_, ?_, ?_, ?_, ?_, ?_, ?_, ?_, fun _ => hreset⟩ <;> simp [hi, htech, hpos, herr, hpd, hdec]
    · have hp := hsess.progress
      have htech : ∀ u, s.tech = some u → u = t := fun u hu => Option.some.inj (hu.symm.trans hsess.latched.tech)
      refine ⟨hp.inside, by simp [hni, hp.done], hp.decodedBits_length, hp.errorsBehind, ?_, ?_,
        hp.decodedBits_ne_unknown, fun i b => hp.decodedBits_get, fun hi => absurd hi hni⟩
      · intro u hu hlc
        exact hp.signal_times_single (htech u hu ▸ hlc)
      · intro u hu hlc
        exact hp.signal_times_pair (htech u hu ▸ hlc)

/-- Settles O53: the latched fields are the framer's, whose lemmas say where it inserts. -/
theorem invariantGivesTheInsertedPositions : Obligations.InvariantGivesTheInsertedPositions := by
  intro s t h ht
  obtain ⟨k, hsess⟩ := sessionInv_of_tech h ht
  obtain ⟨-, -, hvalid, hpd, hins⟩ := hsess.latched
  obtain ⟨-, haligned, -⟩ := (startValid_iff _ _ _).mp hvalid
  rw [hpd, hins]
  refine ⟨frame_inserted_lt _ _, fun hf => ?_, fun hf => ?_, fun hf => ?_⟩ <;> rw [hf]
  · exact ⟨rfl, rfl⟩
  · refine ⟨stuffScan_length 0 0 s.origData, fun p hp => ?_⟩
    obtain ⟨u, w, hout, rfl⟩ := stuffScan_inserted 0 0 s.origData p hp
    simp [frame, stuffBits, hout]
  · refine ⟨?_, fun p hp => ?_⟩
    · have hlen := stuffBytes_length s.origData
      have h8 := haligned hf
      simp only [frame]
      omega
    · obtain ⟨u, w, hout, hu, rfl⟩ := stuffBytes_inserted s.origData p hp
      exact ⟨hu, by rw [frame, hout]; exact memRead_middle u escByte w⟩

/-- Settles O54: the carried level after a stream is that of its last point, and the decoder's level is the encoder's. -/
theorem carriedLevelsFollowTheSignal : Obligations.CarriedLevelsFollowTheSignal := by
  intro s t h ht hlc hpos
  obtain ⟨k, hsess⟩ := sessionInv_of_tech h ht
  have hp := hsess.progress
  have hne : stepped s ≠ [] := List.ne_nil_of_length_pos (by rwa [hp.stepped_length])
  refine ⟨hp.decoder.symm, ?_⟩
  rw [hp.signal, hp.encoder]
  exact encodeStream_last_level _ _ _ _ _ hlc hne

end Sys2Proof.Safety

/-! PROOFS of the encoding's statements about the command word and the readout codes (spec/30_encoding.md R71 to R74, R79, R82,
R83), with the facts about the word's fields that they rest on. -/

/-! ## The command word and its fields (R71 to R75) -/

namespace Sys2Proof

/-- A word is its four fields (R71). -/
theorem packWord_fields (cw : CommandWord) :
    packWord (fieldCls cw).toNat (fieldOp cw).toNat (fieldK cw).toNat (fieldT cw).toNat = cw := by
  have hlt := cw.isLt
  apply BitVec.eq_of_toNat_eq
  simp only [packWord, fieldCls, fieldOp, fieldK, fieldT, BitVec.toNat_ofNat, BitVec.extractLsb'_toNat,
    Nat.shiftRight_eq_div_pow]
  omega

theorem kindOfBit_code (k : BitVec 1) : (kindOfBit k).code = k.toNat := by
  rcases BitVec.eq_zero_or_eq_one k with rfl | rfl <;> rfl

theorem techniqueOfCode_eq_some {t : BitVec 3} {tech : Technique} (h : techniqueOfCode t = some tech) :
    t.toNat = tech.code := by
  unfold techniqueOfCode at h
  split at h <;> cases h <;> assumption

theorem lineCodeOfCode_eq_some {t : BitVec 3} {lc : LineCode} (h : lineCodeOfCode t = some lc) : t.toNat = lc.code := by
  unfold lineCodeOfCode at h
  split at h <;> cases h <;> assumption

theorem bareRow_eq_some {k : BitVec 1} {t : BitVec 3} {o o' : Opcode} (h : bareRow k t o = some o') :
    k.toNat = 0 ∧ t.toNat = 0 ∧ o = o' := by
  obtain ⟨⟨rfl, rfl⟩, ho⟩ := Option.ite_none_right_eq_some.mp h
  exact ⟨rfl, rfl, Option.some.inj ho⟩

theorem unitRow_eq_some {k : BitVec 1} {r : Option Opcode} {o : Opcode} (h : unitRow k r = some o) :
    k.toNat = 0 ∧ r = some o := by
  obtain ⟨rfl, hr⟩ := Option.ite_none_right_eq_some.mp h
  exact ⟨rfl, hr⟩

/-- A `STUFF` or `DESTUFF` row takes `t` 4 for bit stuffing and 5 for byte stuffing, and no other (R84). -/
theorem stuffRow_eq_some {t : BitVec 3} {bitOp byteOp o : Opcode}
    (h : (if t = 4#3 then some bitOp else if t = 5#3 then some byteOp else none) = some o) :
    (t.toNat = 4 ∧ bitOp = o) ∨ (t.toNat = 5 ∧ byteOp = o) := by
  split at h
  · next ht => exact .inl ⟨congrArg BitVec.toNat ht, Option.some.inj h⟩
  · obtain ⟨ht, ho⟩ := Option.ite_none_right_eq_some.mp h
    exact .inr ⟨congrArg BitVec.toNat ht, Option.some.inj ho⟩

/-- A session row's word is the one its fields pack to (R72). -/
theorem encodeOpcode_of_decodeSessionWord {op t : BitVec 3} {k : BitVec 1} {o : Opcode}
    (h : decodeSessionWord op k t = some o) : encodeOpcode o = packWord 0 op.toNat k.toNat t.toNat := by
  unfold decodeSessionWord at h
  split at h
  case h_1 hop | h_3 hop | h_4 hop | h_5 hop | h_6 hop =>
    obtain ⟨hk, ht, rfl⟩ := bareRow_eq_some h
    rw [encodeOpcode, hop, hk, ht]
  case h_2 hop =>
    obtain ⟨tech, ht, rfl⟩ := Option.map_eq_some_iff.mp h
    rw [encodeOpcode, hop, kindOfBit_code, techniqueOfCode_eq_some ht]
  case h_7 => cases h

/-- A unit row's word is the one its fields pack to (R73). -/
theorem encodeOpcode_of_decodeUnitWord {op t : BitVec 3} {k : BitVec 1} {o : Opcode}
    (h : decodeUnitWord op k t = some o) : encodeOpcode o = packWord 1 op.toNat k.toNat t.toNat := by
  unfold decodeUnitWord at h
  split at h
  case h_1 hop | h_2 hop =>
    obtain ⟨hk, hrow⟩ := unitRow_eq_some h
    obtain ⟨lc, ht, rfl⟩ := Option.map_eq_some_iff.mp hrow
    rw [encodeOpcode, hop, hk, lineCodeOfCode_eq_some ht]
  case h_3 hop | h_4 hop =>
    obtain ⟨hk, hrow⟩ := unitRow_eq_some h
    obtain ⟨ht, rfl⟩ | ⟨ht, rfl⟩ := stuffRow_eq_some hrow <;> rw [encodeOpcode, hop, hk, ht]
  case h_5 => cases h

/-- A legal word is the word of the row it names (R84). -/
theorem encodeOpcode_of_decodeOpcode {cw : CommandWord} {o : Opcode} (h : decodeOpcode cw = some o) :
    encodeOpcode o = cw := by
  unfold decodeOpcode at h
  rw [← packWord_fields cw]
  rcases BitVec.eq_zero_or_eq_one (fieldCls cw) with hcls | hcls
  · rw [if_pos hcls] at h
    rw [hcls]
    exact encodeOpcode_of_decodeSessionWord h
  · rw [if_neg (by simp [hcls])] at h
    rw [hcls]
    exact encodeOpcode_of_decodeUnitWord h

theorem decodeOpcode_eq_some_iff {cw : CommandWord} {o : Opcode} : decodeOpcode cw = some o ↔ encodeOpcode o = cw :=
  ⟨encodeOpcode_of_decodeOpcode, fun h => h ▸ decodeOpcode_encodeOpcode o⟩

end Sys2Proof

/-! ## The tables of command words (R72, R73) -/

namespace Sys2Proof.Safety

/-- The word of a row, by the encoder, is the word the tables give it. -/
theorem encodeOpcode_of_mem_words {row : CommandWord × Opcode} (h : row ∈ sessionWords ++ unitWords) :
    encodeOpcode row.2 = row.1 := by
  revert row
  decide

/-- Every opcode has its row in the tables. -/
theorem lookup_words_encodeOpcode (o : Opcode) : (sessionWords ++ unitWords).lookup (encodeOpcode o) = some o := by
  cases o with
  | start t k => cases t <;> cases k <;> rfl
  | enc lc => cases lc <;> rfl
  | dec lc => cases lc <;> rfl
  | _ => rfl

theorem lookup_words_eq_some_iff {cw : CommandWord} {o : Opcode} :
    (sessionWords ++ unitWords).lookup cw = some o ↔ encodeOpcode o = cw := by
  refine ⟨fun h => ?_, fun h => h ▸ lookup_words_encodeOpcode o⟩
  obtain ⟨before, after, hrows, -⟩ := List.lookup_eq_some_iff.mp h
  exact encodeOpcode_of_mem_words (row := (cw, o)) (by simp [hrows])

/-- Settles O2: the decoder and the tables name an opcode at the same word, the one the encoder writes. -/
theorem commandWordsNameTheTableRows : Obligations.CommandWordsNameTheTableRows := by
  intro cw
  ext o
  exact decodeOpcode_eq_some_iff.trans lookup_words_eq_some_iff.symm

end Sys2Proof.Safety

/-! ## The codes the host reads (R79, R83) -/

namespace Sys2Proof.Machine

@[simp] theorem symbolOfCode_symbolCode (y : Symbol) : symbolOfCode (symbolCode y) = some y := by
  cases y with
  | bit b => cases b <;> rfl
  | unknown => rfl

@[simp] theorem symbolOfCode_reserved : symbolOfCode 3#2 = none := rfl

/-- The reserved code is not read as a symbol, so it is no symbol's code. -/
theorem symbolCode_ne_reserved (y : Symbol) : symbolCode y ≠ 3#2 := by
  intro h
  have hread := symbolOfCode_symbolCode y
  rw [h, symbolOfCode_reserved] at hread
  cases hread

theorem verdictCode_ne_reserved (v : Verdict) : verdictCode v ≠ 3#2 := by
  cases v <;> decide

theorem kindCode_ne_reserved (k : Option Kind) : kindCode k ≠ 2#2 := by
  cases k with
  | none => decide
  | some k => cases k <;> decide

end Sys2Proof.Machine

namespace Sys2Proof.Safety

open Sys2Proof.Machine

/-- Settles O9: each code of R79, R82 and R83 is read off the function that gives it, and the reserved ones are no value's. -/
theorem readCodesAreTheSpecs : Obligations.ReadCodesAreTheSpecs := by
  exact ⟨⟨rfl, rfl, rfl, fun y => ⟨symbolCode_ne_reserved y, symbolOfCode_symbolCode y⟩⟩, symbolOfCode_reserved,
    ⟨rfl, rfl, rfl, rfl⟩, ⟨rfl, rfl, rfl, rfl⟩, ⟨rfl, rfl, rfl, verdictCode_ne_reserved⟩,
    ⟨rfl, rfl, rfl, rfl, rfl, rfl, rfl⟩, ⟨rfl, rfl, rfl, kindCode_ne_reserved⟩, rfl, rfl⟩

end Sys2Proof.Safety

/-! PROOFS of the Bit/Text Codec's statement (spec/40_bit_text_codec_host.md R101, R102, R107). -/

/-! ## One field (R101, R102) -/

namespace Sys2Proof.Machine

@[simp] theorem digitBit_code (v j : Nat) : (digitBit v j).code = v / 2 ^ j % 2 := by
  rcases Nat.mod_two_eq_zero_or_one (v / 2 ^ j) with h | h <;> simp [digitBit, h, Bit.code]

@[simp] theorem byteField_length (v : Nat) : (byteField v).length = 8 := rfl

/-- One more binary digit of a value, in Horner's scheme. -/
theorem two_mul_div_add_code (v j : Nat) : 2 * (v / 2 ^ (j + 1)) + (digitBit v j).code = v / 2 ^ j := by
  rw [digitBit_code, pow_succ, ← Nat.div_div_eq_div_mul, Nat.div_add_mod]

/-- Reading the field back, digit by digit, gives the value that was written. -/
theorem byteValue_byteField {v : Nat} (h : v ≤ 255) : byteValue (byteField v) = v := by
  have hread : (byteField v).foldl (fun a b => 2 * a + b.code) (v / 2 ^ 8) = v := by
    simp only [byteField, List.foldl_cons, List.foldl_nil, two_mul_div_add_code, pow_zero, Nat.div_one]
  rwa [Nat.div_eq_of_lt (by omega)] at hread

@[simp] theorem bitsOfSymbols_asSymbols (x : List Bit) : bitsOfSymbols (asSymbols x) = some x := by
  induction x with
  | nil => rfl
  | cons b x ih => simp [bitsOfSymbols, ih]

/-- A field with a printable value is read as that value's character, padded or not. -/
theorem fieldText_of_printable (padded : Bool) (x : List Bit) (h : printable (byteValue x) = true) :
    fieldText padded (asSymbols x) = [Char.ofNat (byteValue x)] := by
  simp [fieldText, h]

/-- The field of a printable character that `textToBits` accepts is read as that character. -/
theorem fieldText_byteField (padded : Bool) (c : Char) (hp : printable c.toNat = true) (hle : c.toNat ≤ 255) :
    fieldText padded (asSymbols (byteField c.toNat)) = [c] := by
  have hv : byteValue (byteField c.toNat) = c.toNat := byteValue_byteField hle
  rw [fieldText_of_printable padded _ (by rwa [hv]), hv, Char.ofNat_toNat]

/-! ## A text, one character at a time -/

theorem textToBits_cons (c : Char) (text : List Char) (h : c.toNat ≤ 255) :
    textToBits (c :: text) = (textToBits text).map (fun bits => byteField c.toNat ++ bits) :=
  if_pos h

/-- Without padding no field is special. -/
theorem fieldsText_unpadded_cons (f : List Symbol) (fs : List (List Symbol)) :
    fieldsText false (f :: fs) = fieldText false f ++ fieldsText false fs := by
  cases fs with
  | nil => simp [fieldsText]
  | cons g gs => rfl

/-- Whole bytes are read without padding. -/
theorem bitsToText_of_aligned (s : List Symbol) (h : s.length % 8 = 0) :
    bitsToText s = fieldsText false (wholeBytes s) := by
  simp [bitsToText, padLength, h]

/-- The first byte of whole bytes is read first, whatever follows it. -/
theorem bitsToText_append (B s : List Symbol) (hB : B.length = 8) (hs : s.length % 8 = 0) :
    bitsToText (B ++ s) = fieldText false B ++ bitsToText s := by
  have haligned : (B ++ s).length % 8 = 0 := by rw [List.length_append]; omega
  rw [bitsToText_of_aligned _ haligned, bitsToText_of_aligned s hs, wholeBytes_append B s hB, fieldsText_unpadded_cons]

/-- The characters R107 names are those that `bitsToText` maps to themselves and `textToBits` accepts. -/
theorem printable_and_le_of_restored {v : Nat} (h : v = 9 ∨ v = 10 ∨ v = 13 ∨ (32 ≤ v ∧ v ≤ 255)) :
    printable v = true ∧ v ≤ 255 := by
  simp only [printable, Bool.or_eq_true, decide_eq_true_eq]
  omega

end Sys2Proof.Machine

namespace Sys2Proof.Safety

open Sys2Proof.Machine

/-- Settles O59, by induction on the text: each character becomes one whole field, read back before the fields after it. -/
theorem textRoundTrips : Obligations.TextRoundTrips := by
  intro text htext
  induction text with
  | nil => exact ⟨[], rfl, rfl, rfl⟩
  | cons c text ih =>
    obtain ⟨hc, hrest⟩ := List.forall_mem_cons.mp htext
    obtain ⟨hp, hle⟩ := printable_and_le_of_restored hc
    obtain ⟨bits, hbits, hlen, hback⟩ := ih hrest
    refine ⟨byteField c.toNat ++ bits, by simp [textToBits_cons c text hle, hbits], ?_, ?_⟩
    · rw [List.length_append, byteField_length, hlen, List.length_cons]; omega
    · have haligned : (asSymbols bits).length % 8 = 0 := by rw [asSymbols_length, hlen]; omega
      rw [asSymbols_append, bitsToText_append _ _ (by simp) haligned, fieldText_byteField false c hp hle, hback]
      rfl

end Sys2Proof.Safety

/-! PROOFS of the bit stuffer's and destuffer's statements (spec/41_framer_bit_stuffing.md R110 to R113). A scan that has just
read `r` consecutive `'1'`s is followed as if those `r` cells still stood before its input. -/

/-! ## Cells that stay (R111 (d), R112) -/

namespace Sys2Proof.Safety

open Sys2Proof.Machine

/-- `withoutCells` on the part `x` of a Bitstring that begins at the index `n`. -/
def withoutCellsFrom (n : Nat) (x : List Bit) (ins : List Nat) : List Bit :=
  ((x.zipIdx n).filter (fun c => decide (c.2 ∉ ins))).map (fun c => c.1)

theorem withoutCells_eq_from (x : List Bit) (ins : List Nat) : withoutCells x ins = withoutCellsFrom 0 x ins := rfl

@[simp] theorem withoutCellsFrom_nil (n : Nat) (ins : List Nat) : withoutCellsFrom n [] ins = [] := rfl

theorem withoutCellsFrom_gone {n : Nat} {ins : List Nat} (b : Bit) (x : List Bit) (h : n ∈ ins) :
    withoutCellsFrom n (b :: x) ins = withoutCellsFrom (n + 1) x ins := by
  simp [withoutCellsFrom, List.zipIdx_cons, h]

theorem withoutCellsFrom_kept {n : Nat} {ins : List Nat} (b : Bit) (x : List Bit) (h : n ∉ ins) :
    withoutCellsFrom n (b :: x) ins = b :: withoutCellsFrom (n + 1) x ins := by
  simp [withoutCellsFrom, List.zipIdx_cons, h]

/-- An index before the part says nothing about its cells. -/
theorem withoutCellsFrom_cons_of_lt {n p : Nat} (x : List Bit) (ins : List Nat) (h : p < n) :
    withoutCellsFrom n x (p :: ins) = withoutCellsFrom n x ins := by
  induction x generalizing n with
  | nil => rfl
  | cons b x ih =>
    have hn : n ∈ p :: ins ↔ n ∈ ins := by simp [Nat.ne_of_gt h]
    have ih := ih (Nat.lt_succ_of_lt h)
    by_cases hmem : n ∈ ins
    · rw [withoutCellsFrom_gone b x (hn.mpr hmem), withoutCellsFrom_gone b x hmem, ih]
    · rw [withoutCellsFrom_kept b x (mt hn.mp hmem), withoutCellsFrom_kept b x hmem, ih]

theorem withoutCells_sublist (x : List Bit) (ins : List Nat) : (withoutCells x ins).Sublist x := by
  have hkept := (List.filter_sublist (l := x.zipIdx) (p := fun c => decide (c.2 ∉ ins))).map Prod.fst
  rwa [List.zipIdx_map_fst] at hkept

end Sys2Proof.Safety

/-! ## Runs of ones -/

namespace Sys2Proof.Machine

open Sys2Proof.Safety

/-- What begins at a `'0'` and holds none is empty. -/
theorem eq_nil_of_prefix_zero {l w : List Bit} (h : l <+: .zero :: w) (hl : Bit.zero ∉ l) : l = [] := by
  rcases List.prefix_cons_iff.mp h with rfl | ⟨t, rfl, -⟩
  · rfl
  · exact absurd List.mem_cons_self hl

/-- A run of ones does not go across a `'0'`. -/
theorem ones_infix_of_append_zero {m : Nat} {u w : List Bit} (h : List.replicate m Bit.one <:+: u ++ .zero :: w) :
    List.replicate m Bit.one <:+: u ∨ List.replicate m Bit.one <:+: w := by
  have hzero : Bit.zero ∉ List.replicate m Bit.one := fun hmem => nomatch List.eq_of_mem_replicate hmem
  rcases List.infix_append_iff.mp h with hu | hw | ⟨l₁, l₂, hl, hsuffix, hprefix⟩
  · exact .inl hu
  · rcases List.infix_cons_iff.mp hw with hprefix | hw
    · exact .inl (eq_nil_of_prefix_zero hprefix hzero ▸ List.nil_infix)
    · exact .inr hw
  · have hl₂ : l₂ = [] := eq_nil_of_prefix_zero hprefix fun hmem => hzero (hl ▸ List.mem_append_right l₁ hmem)
    rw [hl₂, List.append_nil] at hl
    exact .inl (hl ▸ hsuffix.isInfix)

/-- What is found after a cell is found before it too. -/
theorem infix_append_cons {l x : List Bit} (u : List Bit) (b : Bit) (h : l <:+: x) : l <:+: u ++ b :: x :=
  h.trans ((List.suffix_cons b x).trans (List.suffix_append u (b :: x))).isInfix

/-- A `'1'` read after `r` others is the last of `r + 1`. -/
theorem ones_append_one (r : Nat) (x : List Bit) :
    List.replicate r Bit.one ++ .one :: x = List.replicate (r + 1) Bit.one ++ x := by
  simp [List.replicate_succ']

/-- Enough ones before a part hold `m` of them that end where it begins. -/
theorem ones_append_infix {m r : Nat} {y x : List Bit} (h : m ≤ r) (hy : y <+: x) :
    List.replicate m Bit.one ++ y <:+: List.replicate r Bit.one ++ x := by
  obtain ⟨k, rfl⟩ := Nat.exists_eq_add_of_le' h
  obtain ⟨t, rfl⟩ := hy
  exact ⟨List.replicate k Bit.one, t, by simp only [List.replicate_add, List.append_assoc]⟩

/-! ## The stuffer (R110, R111) -/

theorem exec_stuffBit (x : List Bit) (s : State) :
    exec (.stuffBit x) s = .next (unitDone (.stuffed (stuffBits x).1 (stuffBits x).2) s) := rfl

/-- After at most four ones, what the stuffer writes makes no run of six. -/
theorem stuffScan_no_six_ones {c : Nat} (n : Nat) (x : List Bit) (hc : c ≤ 4) :
    ¬ List.replicate 6 Bit.one <:+: List.replicate c Bit.one ++ (stuffScan c n x).1 := by
  have hfew : ∀ k ≤ 5, ¬ List.replicate 6 Bit.one <:+: List.replicate k Bit.one := by
    intro k hk h
    have := h.length_le
    simp only [List.length_replicate] at this
    omega
  induction x generalizing c n with
  | nil => simpa using hfew c (by omega)
  | cons b x ih =>
    have hrest := fun m => ih (c := 0) m (Nat.zero_le 4)
    simp only [List.replicate_zero, List.nil_append] at hrest
    cases b with
    | zero =>
      rw [stuffScan_zero]
      intro h
      exact (ones_infix_of_append_zero h).elim (hfew c (by omega)) (hrest _)
    | one =>
      by_cases h4 : c = 4
      · subst h4
        rw [stuffScan_one_full, ones_append_one]
        intro h
        exact (ones_infix_of_append_zero h).elim (hfew 5 (by omega)) (hrest _)
      · rw [stuffScan_one c n x h4, ones_append_one]
        exact ih (n + 1) (by omega)

/-- Without the inserted cells the output is the input. -/
theorem withoutCellsFrom_stuffScan (c n : Nat) (x : List Bit) :
    withoutCellsFrom n (stuffScan c n x).1 (stuffScan c n x).2 = x := by
  induction x generalizing c n with
  | nil => rfl
  | cons b x ih =>
    have hcur : n ∉ (stuffScan c n (b :: x)).2 := fun h => lt_irrefl n ((stuffScan_positions c n (b :: x)).1 n h)
    cases b with
    | zero =>
      rw [stuffScan_zero] at hcur ⊢
      rw [withoutCellsFrom_kept _ _ hcur, ih]
    | one =>
      by_cases h4 : c = 4
      · subst h4
        rw [stuffScan_one_full] at hcur ⊢
        rw [withoutCellsFrom_kept _ _ hcur, withoutCellsFrom_gone _ _ List.mem_cons_self,
          withoutCellsFrom_cons_of_lt _ _ (Nat.lt_succ_self (n + 1)), ih]
      · rw [stuffScan_one c n x h4] at hcur ⊢
        rw [withoutCellsFrom_kept _ _ hcur, ih]

/-- After `r` ones, with one insertion for each full five of them, the stuffer makes one for every full five that follow
(R111 (e)). -/
theorem stuffScan_inserted_length (r n : Nat) (x : List Bit) :
    (stuffScan (r % 5) n x).2.length + r / 5 = fullRuns r x := by
  induction x generalizing r n with
  | nil => simp [fullRuns]
  | cons b x ih =>
    cases b with
    | zero =>
      have hrest := ih 0 (n + 1)
      simp only [Nat.zero_mod, Nat.zero_div, Nat.add_zero] at hrest
      rw [stuffScan_zero, fullRuns, hrest, Nat.add_comm]
    | one =>
      rw [fullRuns]
      by_cases h4 : r % 5 = 4
      · have hrest := ih (r + 1) (n + 2)
        rw [show (r + 1) % 5 = 0 by omega] at hrest
        rw [h4, stuffScan_one_full, List.length_cons]
        omega
      · have hrest := ih (r + 1) (n + 1)
        rw [show (r + 1) % 5 = r % 5 + 1 by omega, show (r + 1) / 5 = r / 5 by omega] at hrest
        rwa [stuffScan_one _ n x h4]

/-- With no run of five ones the stuffer inserts nothing. -/
theorem stuffScan_of_no_five_ones (c n : Nat) (x : List Bit)
    (h : ¬ List.replicate 5 Bit.one <:+: List.replicate c Bit.one ++ x) : stuffScan c n x = (x, []) := by
  induction x generalizing c n with
  | nil => rfl
  | cons b x ih =>
    cases b with
    | zero =>
      rw [stuffScan_zero, ih 0 _ fun hx => h (infix_append_cons _ .zero hx)]
    | one =>
      rw [ones_append_one] at h
      have h4 : c ≠ 4 := by
        rintro rfl
        exact h List.infix_append_left
      rw [stuffScan_one c n x h4, ih (c + 1) _ h]

/-! ## The destuffer (R112) -/

theorem exec_destuffBit (x : List Bit) (s : State) :
    exec (.destuffBit x) s = .next (unitDone (.destuffedBit (destuffBits x)) s) := rfl

/-- The destuffer takes back what the stuffer wrote, their counters being equal (R113). -/
theorem destuffScan_stuffScan (c n : Nat) (x : List Bit) : destuffScan .zero .one c (stuffScan c n x).1 = x := by
  induction x generalizing c n with
  | nil => simp
  | cons b x ih =>
    cases b with
    | zero => rw [stuffScan_zero, destuffScan_other _ _ _ _ _ (by decide), ih]
    | one =>
      by_cases h4 : c = 4
      · subst h4
        rw [stuffScan_one_full, destuffScan_full_drop, ih]
      · rw [stuffScan_one c n x h4, destuffScan_one _ _ _ _ h4, ih]

/-- What the destuffer still writes when it has read `r` consecutive ones and `x` is to come: its own counter is `r` modulo
5, and a `'0'` directly after a counted fifth one is not written. -/
def destuffAfter (r : Nat) (x : List Bit) : List Bit :=
  if 0 < r ∧ r % 5 = 0 ∧ x.head? = some .zero then destuffScan .zero .one 0 x.tail
  else destuffScan .zero .one (r % 5) x

@[simp] theorem destuffAfter_start (x : List Bit) : destuffAfter 0 x = destuffBits x := by
  simp [destuffAfter, destuffBits]

@[simp] theorem destuffAfter_nil (r : Nat) : destuffAfter r [] = [] := by simp [destuffAfter]

theorem destuffAfter_zero_gone {r : Nat} (x : List Bit) (h : 0 < r ∧ r % 5 = 0) :
    destuffAfter r (.zero :: x) = destuffAfter 0 x := by
  simp [destuffAfter, h]

theorem destuffAfter_zero_kept {r : Nat} (x : List Bit) (h : ¬ (0 < r ∧ r % 5 = 0)) :
    destuffAfter r (.zero :: x) = .zero :: destuffAfter 0 x := by
  rw [destuffAfter, if_neg fun hr => h ⟨hr.1, hr.2.1⟩, destuffScan_other _ _ _ _ _ (by decide), destuffAfter_start,
    destuffBits]

theorem destuffAfter_one (r : Nat) (x : List Bit) : destuffAfter r (.one :: x) = .one :: destuffAfter (r + 1) x := by
  have hread : destuffAfter r (.one :: x) = destuffScan .zero .one (r % 5) (.one :: x) := by simp [destuffAfter]
  rw [hread]
  by_cases h4 : r % 5 = 4
  · have hfive : (r + 1) % 5 = 0 := by omega
    rw [h4, destuffAfter, hfive]
    match x with
    | [] => simp [destuffScan_full_end]
    | .zero :: x => simp [destuffScan_full_drop]
    | .one :: x => simp [destuffScan_full_keep]
  · have hnext : (r + 1) % 5 = r % 5 + 1 := by omega
    rw [destuffScan_one _ _ _ _ h4, destuffAfter, if_neg (by omega), hnext]

/-- Where no `'0'` follows five ones, the destuffer discards nothing. -/
theorem destuffAfter_of_no_five_ones_zero (r : Nat) (x : List Bit)
    (h : ¬ (List.replicate 5 Bit.one ++ [Bit.zero]) <:+: List.replicate r Bit.one ++ x) : destuffAfter r x = x := by
  induction x generalizing r with
  | nil => simp
  | cons b x ih =>
    cases b with
    | zero =>
      have hfew : ¬ (0 < r ∧ r % 5 = 0) := by
        intro hr
        have hfive : 5 ≤ r := by omega
        exact h (ones_append_infix hfive (List.prefix_append [Bit.zero] x))
      rw [destuffAfter_zero_kept x hfew, ih 0 fun hx => h (infix_append_cons _ .zero hx)]
    | one =>
      rw [ones_append_one] at h
      rw [destuffAfter_one, ih (r + 1) h]

end Sys2Proof.Machine

/-! ## The cells the destuffer discards (R112) -/

namespace Sys2Proof.Safety

open Sys2Proof.Machine

/-- The indices R112 discards: the `'0'`s directly after a run of ones whose length is a positive multiple of 5. -/
def discarded (x : List Bit) : List Nat :=
  (List.range x.length).filter (fun k => decide (x[k]? = some .zero ∧ 0 < onesBefore x k ∧ onesBefore x k % 5 = 0))

theorem mem_discarded {x : List Bit} {k : Nat} :
    k ∈ discarded x ↔ x[k]? = some .zero ∧ 0 < onesBefore x k ∧ onesBefore x k % 5 = 0 := by
  simp only [discarded, List.mem_filter, List.mem_range, decide_eq_true_eq, and_iff_right_iff_imp]
  exact fun h => (List.getElem?_eq_some_iff.mp h.1).1

/-- From the index `k` on, the destuffer writes the cells that are not discarded. -/
theorem destuffAfter_onesBefore {x s : List Bit} {k : Nat} (h : x.drop k = s) :
    destuffAfter (onesBefore x k) s = withoutCellsFrom k s (discarded x) := by
  induction s generalizing k with
  | nil => simp
  | cons b s ih =>
    have hcell : x[k]? = some b := by rw [← List.head?_drop, h, List.head?_cons]
    have ih := ih (k := k + 1) (by rw [← List.tail_drop, h, List.tail_cons])
    cases b with
    | zero =>
      rw [onesBefore_zero x k hcell] at ih
      by_cases hfull : 0 < onesBefore x k ∧ onesBefore x k % 5 = 0
      · rw [destuffAfter_zero_gone s hfull, withoutCellsFrom_gone _ s (mem_discarded.mpr ⟨hcell, hfull⟩), ih]
      · rw [destuffAfter_zero_kept s hfull, withoutCellsFrom_kept _ s fun hk => hfull (mem_discarded.mp hk).2, ih]
    | one =>
      have hkept : k ∉ discarded x := fun hk => by simpa [hcell] using (mem_discarded.mp hk).1
      rw [onesBefore_one x k hcell] at ih
      rw [destuffAfter_one, withoutCellsFrom_kept _ s hkept, ih]

theorem destuffBits_eq_withoutCells (x : List Bit) : destuffBits x = withoutCells x (discarded x) := by
  rw [← destuffAfter_start, ← onesBefore_start x, withoutCells_eq_from]
  exact destuffAfter_onesBefore rfl

/-- The transaction with the word 0xB4 and a Bitstring is `DESTUFF.BIT` of it. -/
theorem decode_destuffBit (x : List Bit) :
    decode { cw := 0xB4#8, operands := bitstringFields x } = .ok (.destuffBit x) := by
  have hread : readBitstring (bitstringFields x) = .ok (x, []) := by simpa using readBitstring_fields x []
  have hword : decodeOpcode 0xB4#8 = some .destuffBit := decodeOpcode_encodeOpcode .destuffBit
  simp [decode, hword, decodeOperands, hread, finish]

/-! ## The statements -/

/-- Settles O38: each clause is the scan's own property, from the start of the input. -/
theorem stuffBitBreaksEveryRunOfFive : Obligations.StuffBitBreaksEveryRunOfFive := by
  intro s x
  refine ⟨_, _, exec_stuffBit x s, stuffScan_length 0 0 x, fun p hp => ?_, stuffScan_no_six_ones 0 x (Nat.zero_le 4),
    withoutCellsFrom_stuffScan 0 0 x, stuffScan_inserted_length 0 0 x⟩
  obtain ⟨u, w, hout, rfl⟩ := stuffScan_inserted 0 0 x p hp
  simp [stuffBits, hout]

/-- Settles O39: the two scans keep equal counters, and without a run of five the stuffer copies. -/
theorem bitDestuffingInvertsStuffing : Obligations.BitDestuffingInvertsStuffing := by
  intro s u x out ins hexec hres
  rw [exec_stuffBit] at hexec
  obtain rfl := Host.Outcome.next.inj hexec
  obtain ⟨rfl, rfl⟩ := Result.stuffed.inj (Option.some.inj hres)
  have hback : destuffBits (stuffBits x).1 = x := destuffScan_stuffScan 0 0 x
  refine ⟨by rw [exec_destuffBit, hback], fun hfew => ?_⟩
  exact Prod.mk.inj (stuffScan_of_no_five_ones 0 0 x hfew)

/-- Settles O40: the destuffer's counter is the length of the run of ones so far, modulo 5. -/
theorem destuffBitIsTotal : Obligations.DestuffBitIsTotal := by
  intro s x
  refine ⟨decode_destuffBit x, _, exec_destuffBit x s, destuffBits_eq_withoutCells x, ?_, fun hfew => ?_⟩
  · rw [destuffBits_eq_withoutCells]
    exact withoutCells_sublist x _
  · rw [← destuffAfter_start]
    exact destuffAfter_of_no_five_ones_zero 0 x hfew

end Sys2Proof.Safety

/-! PROOFS of the byte stuffer's and destuffer's statements (spec/42_framer_byte_stuffing.md R120 to R126). What the stuffer
writes and what the destuffer reads are both followed segment by segment: a plain byte, or an ESC and the byte it escapes. -/

/-! ## The bytes the stuffer escapes (R120, R121) -/

namespace Sys2Proof.Machine

open Sys2Proof.Safety

theorem exec_stuffByte (x : List Bit) (s : State) (h : x.length % 8 = 0) :
    exec (.stuffByte x) s = .next (unitDone (.stuffed (stuffBytes x).1 (stuffBytes x).2) s) :=
  if_pos (by simpa [byteAligned] using h)

theorem needsEscape_eq : needsEscape = fun B => decide (B = flagByte ∨ B = escByte) :=
  funext fun _ => by simp [needsEscape]

/-- The byte stuffer inserts one ESC for each byte that needs one. -/
theorem escapeBytes_inserted_length (n : Nat) (bs : List (List Bit)) :
    (escapeBytes n bs).2.length = (bs.filter needsEscape).length := by
  induction bs generalizing n with
  | nil => rfl
  | cons B bs ih =>
    cases h : needsEscape B with
    | true => simp [escapeBytes_escape n B bs h, h, ih]
    | false => simp [escapeBytes_copy n B bs h, h, ih]

/-- A byte that needs an ESC stands after each ESC the byte stuffer inserts. -/
theorem escapeBytes_inserted_escapes (n : Nat) (bs : List (List Bit)) (h8 : ∀ B ∈ bs, B.length = 8) :
    ∀ p ∈ (escapeBytes n bs).2, ∃ u B w, (escapeBytes n bs).1 = u ++ (escByte ++ (B ++ w)) ∧ needsEscape B = true ∧
      p = n + u.length := by
  induction bs generalizing n with
  | nil => simp [escapeBytes]
  | cons B bs ih =>
    intro p hp
    have hB := h8 B List.mem_cons_self
    have ih := fun m => ih m fun D hD => h8 D (List.mem_cons_of_mem B hD)
    cases h : needsEscape B with
    | true =>
      rw [escapeBytes_escape n B bs h] at hp ⊢
      rcases List.mem_cons.mp hp with rfl | hp
      · exact ⟨[], B, _, rfl, h, rfl⟩
      · obtain ⟨u, D, w, hout, hD, rfl⟩ := ih (n + 16) p hp
        exact ⟨escByte ++ (B ++ u), D, w, by simp [hout], hD, by simp only [List.length_append, escByte_length, hB]; omega⟩
    | false =>
      rw [escapeBytes_copy n B bs h] at hp ⊢
      obtain ⟨u, D, w, hout, hD, rfl⟩ := ih (n + 8) p hp
      exact ⟨B ++ u, D, w, by simp [hout], hD, by simp only [List.length_append, hB]; omega⟩

theorem length_of_needsEscape {B : List Bit} (h : needsEscape B = true) : B.length = 8 := by
  rcases (needsEscape_iff B).mp h with rfl | rfl <;> rfl

/-- Each inserted position of a byte-stuffed frame is that of an ESC between the two FLAGs, before a FLAG or an ESC
(R121 (c)). -/
theorem stuffBytes_inserted_escapes (x : List Bit) :
    ∀ p ∈ (stuffBytes x).2, p % 8 = 0 ∧ 8 ≤ p ∧ p + 24 ≤ (stuffBytes x).1.length ∧
      memRead (stuffBytes x).1 p 8 = escByte ∧
      (memRead (stuffBytes x).1 (p + 8) 8 = flagByte ∨ memRead (stuffBytes x).1 (p + 8) 8 = escByte) := by
  intro p hp
  have hmod : p % 8 = 0 := by
    obtain ⟨u, w, -, hu, rfl⟩ := stuffBytes_inserted x p hp
    exact hu
  obtain ⟨u, B, w, hout, hB, rfl⟩ := escapeBytes_inserted_escapes 8 (wholeBytes x) (length_of_mem_wholeBytes x) p hp
  have hframe : (stuffBytes x).1 = (flagByte ++ u) ++ (escByte ++ (B ++ (w ++ flagByte))) := by simp [stuffBytes, hout]
  have hlen := length_of_needsEscape hB
  have hesc : memRead (stuffBytes x).1 (8 + u.length) 8 = escByte := by
    simpa [hframe] using memRead_middle (flagByte ++ u) escByte (B ++ (w ++ flagByte))
  have hbyte : memRead (stuffBytes x).1 (8 + u.length + 8) 8 = B := by
    simpa [hframe, hlen, Nat.add_assoc] using memRead_middle (flagByte ++ u ++ escByte) B (w ++ flagByte)
  refine ⟨hmod, by omega, ?_, hesc, ?_⟩
  · simp only [hframe, List.length_append, flagByte_length, escByte_length, hlen]
    omega
  · rw [hbyte]
    exact (needsEscape_iff B).mp hB

end Sys2Proof.Machine

/-! ## Segments -/

namespace Sys2Proof.Safety

open Sys2Proof.Machine

@[simp] theorem Segment.cells_escaped (B : List Bit) : (Segment.mk true B).cells = escByte ++ B := rfl

@[simp] theorem Segment.cells_plain (B : List Bit) : (Segment.mk false B).cells = B := rfl

/-- The segment the byte stuffer writes for a byte. -/
def segmentOf (B : List Bit) : Segment := ⟨needsEscape B, B⟩

theorem segmentOf_good {B : List Bit} (h : B.length = 8) : (segmentOf B).good :=
  ⟨h, fun hplain => not_or.mp fun hB => Bool.false_ne_true (hplain.symm.trans ((needsEscape_iff B).mpr hB))⟩

/-- The segments the byte stuffer writes for a payload. -/
def segmentsOf (x : List Bit) : List Segment := (wholeBytes x).map segmentOf

theorem segmentsOf_good (x : List Bit) : ∀ g ∈ segmentsOf x, g.good := by
  intro g hg
  obtain ⟨B, hB, rfl⟩ := List.mem_map.mp hg
  exact segmentOf_good (length_of_mem_wholeBytes x B hB)

/-- The segments of a payload of whole bytes carry that payload. -/
theorem segmentsOf_bytes {x : List Bit} (h : x.length % 8 = 0) : (segmentsOf x).flatMap Segment.byte = x := by
  have hflat := wholeBytes_flatten x
  rw [leftoverCells_of_aligned x h, List.append_nil] at hflat
  calc (segmentsOf x).flatMap Segment.byte
      = (wholeBytes x).flatMap fun B => B := List.flatMap_map _ _ _
    _ = (wholeBytes x).flatten := List.flatMap_id
    _ = x := hflat

theorem escapeBytes_eq_cells (n : Nat) (bs : List (List Bit)) :
    (escapeBytes n bs).1 = (bs.map segmentOf).flatMap Segment.cells := by
  induction bs generalizing n with
  | nil => rfl
  | cons B bs ih =>
    cases h : needsEscape B with
    | true => simp [escapeBytes_escape n B bs h, segmentOf, h, ih]
    | false => simp [escapeBytes_copy n B bs h, segmentOf, h, ih]

/-- What the byte stuffer writes is a good frame (R121 (e)). -/
theorem stuffBytes_eq_frameOf (x : List Bit) : (stuffBytes x).1 = frameOf (segmentsOf x) := by
  simp [stuffBytes, frameOf, segmentsOf, escapeBytes_eq_cells]

/-! ## The destuffer, segment by segment (R123, R124) -/

/-- The loop of R124 from a byte boundary on, `s` being the cells still to be read. -/
def unescapeCells (s : List Bit) : List Bit × Bool := unescapeBytes flagByte escByte (leftoverCells s) (wholeBytes s)

theorem unescapeCells_of_short {s : List Bit} (h : s.length < 8) : unescapeCells s = ([], true) := by
  simp [unescapeCells, wholeBytes_of_short s h, unescapeBytes]

theorem unescapeCells_esc (D s : List Bit) (h : D.length = 8) :
    unescapeCells (escByte ++ (D ++ s)) = (D ++ (unescapeCells s).1, (unescapeCells s).2) := by
  simp only [unescapeCells, wholeBytes_append _ _ escByte_length, wholeBytes_append D s h,
    leftoverCells_append _ _ escByte_length, leftoverCells_append D s h, unescapeBytes_esc]

/-- An ESC with no whole byte after it. -/
theorem unescapeCells_esc_of_short {s : List Bit} (h : s.length < 8) : unescapeCells (escByte ++ s) = ([], true) := by
  simp [unescapeCells, wholeBytes_append _ _ escByte_length, wholeBytes_of_short s h, unescapeBytes]

theorem unescapeCells_flag (s : List Bit) : unescapeCells (flagByte ++ s) = ([], decide (s ≠ [])) := by
  have hend : wholeBytes s = [] ∧ leftoverCells s = [] ↔ s = [] := by
    refine ⟨fun ⟨hwhole, hleft⟩ => ?_, ?_⟩
    · simpa [hwhole, hleft] using (wholeBytes_flatten s).symm
    · rintro rfl
      exact ⟨wholeBytes_nil, rfl⟩
  simp [unescapeCells, wholeBytes_append _ _ flagByte_length, leftoverCells_append _ _ flagByte_length,
    unescapeBytes_flag, hend]

theorem unescapeCells_copy (B s : List Bit) (h : B.length = 8) (hesc : B ≠ escByte) (hflag : B ≠ flagByte) :
    unescapeCells (B ++ s) = (B ++ (unescapeCells s).1, (unescapeCells s).2) := by
  simp only [unescapeCells, wholeBytes_append B s h, leftoverCells_append B s h, unescapeBytes_copy _ _ _ B _ hesc hflag]

theorem destuffByteScan_flag (s : List Bit) : destuffByteScan flagByte escByte (flagByte ++ s) = unescapeCells s := by
  simp [destuffByteScan, unescapeCells, wholeBytes_append _ _ flagByte_length, leftoverCells_append _ _ flagByte_length]

/-- Without a leading FLAG the loop starts at the first cell, and the frame is in error. -/
theorem destuffByteScan_no_flag (s : List Bit) (h : s.take 8 ≠ flagByte) :
    destuffByteScan flagByte escByte s = ((unescapeCells s).1, true) := by
  by_cases hs : s.length < 8
  · simp [destuffByteScan, unescapeCells_of_short hs, wholeBytes_of_short s hs]
  · have hhead : wholeBytes s = s.take 8 :: wholeBytes (s.drop 8) := by
      rw [← wholeBytes_append _ _ (by simp; omega), List.take_append_drop]
    simp [destuffByteScan, unescapeCells, hhead, h]

/-- The loop copies a segment's byte and goes on after the segment. -/
theorem unescapeCells_segment {g : Segment} (hg : g.good) (s : List Bit) :
    unescapeCells (g.cells ++ s) = (g.byte ++ (unescapeCells s).1, (unescapeCells s).2) := by
  obtain ⟨escaped, B⟩ := g
  obtain ⟨hlen, hplain⟩ := hg
  cases escaped with
  | true => rw [Segment.cells_escaped, List.append_assoc, unescapeCells_esc B s hlen]
  | false =>
    obtain ⟨hflag, hesc⟩ := hplain rfl
    exact unescapeCells_copy B s hlen hesc hflag

theorem unescapeCells_segments {gs : List Segment} (hgs : ∀ g ∈ gs, g.good) (s : List Bit) :
    unescapeCells (gs.flatMap Segment.cells ++ s) =
      (gs.flatMap Segment.byte ++ (unescapeCells s).1, (unescapeCells s).2) := by
  induction gs with
  | nil => rfl
  | cons g gs ih =>
    obtain ⟨hg, hgs⟩ := List.forall_mem_cons.mp hgs
    simp only [List.flatMap_cons, List.append_assoc, unescapeCells_segment hg, ih hgs]

theorem exists_append_of_take {s B : List Bit} {n : Nat} (h : s.take n = B) : ∃ w, s = B ++ w :=
  ⟨s.drop n, by rw [← h, List.take_append_drop]⟩

/-- Where the loop stops it copies nothing, and a rest other than one FLAG is an error. -/
theorem unescapeCells_of_stopsScan {rest : List Bit} (h : stopsScan rest) :
    unescapeCells rest = ([], decide (rest ≠ flagByte)) := by
  rcases h with hshort | ⟨hesc, hshort⟩ | hflag
  · have hne : rest ≠ flagByte := by
      rintro rfl
      exact absurd hshort (by decide)
    rw [unescapeCells_of_short hshort, decide_eq_true hne]
  · obtain ⟨w, rfl⟩ := exists_append_of_take hesc
    have hw : w.length < 8 := by
      rw [List.length_append, escByte_length] at hshort
      omega
    have hne : escByte ++ w ≠ flagByte := fun h => by simp [escByte, flagByte] at h
    rw [unescapeCells_esc_of_short hw, decide_eq_true hne]
  · obtain ⟨w, rfl⟩ := exists_append_of_take hflag
    simp [unescapeCells_flag]

/-- Where the scan does not stop, it reads a segment. -/
theorem exists_segment_of_not_stopsScan {x : List Bit} (h : ¬ stopsScan x) :
    ∃ (g : Segment) (s : List Bit), g.good ∧ x = g.cells ++ s ∧ s.length < x.length := by
  simp only [stopsScan, not_or, not_and, Nat.not_lt] at h
  obtain ⟨hlen, hroom, hflag⟩ := h
  by_cases hesc : x.take 8 = escByte
  · have hroom := hroom hesc
    refine ⟨⟨true, (x.drop 8).take 8⟩, (x.drop 8).drop 8, ⟨by simp; omega, nofun⟩, ?_, by simp; omega⟩
    rw [Segment.cells_escaped, List.append_assoc, List.take_append_drop, ← hesc, List.take_append_drop]
  · exact ⟨⟨false, x.take 8⟩, x.drop 8, ⟨by simp; omega, fun _ => ⟨hflag, hesc⟩⟩, by simp, by simp; omega⟩

/-- Every Bitstring is segments and a rest at which the scan stops. -/
theorem exists_segments (x : List Bit) : ∃ (gs : List Segment) (rest : List Bit),
    (∀ g ∈ gs, g.good) ∧ stopsScan rest ∧ x = gs.flatMap Segment.cells ++ rest := by
  induction hn : x.length using Nat.strong_induction_on generalizing x with
  | _ n ih =>
    by_cases hstop : stopsScan x
    · exact ⟨[], x, by simp, hstop, rfl⟩
    · obtain ⟨g, s, hg, rfl, hlt⟩ := exists_segment_of_not_stopsScan hstop
      obtain ⟨gs, rest, hgs, hrest, rfl⟩ := ih s.length (hn ▸ hlt) s rfl
      exact ⟨g :: gs, rest, List.forall_mem_cons.mpr ⟨hg, hgs⟩, hrest, by simp⟩

/-! ## `DESTUFF.BYTE` (R124, R126) -/

theorem exec_destuffByte (x : List Bit) (s : State) : exec (.destuffByte x) s =
    .next (unitDone (.destuffedByte (destuffBytes s.config x).1 (destuffBytes s.config x).2) s) := rfl

/-- With the default `byteDestuffBestEffort` the command answers what rule R124's algorithm does. -/
theorem exec_destuffByte_of_scan {s : State} {x out : List Bit} {err : Bool} (hs : s.config.bestEffort = .rule124)
    (h : destuffByteScan flagByte escByte x = (out, err)) :
    exec (.destuffByte x) s = .next (unitDone (.destuffedByte out err) s) := by
  rw [exec_destuffByte]
  simp [destuffBytes, bestEffortOutput, hs, h]

/-- A good frame gives its segments' bytes, whatever `byteDestuffBestEffort` (R123). -/
theorem destuffBytes_frameOf (cfg : Config) {gs : List Segment} (hgs : ∀ g ∈ gs, g.good) :
    destuffBytes cfg (frameOf gs) = (gs.flatMap Segment.byte, false) := by
  have hscan : destuffByteScan flagByte escByte (frameOf gs) = (gs.flatMap Segment.byte, false) := by
    rw [frameOf, List.append_assoc, destuffByteScan_flag, unescapeCells_segments hgs,
      unescapeCells_of_stopsScan (.inr (.inr rfl))]
    simp
  rw [destuffBytes, bestEffortOutput_ok _ _ _ (by rw [hscan]), hscan]

/-- The transaction with the word 0xB5 and a Bitstring is `DESTUFF.BYTE` of it. -/
theorem decode_destuffByte (x : List Bit) :
    decode { cw := 0xB5#8, operands := bitstringFields x } = .ok (.destuffByte x) := by
  have hread : readBitstring (bitstringFields x) = .ok (x, []) := by simpa using readBitstring_fields x []
  have hword : decodeOpcode 0xB5#8 = some .destuffByte := decodeOpcode_encodeOpcode .destuffByte
  simp [decode, hword, decodeOperands, hread, finish]

/-- Every Bitstring is segments and a rest, after a leading FLAG or without one. -/
theorem exists_segments_after_flag (x : List Bit) : ∃ (gs : List Segment) (rest : List Bit),
    (∀ g ∈ gs, g.good) ∧ stopsScan rest ∧ (x = flagByte ++ (gs.flatMap Segment.cells ++ rest) ∨
      (x.take 8 ≠ flagByte ∧ x = gs.flatMap Segment.cells ++ rest)) := by
  by_cases hflag : x.take 8 = flagByte
  · obtain ⟨gs, rest, hgs, hrest, hx⟩ := exists_segments (x.drop 8)
    exact ⟨gs, rest, hgs, hrest, .inl (by rw [← hx, ← hflag, List.take_append_drop])⟩
  · obtain ⟨gs, rest, hgs, hrest, hx⟩ := exists_segments x
    exact ⟨gs, rest, hgs, hrest, .inr ⟨hflag, hx⟩⟩

/-! ## The statements -/

/-- Settles O41: the frame is the segments of the payload's bytes, and the stuffer inserts before FLAG and ESC only. -/
theorem stuffByteEscapesFlagAndEsc : Obligations.StuffByteEscapesFlagAndEsc := by
  intro s x hx
  have hlen := stuffBytes_length x
  refine ⟨_, _, exec_stuffByte x s hx, by omega, List.take_left (l₁ := flagByte), ?_, stuffBytes_inserted_escapes x, ?_,
    segmentsOf x, segmentsOf_good x, stuffBytes_eq_frameOf x⟩
  · rw [stuffBytes_eq_frameOf, frameOf, List.length_append, flagByte_length, Nat.add_sub_cancel, List.drop_left]
  · rw [← needsEscape_eq]
    exact escapeBytes_inserted_length 8 (wholeBytes x)

/-- Settles O42: the payload's segments carry the payload, and a good frame gives its segments' bytes. -/
theorem byteDestuffingInvertsStuffing : Obligations.ByteDestuffingInvertsStuffing := by
  intro s u x out ins hx hexec hres
  rw [exec_stuffByte x s hx] at hexec
  obtain rfl := Host.Outcome.next.inj hexec
  obtain ⟨rfl, rfl⟩ := Result.stuffed.inj (Option.some.inj hres)
  have hback : destuffBytes s.config (stuffBytes x).1 = (x, false) := by
    rw [stuffBytes_eq_frameOf, destuffBytes_frameOf _ (segmentsOf_good x), segmentsOf_bytes hx]
  rw [exec_destuffByte, hback]

/-- Settles O44: the loop copies each segment's byte and stops at the rest. -/
theorem failedDestuffingKeepsWhatWasCopied : Obligations.FailedDestuffingKeepsWhatWasCopied := by
  refine ⟨decode_destuffByte, exists_segments_after_flag, fun s gs rest hs hgs hrest => ?_, fun s hs c hc => ?_⟩
  · have hloop : unescapeCells (gs.flatMap Segment.cells ++ rest) =
        (gs.flatMap Segment.byte, decide (rest ≠ flagByte)) := by
      rw [unescapeCells_segments hgs, unescapeCells_of_stopsScan hrest, List.append_nil]
    refine ⟨exec_destuffByte_of_scan hs ?_, fun hflag => exec_destuffByte_of_scan hs ?_⟩
    · rw [destuffByteScan_flag, hloop]
    · rw [destuffByteScan_no_flag _ hflag, hloop]
  · refine exec_destuffByte_of_scan hs ?_
    revert c
    decide

end Sys2Proof.Safety

/-! PROOFS of the line encoder's statements (spec/43_line_encoder.md R131 to R134), with what each encoder emits and the
transaction that carries its command. -/

/-! ## What each encoder emits (R131 to R134) -/

namespace Sys2Proof.Machine

open Sys2Proof.Safety

/-- R131. -/
theorem encodeLine_nrzl (cfg : Config) (b : Bit) (i : Nat) (l : Level) :
    encodeLine cfg .nrzl b i l = ([⟨2 * i, if b = .zero then cfg.nrzlL0 else cfg.nrzlL0.neg⟩], l) := by
  cases b <;> rfl

theorem encodeLine_nrzi_one (cfg : Config) (i : Nat) (l : Level) :
    encodeLine cfg .nrzi .one i l = ([⟨2 * i, l.neg⟩], l.neg) := rfl

theorem encodeLine_nrzi_zero (cfg : Config) (i : Nat) (l : Level) :
    encodeLine cfg .nrzi .zero i l = ([⟨2 * i, l⟩], l) := rfl

theorem encodeLine_man_zero (cfg : Config) (i : Nat) (l : Level) :
    encodeLine cfg .man .zero i l = ([⟨2 * i, .high⟩, ⟨2 * i + 1, .low⟩], l) := rfl

theorem encodeLine_man_one (cfg : Config) (i : Nat) (l : Level) :
    encodeLine cfg .man .one i l = ([⟨2 * i, .low⟩, ⟨2 * i + 1, .high⟩], l) := rfl

/-- R134: the two flips of a `'0'` cancel, so the second level is the carried one. -/
theorem encodeLine_dman_zero (cfg : Config) (i : Nat) (l : Level) :
    encodeLine cfg .dman .zero i l = ([⟨2 * i, l.neg⟩, ⟨2 * i + 1, l⟩], l) := by
  simp [encodeLine, encodeDman, pointAt, pointHalf]

theorem encodeLine_dman_one (cfg : Config) (i : Nat) (l : Level) :
    encodeLine cfg .dman .one i l = ([⟨2 * i, l⟩, ⟨2 * i + 1, l.neg⟩], l.neg) := rfl

/-! ## The `ENC` commands (R70, R73, R76) -/

/-- An `ENC` command completes with the points and the level that its line code's encoder gives. -/
theorem exec_encInstr_of_encodeLine {s : State} {lc : LineCode} {b : Bit} {i : Nat} {l m : Level} {pts : List SignalPoint}
    (h : encodeLine s.config lc b i l = (pts, m)) :
    exec (encInstr lc b i l) s = .next (unitDone (.encoded pts m) s) := by
  rw [exec_encInstr, h]

/-- The word of a line code's `ENC` row and the fields of its operands carry the command. -/
theorem decode_encInstr (lc : LineCode) (b : Bit) (i : Nat) (l : Level) :
    decode { cw := encodeOpcode (.enc lc), operands := encFields b i l } = .ok (encInstr lc b i l) := by
  have hread : readEnc (encFields b i l) = .ok ((b, i, l), []) := by simpa using readEnc_fields b i l []
  have hword : decodeOpcode (encodeOpcode (.enc lc)) = some (.enc lc) := decodeOpcode_encodeOpcode (.enc lc)
  simp [decode, hword, decodeOperands, hread, finish]

end Sys2Proof.Machine

/-! ## The statements -/

namespace Sys2Proof.Safety

open Sys2Proof.Machine

/-- Settles O29: the level is the one `NRZL_L0` gives the bit, whatever the carried level. -/
theorem encNrzlEmitsTheLevelOfTheBit : Obligations.EncNrzlEmitsTheLevelOfTheBit := by
  intro s b i l
  exact ⟨decode_encInstr .nrzl b i l, exec_encInstr_of_encodeLine (encodeLine_nrzl s.config b i l)⟩

/-- Settles O30, by the encoder's value for each bit. -/
theorem encNrziFlipsOnOnes : Obligations.EncNrziFlipsOnOnes := by
  intro s b i l
  exact ⟨decode_encInstr .nrzi b i l, exec_encInstr_of_encodeLine (encodeLine_nrzi_one s.config i l),
    exec_encInstr_of_encodeLine (encodeLine_nrzi_zero s.config i l)⟩

/-- Settles O31, by the encoder's value for each bit. -/
theorem encManEmitsTheTransitionOfTheBit : Obligations.EncManEmitsTheTransitionOfTheBit := by
  intro s b i l
  exact ⟨decode_encInstr .man b i l, exec_encInstr_of_encodeLine (encodeLine_man_zero s.config i l),
    exec_encInstr_of_encodeLine (encodeLine_man_one s.config i l)⟩

/-- Settles O32, by the encoder's value for each bit. -/
theorem encDmanFlipsBeforeZeros : Obligations.EncDmanFlipsBeforeZeros := by
  intro s b i l
  exact ⟨decode_encInstr .dman b i l, exec_encInstr_of_encodeLine (encodeLine_dman_zero s.config i l),
    exec_encInstr_of_encodeLine (encodeLine_dman_one s.config i l)⟩

end Sys2Proof.Safety

/-! PROOFS of the line decoder's statements (spec/44_line_decoder.md R141 to R146), with what each decoder reads, what it
refuses, and the transaction that carries its command. -/

/-! ## What each decoder reads (R141 to R144) -/

namespace Sys2Proof.Machine

open Sys2Proof.Safety

/-- R141: the point's time and the carried level play no part. -/
theorem decodeLine_nrzl_point (cfg : Config) (i t2 : Nat) (l lv : Level) :
    decodeLine cfg .nrzl i l [⟨t2, lv⟩] = some (.bit (if lv = cfg.nrzlL0 then .zero else .one), l) := rfl

/-- R142. -/
theorem decodeLine_nrzi_point (cfg : Config) (i t2 : Nat) (l lv : Level) :
    decodeLine cfg .nrzi i l [⟨t2, lv⟩] = some (.bit (if lv ≠ l then .one else .zero), lv) := by
  simp only [decodeLine, decodeNrzi, ne_eq, ite_not]

/-- `DEC.NRZL` and `DEC.NRZI` have no meaning on any other number of points than one (R84). -/
theorem decodeLine_eq_none_of_length_ne_one {lc : LineCode} (h : lc = .nrzl ∨ lc = .nrzi) (cfg : Config) (i : Nat)
    (l : Level) {pts : List SignalPoint} (hpts : pts.length ≠ 1) : decodeLine cfg lc i l pts = none := by
  match pts with
  | [] => rcases h with rfl | rfl <;> rfl
  | [_] => exact absurd rfl hpts
  | _ :: _ :: _ => rcases h with rfl | rfl <;> rfl

/-- A valid pair is one of the two patterns, named by its first level (R143, R144). -/
theorem validPair_eq_some_iff {i : Nat} {pts : List SignalPoint} {a : Level} :
    validPair i pts = some a ↔ pts = [⟨2 * i, a⟩, ⟨2 * i + 1, a.neg⟩] := by
  constructor
  · intro h
    match pts with
    | [] | [_] | _ :: _ :: _ :: _ => simp [validPair] at h
    | [⟨t, m⟩, ⟨u, n⟩] =>
      obtain ⟨⟨ht, hu, hne⟩, ha⟩ : (t = 2 * i ∧ u = 2 * i + 1 ∧ m ≠ n) ∧ m = a := by simpa [validPair] using h
      have hn : n = m.neg := Level.eq_neg_of_ne hne.symm
      subst ht hu ha hn
      rfl
  · rintro rfl
    simp [validPair]

theorem decodeMan_pattern (i : Nat) (l a : Level) :
    decodeMan i l [⟨2 * i, a⟩, ⟨2 * i + 1, a.neg⟩] = (.bit (if a = .high then .zero else .one), l) := by
  cases a <;> simp [decodeMan, validPair_eq_some_iff.mpr rfl]

theorem decodeMan_of_validPair_eq_none {i : Nat} {pts : List SignalPoint} (h : validPair i pts = none) (l : Level) :
    decodeMan i l pts = (.unknown, l) := by
  simp [decodeMan, h]

theorem decodeDman_pattern (i : Nat) (l a : Level) :
    decodeDman i l [⟨2 * i, a⟩, ⟨2 * i + 1, a.neg⟩] = (.bit (if a ≠ l then .zero else .one), a.neg) := by
  simp [decodeDman, validPair_eq_some_iff.mpr rfl]

theorem decodeDman_of_validPair_eq_none {i : Nat} {pts : List SignalPoint} (h : validPair i pts = none) (l : Level) :
    decodeDman i l pts = (.unknown, lastLevel l pts) := by
  simp [decodeDman, h]

/-! ## The `DEC` commands (R70, R73, R76, R84) -/

/-- A `DEC` command is refused where its line code's decoder has no answer. -/
theorem exec_decInstr_of_decodeLine_eq_none {s : State} {lc : LineCode} {i : Nat} {l : Level} {pts : List SignalPoint}
    (h : decodeLine s.config lc i l pts = none) :
    exec (decInstr lc i l pts) s = .next (refusedWith .illegalCommand s) := by
  cases lc with
  | nrzl =>
    have hnone : decodeNrzl s.config i l pts = none := h
    simp [decInstr, exec, execDecNrzl, withPoints, hnone, finishDecode, raise, refusedWith]
  | nrzi =>
    have hnone : decodeNrzi i l pts = none := h
    simp [decInstr, exec, execDecNrzi, withPoints, hnone, finishDecode, raise, refusedWith]
  | man => cases h
  | dman => cases h

/-- The word of a line code's `DEC` row and the fields of at most two points carry the command. -/
theorem decode_decInstr (lc : LineCode) (i : Nat) (l : Level) {pts : List SignalPoint} (h : pts.length ≤ 2) :
    decode { cw := encodeOpcode (.dec lc), operands := decFields i l pts } = .ok (decInstr lc i l pts) := by
  have hread : readDec (decFields i l pts) = .ok ((i, l, pts), []) := by simpa using readDec_fields i l pts [] h
  have hword : decodeOpcode (encodeOpcode (.dec lc)) = some (.dec lc) := decodeOpcode_encodeOpcode (.dec lc)
  simp [decode, hword, decodeOperands, hread, finish]

/-- `DEC.MAN` on at most two points. -/
theorem exec_decMan {i : Nat} {l : Level} {pts : List SignalPoint} {y : Symbol} {m : Level} (hpts : pts.length ≤ 2)
    (h : decodeMan i l pts = (y, m)) (s : State) :
    exec (.decMan i l pts) s = .next (unitDone (.decoded y m) s) :=
  exec_decInstr s .man i l pts y m hpts (congrArg some h)

/-- `DEC.DMAN` on at most two points. -/
theorem exec_decDman {i : Nat} {l : Level} {pts : List SignalPoint} {y : Symbol} {m : Level} (hpts : pts.length ≤ 2)
    (h : decodeDman i l pts = (y, m)) (s : State) :
    exec (.decDman i l pts) s = .next (unitDone (.decoded y m) s) :=
  exec_decInstr s .dman i l pts y m hpts (congrArg some h)

/-! ## Whole streams (R142, R146) -/

theorem decodeStream_cons {cfg : Config} {lc : LineCode} {i : Nat} {l m : Level} {pts : List SignalPoint} {y : Symbol}
    (h : decodeLine cfg lc i l pts = some (y, m)) (rest : List (List SignalPoint)) :
    decodeStream cfg lc i l (pts :: rest) = (decodeStream cfg lc (i + 1) m rest).map (fun r => (y :: r.1, r.2)) := by
  simp [decodeStream, h]

/-- R146: each bit decodes to itself and leaves the two carried levels equal for the next. -/
theorem decodeStream_encodeStream (cfg : Config) (lc : LineCode) (i : Nat) (l : Level) (x : List Bit) :
    decodeStream cfg lc i l (encodeStream cfg lc i l x).1 = some (asSymbols x, (encodeStream cfg lc i l x).2) := by
  induction x generalizing i l with
  | nil => rfl
  | cons b x ih => simp [encodeStream, decodeStream_cons (decodeLine_encodeLine cfg lc b i l), ih]

/-- R142: against the wrong carried level the bit reads inverted, but the decoder takes the level of the encoder's point. -/
theorem decodeLine_nrzi_wrong_level (cfg : Config) (b : Bit) (i : Nat) (l : Level) :
    decodeLine cfg .nrzi i l.neg (encodeLine cfg .nrzi b i l).1 =
      some (.bit b.complement, (encodeLine cfg .nrzi b i l).2) := by
  cases b with
  | zero => simp [encodeLine_nrzi_zero, decodeLine_nrzi_point, Bit.complement]
  | one => simp [encodeLine_nrzi_one, decodeLine_nrzi_point, Bit.complement]

/-- A first bit read as any symbol costs the rest of the stream nothing when the decoder's level is then the encoder's. -/
theorem decodeStream_encodeStream_cons {cfg : Config} {lc : LineCode} {i : Nat} {l m : Level} {b : Bit} {y : Symbol}
    (h : decodeLine cfg lc i m (encodeLine cfg lc b i l).1 = some (y, (encodeLine cfg lc b i l).2)) (x : List Bit) :
    decodeStream cfg lc i m (encodeStream cfg lc i l (b :: x)).1 =
      some (y :: asSymbols x, (encodeStream cfg lc i l (b :: x)).2) := by
  simp [encodeStream, decodeStream_cons h, decodeStream_encodeStream]

end Sys2Proof.Machine

/-! ## The statements -/

namespace Sys2Proof.Safety

open Sys2Proof.Machine

/-- Settles O34: after its first point the decoder's level is the encoder's, so only the first bit is inverted. -/
theorem decNrziReadsTransitions : Obligations.DecNrziReadsTransitions := by
  refine ⟨fun s i t2 l lv => ⟨?_, ?_⟩, fun s i l pts hpts => ?_, fun cfg i l b x => ?_⟩
  · exact decode_decInstr .nrzi i l (pts := [⟨t2, lv⟩]) (by simp)
  · exact exec_decInstr s .nrzi i l _ _ _ (by simp) (decodeLine_nrzi_point s.config i t2 l lv)
  · exact exec_decInstr_of_decodeLine_eq_none (decodeLine_eq_none_of_length_ne_one (.inr rfl) s.config i l hpts)
  · exact decodeStream_encodeStream_cons (decodeLine_nrzi_wrong_level cfg b i l) x

/-- Settles O37, by induction over the bits. -/
theorem lineCodesRoundTrip : Obligations.LineCodesRoundTrip := decodeStream_encodeStream

/-- Settles O33: the single point's level alone gives the bit, and no other number of points has a meaning. -/
theorem decNrzlMapsTheLevelBack : Obligations.DecNrzlMapsTheLevelBack := by
  refine ⟨fun s i t2 l lv => ⟨?_, ?_⟩, fun s i l pts hpts => ?_⟩
  · exact decode_decInstr .nrzl i l (pts := [⟨t2, lv⟩]) (by simp)
  · exact exec_decInstr s .nrzl i l _ _ _ (by simp) (decodeLine_nrzl_point s.config i t2 l lv)
  · exact exec_decInstr_of_decodeLine_eq_none (decodeLine_eq_none_of_length_ne_one (.inl rfl) s.config i l hpts)

/-- Settles O35: a valid pair is one of the two patterns, so any other points make no valid pair. -/
theorem decManReadsOnlyTheTwoPatterns : Obligations.DecManReadsOnlyTheTwoPatterns := by
  refine ⟨fun i l pts h => decode_decInstr .man i l h, fun s i l => ⟨?_, ?_⟩, fun s i l pts h hhigh hlow => ?_⟩
  · exact exec_decMan (by simp) (decodeMan_pattern i l .high) s
  · exact exec_decMan (by simp) (decodeMan_pattern i l .low) s
  · have hpair : validPair i pts = none := Option.eq_none_iff_forall_ne_some.mpr fun a ha => by
      cases a with
      | high => exact hhigh (validPair_eq_some_iff.mp ha)
      | low => exact hlow (validPair_eq_some_iff.mp ha)
    exact exec_decMan h (decodeMan_of_validPair_eq_none hpair l) s

/-- Settles O36: points that make no valid pair decode to `'?'`, and only their last level counts. -/
theorem decDmanReadsTheFirstTransition : Obligations.DecDmanReadsTheFirstTransition := by
  refine ⟨fun i l pts h => decode_decInstr .dman i l h, fun s i l a => ?_, fun s i l => ?_, fun s i l p => ?_,
    fun s i l p q h => ?_⟩
  · exact exec_decDman (by simp) (decodeDman_pattern i l a) s
  · exact exec_decDman (by simp) (decodeDman_of_validPair_eq_none rfl l) s
  · exact exec_decDman (by simp) (decodeDman_of_validPair_eq_none rfl l) s
  · have hpair : validPair i [p, q] = none := if_neg (by tauto)
    exact exec_decDman (by simp) (decodeDman_of_validPair_eq_none hpair l) s

end Sys2Proof.Safety

/-! PROOFS of the session stepper's statements (spec/45_session_stepper.md): the session commands, the transition table,
`TICK` and finalization, error-free sessions and the index bookkeeping, with what each command makes of a session. -/

/-! ## RESET, ARM, PAUSE, RESUME (R159, R165 to R167) -/

namespace Sys2Proof.Machine

open Sys2Proof.Safety

theorem exec_reset (s : State) : exec .reset s = .next { State.reset with config := s.config, port := s.port } := rfl

/-- `PAUSE`, `RESUME` in a running session end only the last command's report. -/
theorem execAll_pause_resume {s : State} (hr : s.fsm = .running) :
    execAll [.pause, .resume] s = .next { s with status := .ok, result := none } := by
  simp [execAll, exec_pause, exec_resume, hr]

/-- Commands executed after others that answer a next state. -/
theorem execAll_append_of_next {xs : List Instr} {s t : State} (h : execAll xs s = .next t) (ys : List Instr) :
    execAll (xs ++ ys) s = execAll ys t := by
  induction xs generalizing s with
  | nil => cases h; rfl
  | cons i xs ih =>
    simp only [List.cons_append, execAll] at h ⊢
    cases hi : exec i s with
    | next u => rw [hi] at h; exact ih h
    | fault r => rw [hi] at h; cases h
    | refused r => rw [hi] at h; cases h

/-- Any positive number of pauses and resumptions does what one does. -/
theorem execAll_pauses {s : State} (hr : s.fsm = .running) (n : Nat) :
    execAll (List.replicate (n + 1) [Instr.pause, Instr.resume]).flatten s =
      .next { s with status := .ok, result := none } := by
  induction n with
  | zero => exact execAll_pause_resume hr
  | succ n ih =>
    rw [List.replicate_succ', List.flatten_append, execAll_append_of_next ih]
    exact execAll_pause_resume hr

/-- A bit-step and its completion test overwrite the last command's report and read nothing of it. -/
theorem completeIfDone_bitStep_ignores_report (t : Technique) (b : Bit) (s : State) :
    { completeIfDone t (bitStep t b { s with status := .ok, result := none }) with status := .ok, result := none } =
      { completeIfDone t (bitStep t b s) with status := .ok, result := none } := by
  by_cases h : s.position + 1 = s.processedData.length
  · rw [completeIfDone_done _ _ h, completeIfDone_done _ _ h]
    rfl
  · rw [completeIfDone_notDone _ _ h, completeIfDone_notDone _ _ h]
    rfl

/-- `TICK` in `Running` does not read the last command's report. -/
theorem exec_tick_ignores_report {s : State} (hr : s.fsm = .running) :
    exec .tick { s with status := .ok, result := none } = exec .tick s := by
  rcases Option.eq_none_or_eq_some s.tech with ht | ⟨t, ht⟩
  · simp [exec, execTick, hr, ht]
  · rcases Option.eq_none_or_eq_some s.processedData[s.position]? with hb | ⟨b, hb⟩
    · simp [exec, execTick, hr, ht, hb]
    · have hleft := exec_tick { s with status := .ok, result := none } t b hr ht hb
      rw [hleft, completeIfDone_bitStep_ignores_report, exec_tick s t b hr ht hb]

/-! ## START (R156, R157) -/

/-- An accepted `START` is the only one that reports `OK` (R156, R191, R196). -/
theorem exec_start_accepted {t : Technique} {k : Kind} {p : List Bit} {s u : State}
    (h : exec (startInstr t k p) s = .next u) (hi : s.fsm = .idle) (hok : u.status = .ok) :
    startValid s.config (framingOf t) p = true ∧ u = { beginSession t k p s with status := .ok, result := none } := by
  rw [exec_startInstr] at h
  rcases startSession_cases h with ⟨hni, -⟩ | ⟨-, -, rfl⟩ | ⟨-, hv, hu⟩
  · exact absurd hi hni
  · cases hok
  · exact ⟨hv, hu⟩

/-- R157: `START` never leads to `Completed`. -/
theorem exec_start_ne_completed {t : Technique} {k : Kind} {p : List Bit} {s u : State}
    (h : exec (startInstr t k p) s = .next u) (hi : s.fsm = .idle) : u.fsm ≠ .completed := by
  rw [exec_startInstr] at h
  rcases startSession_cases h with ⟨hni, -⟩ | ⟨-, -, rfl⟩ | ⟨-, -, rfl⟩
  · exact absurd hi hni
  · simp [hi]
  · simp

/-! ## The moves of `fsm` (R150) -/

/-- The row of `START` in the transition table. -/
theorem exec_start_move {t : Technique} {k : Kind} {p : List Bit} {s u : State}
    (h : exec (startInstr t k p) s = .next u) : startMove s.fsm u.fsm u.status := by
  rw [exec_startInstr] at h
  rcases startSession_cases h with ⟨hni, rfl⟩ | ⟨hi, -, rfl⟩ | ⟨hi, -, rfl⟩
  · cases hf : s.fsm <;> simp_all [startMove]
  · simp [hi, startMove]
  · simp [hi, startMove]

/-- A unit operation's row. -/
theorem exec_unit_move {i : Instr} {s u : State} (hi : isUnit i = true) (h : exec i s = .next u) :
    unitMove s.fsm u.fsm u.status := by
  rcases exec_unit s i hi with ⟨r, e⟩ | e
  · rw [e] at h
    obtain rfl := Host.Outcome.next.inj h
    exact ⟨rfl, .inl rfl⟩
  · rw [e] at h
    obtain rfl := Host.Outcome.next.inj h
    exact ⟨rfl, .inr rfl⟩

/-- R164: a `TICK` in `Running` leads to `Completed` exactly when `position` reaches `len(processedData)`, and else stays. -/
theorem exec_tick_fsm {s u : State} (h : exec .tick s = .next u) (hr : s.fsm = .running) :
    u.status = .ok ∧ u.fsm = if u.position = u.processedData.length then .completed else .running := by
  rcases execTick_cases h with ⟨hnr, -⟩ | ⟨t, b, -, -, -, rfl⟩
  · exact absurd hr hnr
  · simp [completeIfDone_fsm, hr]

/-- The row of `TICK`. -/
theorem exec_tick_move {s u : State} (h : exec .tick s = .next u) :
    homeMove .running s.fsm u.fsm [.running, .completed] u.status := by
  unfold homeMove
  split
  · next hr =>
    obtain ⟨hok, hfsm⟩ := exec_tick_fsm h hr
    refine ⟨?_, hok⟩
    rw [hfsm]
    split <;> simp
  · next hr =>
    obtain rfl := Host.Outcome.next.inj ((execTick_wrongState s hr).symm.trans h)
    exact ⟨rfl, rfl⟩

/-- The row of a command that is accepted in `home` alone and refused elsewhere. -/
theorem homeMove_of_answer {home : Fsm} {accepted : List Fsm} {s u v : State}
    (h : (if s.fsm = home then Host.Outcome.next v else .next { s with status := .illegalState }) =
      (.next u : Host.Outcome State Fault Refusal)) (hfsm : s.fsm = home → v.fsm ∈ accepted) (hok : v.status = .ok) :
    homeMove home s.fsm u.fsm accepted u.status := by
  unfold homeMove
  split at h
  · next hs =>
    obtain rfl := Host.Outcome.next.inj h
    rw [if_pos hs]
    exact ⟨hfsm hs, hok⟩
  · next hs =>
    obtain rfl := Host.Outcome.next.inj h
    rw [if_neg hs]
    exact ⟨rfl, rfl⟩

theorem controlMove_start (t : Technique) (k : Kind) (p : List Bit) (f f' : Fsm) (st : Status) :
    controlMove f (startInstr t k p) f' st = startMove f f' st := by
  cases t <;> rfl

theorem controlMove_unit {i : Instr} (h : isUnit i = true) (f f' : Fsm) (st : Status) :
    controlMove f i f' st = unitMove f f' st := by
  cases i <;> simp [isUnit] at h <;> rfl

/-- Every command moves `fsm` as its row of the transition table says. -/
theorem exec_controlMove {i : Instr} {s u : State} (h : exec i s = .next u) : controlMove s.fsm i u.fsm u.status := by
  by_cases hunit : isUnit i = true
  · rw [controlMove_unit hunit]
    exact exec_unit_move hunit h
  by_cases hstart : isStart i = true
  · obtain ⟨t, k, p, rfl⟩ := start_of_isStart i hstart
    rw [controlMove_start]
    exact exec_start_move h
  cases i <;> simp [isUnit, isStart] at hunit hstart
  case reset =>
    obtain rfl := Host.Outcome.next.inj h
    exact ⟨rfl, rfl⟩
  case tick => exact exec_tick_move h
  case arm => exact homeMove_of_answer ((exec_arm s).symm.trans h) (fun hs => by simp [hs]) rfl
  case pause => exact homeMove_of_answer ((exec_pause s).symm.trans h) (fun _ => by simp) rfl
  case resume => exact homeMove_of_answer ((exec_resume s).symm.trans h) (fun _ => by simp) rfl

/-- Only a refusal reports `IllegalState`, and a refusal writes nothing else. -/
theorem eq_refusedWith_of_illegalState {i : Instr} {s u : State} (h : exec i s = .next u)
    (hs : u.status = .illegalState) : u = refusedWith .illegalState s := by
  rcases exec_cases h with ⟨k, rfl⟩ | ⟨-, r, rfl⟩ | ⟨-, rfl⟩ | ⟨t, k, p, -, -, -, rfl⟩ | ⟨-, t, b, -, -, -, rfl⟩ |
    ⟨-, -, rfl⟩ | ⟨-, -, rfl⟩ | ⟨-, -, rfl⟩
  · cases hs
    rfl
  all_goals cases hs

/-- An illegal word leaves `fsm` as it is (R195). -/
theorem step_illegalWord_fsm {s u : State} {tx : Transaction} {rest : List Transaction} (hp : s.port = tx :: rest)
    (hw : decodeOpcode tx.cw = none) (h : step s = .next u) : u.fsm = s.fsm := by
  have hd : decode tx = .error .illegalWord := by simp [decode, hw]
  simp only [step_cons s tx rest hp, runTransaction, hd, raise_eq_next] at h
  rw [← h]

end Sys2Proof.Machine

/-! ## The statements about the session commands and the transition table -/

namespace Sys2Proof.Safety

open Sys2Proof.Machine

theorem resetValues_reset (cfg : Config) (port : List Transaction) :
    ResetValues { State.reset with config := cfg, port := port } := by
  constructor <;> rfl

/-- Settles O1: `RESET` writes the reset state, and in `Idle` the invariant says it stands there already. -/
theorem resetGivesEveryElementItsResetValue : Obligations.ResetGivesEveryElementItsResetValue := by
  refine ⟨rfl, resetValues_reset _ _, fun s => ⟨_, exec_reset s, resetValues_reset _ _, rfl⟩, fun s h hi => ?_⟩
  rcases machineInv_cases h with ⟨-, hidle⟩ | ⟨hni, -⟩
  · have hend := congrArg (fun u : State => { u with status := .ok, result := none }) hidle.symm
    exact (exec_reset s).trans (congrArg _ hend)
  · exact absurd hi hni

/-- Settles O15: the framed bitstring of an accepted payload is not empty. -/
theorem startNeverCompletesASession : Obligations.StartNeverCompletesASession := by
  refine ⟨fun s u t k p hi h => ⟨exec_start_ne_completed h hi, fun hok => ?_⟩, fun s t k p h => ⟨if_pos h, rfl⟩⟩
  obtain ⟨hv, rfl⟩ := exec_start_accepted h hi hok
  obtain ⟨hp, -⟩ := (startValid_iff _ _ _).mp hv
  exact frame_ne_nil _ p hp

/-- Settles O19: `ARM` sets the flag, which a pause leaves alone and `RESET` does not read. -/
theorem armSetsThePendingFlag : Obligations.ArmSetsThePendingFlag := by
  have harm : ∀ s : State, s.fsm = .running →
      exec .arm s = .next { s with pendingErrorInjection := true, status := .ok, result := none } :=
    fun s hr => (exec_arm s).trans (if_pos hr)
  refine ⟨rfl, harm, fun s hr => (exec_arm s).trans (if_neg hr), fun s t hr h => ?_, fun s hr => ⟨?_, ?_⟩⟩
  · obtain rfl := Host.Outcome.next.inj ((harm s hr).symm.trans h)
    exact harm _ hr
  · simp [execAll, harm s hr, exec_pause, exec_resume, hr]
  · simp [execAll, harm s hr, exec_reset]

/-- Settles O20, by what `PAUSE` answers in `Running` and elsewhere. -/
theorem pauseWritesOnlyTheControlState : Obligations.PauseWritesOnlyTheControlState :=
  ⟨rfl, fun s hr => (exec_pause s).trans (if_pos hr), fun s hr => (exec_pause s).trans (if_neg hr)⟩

/-- Settles O21: a pause and a resumption end only the last command's report, which `TICK` does not read. -/
theorem resumeContinuesWhereTheSessionLeftOff : Obligations.ResumeContinuesWhereTheSessionLeftOff := by
  refine ⟨rfl, fun s hp => (exec_resume s).trans (if_pos hp), fun s hp => (exec_resume s).trans (if_neg hp),
    fun s n hr hn => ⟨?_, exec_tick_ignores_report hr⟩⟩
  obtain ⟨m, rfl⟩ := Nat.exists_eq_add_of_le' hn
  exact execAll_pauses hr m

/-- Settles O16: the move of each command, and the two ways to `Completed`. -/
theorem fsmFollowsTheTransitionTable : Obligations.FsmFollowsTheTransitionTable := by
  refine ⟨fun s t i h => ⟨exec_controlMove h, fun hstart hi hc => ?_, ?_, eq_refusedWith_of_illegalState h⟩,
    fun s t tx rest hp hw h => step_illegalWord_fsm hp hw h⟩
  · obtain ⟨u, k, p, rfl⟩ := start_of_isStart i hstart
    exact absurd hc (exec_start_ne_completed h hi)
  · rintro rfl hr
    rw [(exec_tick_fsm h hr).2]
    split <;> simp_all

end Sys2Proof.Safety

/-! ## A session through `START`, `TICK` and the other commands (R26, R27, R30 to R35) -/

namespace Sys2Proof.Safety

open Sys2Proof.Machine

/-- One more bit has been stepped. -/
theorem stepped_bitStep (t : Technique) {b : Bit} {s : State} (hb : s.processedData[s.position]? = some b) :
    stepped (bitStep t b s) = stepped s ++ [b] := by
  simp [stepped, List.take_add_one, hb]

theorem stepped_completeIfDone (t : Technique) (s : State) : stepped (completeIfDone t s) = stepped s := by
  simp [stepped]

theorem sentSignal_completeIfDone (t : Technique) (s : State) : sentSignal t (completeIfDone t s) = sentSignal t s := by
  simp [sentSignal, stepped_completeIfDone]

/-- Bits complemented at positions still to come, and one more bit. -/
theorem received_recordError {errs : List Nat} {x : List Bit} (e : Bool) (b : Bit) (h : ∀ p ∈ errs, p < x.length) :
    received (recordError e x.length errs) 0 (x ++ [b]) =
      received errs 0 x ++ [.bit (if e then b.complement else b)] := by
  have hnew : x.length ∉ errs := fun hx => lt_irrefl _ (h _ hx)
  have hold : received (recordError e x.length errs) 0 x = received errs 0 x :=
    received_congr _ _ _ _ fun p _ hp => by
      rw [mem_recordError]
      exact or_iff_right fun ⟨_, hpx⟩ => by omega
  rw [received_snoc, hold, Nat.zero_add]
  simp [hnew]

section
variable {t : Technique} {k : Kind} {b : Bit} {s u : State}

/-- What a bit-step appends to the signal is what the stream of the bits stepped goes on with. -/
theorem Progress.sentSignal_bitStep (h : Progress t s) (hb : s.processedData[s.position]? = some b) :
    sentSignal t (bitStep t b s) = ((sentSignal t s).1 ++ [(stepEncoded t b s).1], (stepEncoded t b s).2) := by
  have hend : stepEncoded t b s = encodeLine s.config (lineCodeOf t) b (0 + (stepped s).length) (sentSignal t s).2 := by
    rw [stepEncoded, h.stepped_length, Nat.zero_add, h.encoder]
  rw [hend, sentSignal, stepped_bitStep t hb]
  exact encodeStream_snoc _ _ _ _ _ _

/-- The decoding half of a bit-step records the bit, complemented exactly when it records an error. -/
theorem Progress.stepDecoded_y (h : Progress t s) :
    (stepDecoded t b s).y = .bit (if (stepDecoded t b s).error then b.complement else b) := by
  obtain ⟨-, herror, hy⟩ := stepDecoded_of_levels_agree t b s h.decoder
  rw [hy, herror]

/-- A bit-step and its completion test keep the counters and records (R26, R27, R32, R33, R35). -/
theorem Progress.after_tick (h : Progress t s) (hr : s.fsm = .running) (hb : s.processedData[s.position]? = some b) :
    Progress t (completeIfDone t (bitStep t b s)) where
  inside := by
    have hlt := (List.getElem?_eq_some_iff.mp hb).1
    simpa using hlt
  done := by simp [completeIfDone_fsm, hr]
  errorsAscend := by simpa using positionsAscend_recordError _ _ _ h.errorsAscend
  errorsBehind := by
    intro p hp
    simp only [completeIfDone_errorPositions, bitStep_errorPositions, mem_recordError] at hp
    simp only [completeIfDone_position, bitStep_position]
    rcases hp with ⟨-, rfl⟩ | hp
    · omega
    · have := h.errorsBehind p hp
      omega
  decoded := by
    have hbehind : ∀ p ∈ s.errorPositions, p < (stepped s).length := by
      rw [h.stepped_length]
      exact h.errorsBehind
    have hnew := received_recordError (stepDecoded t b s).error b hbehind
    rw [h.stepped_length] at hnew
    simp [stepped_completeIfDone, stepped_bitStep t hb, hnew, h.decoded, h.stepDecoded_y]
  signal := by simp [sentSignal_completeIfDone, h.sentSignal_bitStep hb, h.signal]
  encoder := by simp [sentSignal_completeIfDone, h.sentSignal_bitStep hb]
  decoder := by simpa using (stepDecoded_of_levels_agree t b s h.decoder).1
  notArmedAtEnd := by simp

/-- A bit-step reports itself (R30, R180). -/
theorem Progress.stepReport_after_tick (h : Progress t s) (hb : s.processedData[s.position]? = some b) :
    StepReport (completeIfDone t (bitStep t b s)) := by
  have hlen := h.decodedBits_length
  have hnew : s.position ∉ s.errorPositions := fun hp => lt_irrefl _ (h.errorsBehind _ hp)
  exact ⟨by simp, by simp, by simp, by simp [hb], by simp, by simp [← hlen], by simp [hnew]⟩

theorem Outputs.after_tick (h : Outputs t s) (hr : s.fsm = .running) : Outputs t (completeIfDone t (bitStep t b s)) := by
  by_cases hdone : (bitStep t b s).position = (bitStep t b s).processedData.length
  · rw [completeIfDone_done _ _ hdone]
    exact ⟨by simp, fun _ => rfl, fun _ => rfl⟩
  · rw [completeIfDone_notDone _ _ hdone]
    have hne : (bitStep t b s).fsm ≠ .completed := by simp [hr]
    exact ⟨fun _ => h.before (by simp [hr]), fun hc => absurd hc hne, fun hc => absurd hc hne⟩

/-- `TICK` keeps the session. -/
theorem SessionInv.after_tick (h : SessionInv t k s) (hr : s.fsm = .running) (hb : s.processedData[s.position]? = some b) :
    SessionInv t k (completeIfDone t (bitStep t b s)) where
  latched := by
    obtain ⟨htech, hkind, hvalid, hpd, hins⟩ := h.latched
    constructor <;> simpa
  progress := h.progress.after_tick hr hb
  report := h.progress.stepReport_after_tick hb
  outputs := h.outputs.after_tick hr

/-- The session does not depend on the last command's report, and a move between `Running` and `Paused` or an armed error
leaves it a session. -/
theorem SessionInv.after_control (h : SessionInv t k s) {f : Fsm} {a : Bool} (hf : f = .completed ↔ s.fsm = .completed)
    (ha : f = .completed → a = false) (st : Status) (r : Option Result) :
    SessionInv t k { s with fsm := f, pendingErrorInjection := a, status := st, result := r } := by
  obtain ⟨⟨l1, l2, l3, l4, l5⟩, ⟨p1, p2, p3, p4, p5, p6, p7, p8, -⟩, ⟨r1, r2, r3, r4, r5, r6, r7⟩, ⟨o1, o2, o3⟩⟩ := h
  exact ⟨⟨l1, l2, l3, l4, l5⟩, ⟨p1, hf.trans p2, p3, p4, p5, p6, p7, p8, ha⟩, ⟨r1, r2, r3, r4, r5, r6, r7⟩,
    ⟨fun hc => o1 (mt hf.mpr hc), fun hc => o2 (hf.mp hc), fun hc => o3 (hf.mp hc)⟩⟩

/-- An accepted `START` begins a session (R156). -/
theorem sessionInv_beginSession (t : Technique) (k : Kind) {p : List Bit} (s : State)
    (hv : startValid s.config (framingOf t) p = true) : SessionInv t k (beginSession t k p s) where
  latched := ⟨rfl, rfl, hv, rfl, rfl⟩
  progress := by
    obtain ⟨hp, -⟩ := (startValid_iff _ _ _).mp hv
    have hne := frame_ne_nil (framingOf t) p hp
    have hlen : 0 ≠ (frame (framingOf t) p).1.length := (List.length_pos_iff.mpr hne).ne
    constructor <;> simp [stepped, sentSignal, received, encodeStream, positionsAscend, hlen]
  report := by constructor <;> simp [StepOut.reset]
  outputs := by constructor <;> simp

/-- What a command other than `RESET` makes of a session: it moves the control state and the report alone, arming only by
`ARM`, or it is a `TICK` that steps a bit. -/
theorem exec_session_cases {i : Instr} (h : exec i s = .next u) (hi : i ≠ .reset) (hs : s.fsm ≠ .idle) :
    (∃ f a st r, u = { s with fsm := f, pendingErrorInjection := a, status := st, result := r } ∧ f ≠ .idle ∧
      (f = .completed ↔ s.fsm = .completed) ∧ (a = s.pendingErrorInjection ∨ (i = .arm ∧ s.fsm = .running))) ∨
    (∃ t b, s.fsm = .running ∧ s.tech = some t ∧ s.processedData[s.position]? = some b ∧
      u = { completeIfDone t (bitStep t b s) with status := .ok, result := none }) := by
  rcases exec_cases h with ⟨k, rfl⟩ | ⟨-, r, rfl⟩ | ⟨hreset, -⟩ | ⟨t, k, p, -, hidle, -⟩ | ⟨-, htick⟩ |
    ⟨harm, hr, rfl⟩ | ⟨-, hr, rfl⟩ | ⟨-, hp, rfl⟩
  · exact .inl ⟨s.fsm, s.pendingErrorInjection, k, s.result, rfl, hs, Iff.rfl, .inl rfl⟩
  · exact .inl ⟨s.fsm, s.pendingErrorInjection, .ok, some r, rfl, hs, Iff.rfl, .inl rfl⟩
  · exact absurd hreset hi
  · exact absurd hidle hs
  · exact .inr htick
  · exact .inl ⟨s.fsm, true, .ok, none, rfl, hs, Iff.rfl, .inr ⟨harm, hr⟩⟩
  · exact .inl ⟨.paused, s.pendingErrorInjection, .ok, none, rfl, by simp, by simp [hr], .inl rfl⟩
  · exact .inl ⟨.running, s.pendingErrorInjection, .ok, none, rfl, by simp, by simp [hp], .inl rfl⟩

/-- Every command but `RESET` keeps the session. -/
theorem SessionInv.after_exec {i : Instr} (hsess : SessionInv t k s) (h : exec i s = .next u) (hi : i ≠ .reset)
    (hs : s.fsm ≠ .idle) : SessionInv t k u ∧ u.fsm ≠ .idle := by
  rcases exec_session_cases h hi hs with ⟨f, a, st, r, rfl, hf, hdone, ha⟩ | ⟨t', b, hr, ht, hb, rfl⟩
  · refine ⟨hsess.after_control hdone (fun hc => ?_) st r, hf⟩
    have hc := hdone.mp hc
    rcases ha with rfl | ⟨-, hr⟩
    · exact hsess.progress.notArmedAtEnd hc
    · rw [hr] at hc
      cases hc
  · obtain rfl := Option.some.inj (ht.symm.trans hsess.latched.tech)
    have htick := hsess.after_tick hr hb
    refine ⟨htick.after_control Iff.rfl htick.progress.notArmedAtEnd .ok none, ?_⟩
    simp only [completeIfDone_fsm, bitStep_fsm, hr]
    split <;> simp

end

end Sys2Proof.Safety

/-! ## What a `TICK` answers (R161, R163, R164) -/

namespace Sys2Proof.Safety

open Sys2Proof.Machine

/-- From a state that meets the invariant, a `TICK` in `Running` leaves a session of the same technique. -/
theorem sessionInv_of_tick {s u : State} {t : Technique} (h : MachineInv s) (hr : s.fsm = .running)
    (ht : s.tech = some t) (htick : exec .tick s = .next u) : ∃ k, SessionInv t k s ∧ SessionInv t k u := by
  obtain ⟨k, hsess⟩ := sessionInv_of_tech h ht
  exact ⟨k, hsess, (hsess.after_exec htick (by simp) (by simp [hr])).1⟩

/-- `TICK` and the unit operation of its line code's encoder compute the same points and level (R161). -/
theorem tick_encodes {s : State} {t : Technique} {b : Bit} (hr : s.fsm = .running) (ht : s.tech = some t)
    (hb : s.processedData[s.position]? = some b) :
    ∃ u v pts l, exec .tick s = .next u ∧ exec (encInstr (lineCodeOf t) b s.position s.encLevel) s = .next v ∧
      v.result = some (.encoded pts l) ∧ u.encLevel = l ∧ u.signalLog = s.signalLog ++ pts ∧
      u.stepOut.valid = true ∧ u.stepOut.index = s.position ∧ u.stepOut.bit = b ∧ u.stepOut.points = pts ∧
      (MachineInv s → u.signalLog = (sentSignal t u).1.flatten) := by
  have htick := exec_tick s t b hr ht hb
  refine ⟨_, _, (stepEncoded t b s).1, (stepEncoded t b s).2, htick, exec_encInstr s _ b _ _, rfl, by simp, by simp,
    by simp, by simp, by simp, by simp, fun h => ?_⟩
  obtain ⟨k, -, hsess⟩ := sessionInv_of_tick h hr ht htick
  exact hsess.progress.signal

/-- With no error armed, `TICK` and the unit operation of its line code's decoder read the same symbol and level off the points
just appended (R163). -/
theorem tick_decodes {s : State} {t : Technique} {b : Bit} (hr : s.fsm = .running) (ht : s.tech = some t)
    (hb : s.processedData[s.position]? = some b) (ha : s.pendingErrorInjection = false) :
    ∃ u v y l, exec .tick s = .next u ∧
      exec (decInstr (lineCodeOf t) s.position s.decLevel u.stepOut.points) s = .next v ∧
      u.signalLog = s.signalLog ++ u.stepOut.points ∧
      v.result = some (.decoded y l) ∧ u.decLevel = l ∧ u.decodedBits = s.decodedBits ++ [y] ∧
      u.stepOut.decoded = y ∧ (u.stepOut.error = true ↔ y = .unknown) ∧
      (∀ q, q ∈ u.errorPositions ↔ q ∈ s.errorPositions ∨ (y = .unknown ∧ q = s.position)) ∧
      (MachineInv s → y = .bit b) := by
  obtain ⟨y, l, hdec⟩ := decodeLine_accepts s.config (lineCodeOf t) b s.position s.encLevel s.decLevel
  have hstep : stepDecoded t b s = ⟨y, l, decodeFailed y⟩ := by
    rw [stepDecoded_plain t b s ha]
    simp [plainDecode, stepEncoded, hdec]
  have hfail : decodeFailed y = true ↔ y = .unknown := by cases y <;> simp [decodeFailed]
  have hunit := exec_decInstr s _ _ _ (stepEncoded t b s).1 y l (encodeLine_length_le _ _ _ _ _) hdec
  refine ⟨_, _, y, l, exec_tick s t b hr ht hb, by simpa using hunit, by simp, rfl, by simp [hstep], by simp [hstep],
    by simp [hstep], by simp [hstep, hfail], fun q => ?_, fun h => ?_⟩
  · simp [hstep, hfail, or_comm]
  · obtain ⟨k, hsess⟩ := sessionInv_of_tech h ht
    have hy := (stepDecoded_of_levels_agree t b s hsess.progress.decoder).2.2
    simpa [hstep, ha] using hy

/-- A `TICK` that completes the session gives its completion outputs (R164, R170). -/
theorem tick_completes {s u : State} {t : Technique} (hr : s.fsm = .running) (ht : s.tech = some t)
    (htick : exec .tick s = .next u) (hc : u.fsm = .completed) :
    (u.finalBits, u.frameError) = deframe u.config (framingOf t) u.decodedBits ∧
    u.verdict = verdictOf u.kind (framingOf t) u.finalBits u.origData := by
  rcases execTick_cases htick with ⟨hnr, -⟩ | ⟨t', b, -, ht', hb, rfl⟩
  · exact absurd hr hnr
  · obtain rfl := Option.some.inj (ht'.symm.trans ht)
    by_cases hdone : (bitStep t' b s).position = (bitStep t' b s).processedData.length
    · rw [completeIfDone_done _ _ hdone]
      exact ⟨rfl, rfl⟩
    · rw [completeIfDone_notDone _ _ hdone] at hc
      simp [hr] at hc

/-- Settles O22: each technique's row is the encoder of its line code, which `TICK` runs. -/
theorem tickEncodesTheCurrentBit : Obligations.TickEncodesTheCurrentBit := by
  refine ⟨⟨rfl, rfl, rfl, rfl, rfl, rfl⟩, ⟨rfl, rfl, rfl, rfl, rfl, rfl⟩, fun row hrow s b hr ht hb => ?_⟩
  have hinstr : row.2 = encInstr (lineCodeOf row.1) := by
    simp only [List.mem_cons, List.not_mem_nil, or_false] at hrow
    rcases hrow with rfl | rfl | rfl | rfl | rfl | rfl <;> rfl
  rw [hinstr]
  exact tick_encodes hr ht hb

/-- Settles O23: each technique's row is the decoder of its line code, which `TICK` runs on the points just appended. -/
theorem tickDecodesThePointsJustAppended : Obligations.TickDecodesThePointsJustAppended := by
  intro row hrow s b hr ht hb ha
  have hinstr : row.2 = decInstr (lineCodeOf row.1) := by
    simp only [List.mem_cons, List.not_mem_nil, or_false] at hrow
    rcases hrow with rfl | rfl | rfl | rfl | rfl | rfl <;> rfl
  rw [hinstr]
  exact tick_decodes hr ht hb ha

/-- Settles O25: the completion test follows the increment, and completing runs finalization. -/
theorem tickAdvancesAndCompletesAtTheEnd : Obligations.TickAdvancesAndCompletesAtTheEnd := by
  intro s t b hr ht hb
  have htick := exec_tick s t b hr ht hb
  obtain ⟨hok, hfsm⟩ := exec_tick_fsm htick hr
  exact ⟨_, htick, hok, by simp, by simpa using hfsm, tick_completes hr ht htick⟩

end Sys2Proof.Safety

/-! ## Finalization (R171 to R174) -/

namespace Sys2Proof.Machine

open Sys2Proof.Safety

/-- The framing's inverse takes back what `START` framed (R113, R126). -/
theorem deframe_frame (cfg : Config) {f : Framing} {p : List Bit} (h8 : f = .byte → p.length % 8 = 0) :
    deframe cfg f (asSymbols (frame f p).1) = (asSymbols p, false) := by
  cases f with
  | plain => rfl
  | bit =>
    have hback : destuffBits (stuffBits p).1 = p := destuffScan_stuffScan 0 0 p
    simp only [deframe, frame, destuffBitSymbols_asSymbols, hback]
  | byte =>
    have hback : destuffBytes cfg (stuffBytes p).1 = (p, false) := by
      rw [stuffBytes_eq_frameOf, destuffBytes_frameOf _ (segmentsOf_good p), segmentsOf_bytes (h8 rfl)]
    simp only [deframe, frame, destuffByteSymbols_asSymbols, hback]

theorem verdictOf_eq_none_iff {k : Option Kind} {f : Framing} {final : List Symbol} {orig : List Bit} :
    verdictOf k f final orig = .none ↔ ¬ (k = some .bitstream ∧ f = .plain) := by
  rw [← verdictApplies_iff]
  unfold verdictOf
  split
  · next h => split <;> simp [h]
  · next h => simp [h]

/-- Where the verdict applies it compares the two sequences (R174). -/
theorem verdictOf_of_applies {k : Option Kind} {f : Framing} (h : k = some .bitstream ∧ f = .plain)
    (final : List Symbol) (orig : List Bit) :
    verdictOf k f final orig = if final = asSymbols orig then .isMatch else .mismatch :=
  if_pos ((verdictApplies_iff k f).mpr h)

end Sys2Proof.Machine

namespace Sys2Proof.Safety

open Sys2Proof.Machine

/-- What is received is a Bitstring (R173). -/
theorem received_eq_asSymbols (errs : List Nat) (i : Nat) (x : List Bit) : ∃ y, received errs i x = asSymbols y := by
  induction x generalizing i with
  | nil => exact ⟨[], rfl⟩
  | cons b x ih =>
    obtain ⟨y, hy⟩ := ih (i + 1)
    exact ⟨_ :: y, by rw [received, hy, asSymbols_cons]⟩

/-- Errors inside the stream show. -/
theorem received_eq_self_iff {errs : List Nat} {x : List Bit} (h : ∀ p ∈ errs, p < x.length) :
    received errs 0 x = asSymbols x ↔ errs = [] := by
  refine ⟨fun heq => List.eq_nil_iff_forall_not_mem.mpr fun p hp => ?_, fun hnil => hnil ▸ received_nil 0 x⟩
  obtain ⟨b, hb⟩ : ∃ b, x[p]? = some b := ⟨_, List.getElem?_eq_getElem (h p hp)⟩
  have hget := received_get errs 0 x p b hb
  rw [heq] at hget
  have hflip : b = b.complement := by simpa [asSymbols, hb, hp] using hget
  exact Bit.complement_ne b hflip.symm

section
variable {t : Technique} {k : Kind} {s : State}

/-- At completion every bit has been stepped. -/
theorem SessionInv.stepped_of_completed (h : SessionInv t k s) (hc : s.fsm = .completed) :
    stepped s = s.processedData := by
  rw [stepped, h.progress.done.mp hc, List.take_length]

theorem SessionInv.decodedBits_of_completed (h : SessionInv t k s) (hc : s.fsm = .completed) :
    s.decodedBits = received s.errorPositions 0 s.processedData := by
  rw [h.progress.decoded, h.stepped_of_completed hc]

/-- A completed session with no error position delivers the payload (R174, R182). -/
theorem SessionInv.outputs_of_no_errors (h : SessionInv t k s) (hc : s.fsm = .completed) (he : s.errorPositions = []) :
    s.decodedBits = asSymbols s.processedData ∧ s.finalBits = asSymbols s.origData ∧ s.frameError = false := by
  have hdec : s.decodedBits = asSymbols s.processedData := by
    rw [h.decodedBits_of_completed hc, he, received_nil]
  obtain ⟨-, h8, -⟩ := (startValid_iff _ _ _).mp h.latched.valid
  have hout := h.outputs.deframed hc
  rw [hdec, h.latched.processed, deframe_frame _ h8] at hout
  exact ⟨hdec, Prod.mk.inj hout⟩

/-- A completed unframed session delivers the payload only if it has no error position. -/
theorem SessionInv.finalBits_eq_iff_of_plain (h : SessionInv t k s) (hc : s.fsm = .completed)
    (hf : framingOf t = .plain) : s.finalBits = asSymbols s.origData ↔ s.errorPositions = [] := by
  have horig : s.processedData = s.origData := by rw [h.latched.processed, hf, frame]
  have hfinal : s.finalBits = s.decodedBits := by
    have hout := h.outputs.deframed hc
    rw [hf] at hout
    exact congrArg Prod.fst hout
  have hbehind : ∀ p ∈ s.errorPositions, p < s.processedData.length := by
    rw [← h.progress.done.mp hc]
    exact h.progress.errorsBehind
  rw [hfinal, h.decodedBits_of_completed hc, ← horig]
  exact received_eq_self_iff hbehind

end

/-- Settles O27: `finalBits` is the framing's inverse of symbols that are a Bitstring, and without an error position that
Bitstring is what was framed. -/
theorem completionAppliesTheFramersInverse : Obligations.CompletionAppliesTheFramersInverse := by
  intro s u t hr ht htick hc
  have hout := (tick_completes hr ht htick hc).1
  have hok := (exec_tick_fsm htick hr).1
  have hcfg : u.config = s.config := by
    obtain ⟨hnr, -⟩ | ⟨_, _, -, -, -, rfl⟩ := execTick_cases htick
    · exact absurd hr hnr
    · simp
  refine ⟨fun hf => ?_, fun x out v hf hx hv hres => ?_, fun x out err v hf hx hv hres => ?_, fun h => ?_⟩
  · rw [hf] at hout
    exact Prod.mk.inj hout
  · rw [exec_destuffBit] at hv
    obtain rfl := Host.Outcome.next.inj hv
    obtain rfl := Result.destuffedBit.inj (Option.some.inj hres)
    rw [hf, hx, deframe, destuffBitSymbols_asSymbols] at hout
    exact Prod.mk.inj hout
  · rw [exec_destuffByte] at hv
    obtain rfl := Host.Outcome.next.inj hv
    obtain ⟨rfl, rfl⟩ := Result.destuffedByte.inj (Option.some.inj hres)
    rw [hf, hx, deframe, destuffByteSymbols_asSymbols, hcfg] at hout
    exact ⟨congrArg Prod.fst hout, congrArg Prod.snd hout, hok⟩
  · obtain ⟨k, -, hsess⟩ := sessionInv_of_tick h hr ht htick
    refine ⟨?_, fun herr he => ?_⟩
    · rw [hsess.progress.decoded]
      exact received_eq_asSymbols _ _ _
    · rw [(hsess.outputs_of_no_errors hc he).2.2] at herr
      cases herr

/-- Settles O28: where the verdict applies, the final bits are the payload exactly when no position is in error. -/
theorem verdictMatchesExactlyWithoutErrors : Obligations.VerdictMatchesExactlyWithoutErrors := by
  intro s t k h hc ht hk
  obtain ⟨k', hsess⟩ := sessionInv_of_tech h ht
  have hverdict := hsess.outputs.verdict hc
  rw [hk] at hverdict
  refine ⟨by simp [hverdict, verdictOf_eq_none_iff], fun hbits hf => ?_⟩
  have happlies : some k = some Kind.bitstream ∧ framingOf t = .plain := ⟨congrArg some hbits, hf⟩
  rw [verdictOf_of_applies happlies] at hverdict
  rw [ne_eq, ← hsess.finalBits_eq_iff_of_plain hc hf, hverdict]
  split <;> simp [*]

end Sys2Proof.Safety

/-! ## Sessions without `ARM` (R182) -/

namespace Sys2Proof.Safety

open Sys2Proof.Machine

/-- What every command of a sequence keeps, the whole sequence keeps. -/
theorem execAll_keeps {P : State → Prop} {cs : List Instr} (hkeep : ∀ i ∈ cs, ∀ s u, P s → exec i s = .next u → P u)
    {s v : State} (hs : P s) (h : execAll cs s = .next v) : P v := by
  induction cs generalizing s with
  | nil =>
    cases h
    exact hs
  | cons i cs ih =>
    obtain ⟨hi, hcs⟩ := List.forall_mem_cons.mp hkeep
    simp only [execAll] at h
    cases hexec : exec i s with
    | next u =>
      rw [hexec] at h
      exact ih hcs (hi s u hs hexec) h
    | fault r => rw [hexec] at h; cases h
    | refused r => rw [hexec] at h; cases h

/-- A session on the payload `p` in which no error has been armed. -/
structure ErrorFree (t : Technique) (k : Kind) (p : List Bit) (s : State) : Prop where
  session : SessionInv t k s
  notIdle : s.fsm ≠ .idle
  payload : s.origData = p
  notArmed : s.pendingErrorInjection = false
  noErrors : s.errorPositions = []

/-- An accepted `START` begins such a session. -/
theorem errorFree_of_start {t : Technique} {k : Kind} {p : List Bit} {s u : State} (hi : s.fsm = .idle)
    (h : exec (startInstr t k p) s = .next u) (hok : u.status = .ok) : ErrorFree t k p u := by
  obtain ⟨hv, rfl⟩ := exec_start_accepted h hi hok
  have hsess := sessionInv_beginSession t k s hv
  exact ⟨hsess.after_control Iff.rfl hsess.progress.notArmedAtEnd .ok none, by simp, rfl, rfl, rfl⟩

/-- Only `ARM` and `RESET` end it. -/
theorem ErrorFree.after_exec {t : Technique} {k : Kind} {p : List Bit} {i : Instr} {s u : State} (h : ErrorFree t k p s)
    (hi : i ≠ .arm ∧ i ≠ .reset) (hexec : exec i s = .next u) : ErrorFree t k p u := by
  obtain ⟨hsess, hidle⟩ := h.session.after_exec hexec hi.2 h.notIdle
  rcases exec_session_cases hexec hi.2 h.notIdle with ⟨f, a, st, r, rfl, -, -, ha⟩ | ⟨t', b, -, -, -, rfl⟩
  · rcases ha with rfl | ⟨harm, -⟩
    · exact ⟨hsess, hidle, h.payload, h.notArmed, h.noErrors⟩
    · exact absurd harm hi.1
  · have herror : (stepDecoded t' b s).error = false := by
      rw [(stepDecoded_of_levels_agree t' b s h.session.progress.decoder).2.1, h.notArmed]
    exact ⟨hsess, hidle, by simp [h.payload], by simp, by simp [recordError, herror, h.noErrors]⟩

/-- Settles O55: the commands keep the session free of errors, and such a session delivers its payload. -/
theorem errorFreeSessionsReconstructTheMessage : Obligations.ErrorFreeSessionsReconstructTheMessage := by
  intro s u v t k p cs hi hstart hok hcs hrun hc
  obtain ⟨hsess, -, rfl, -, hnone⟩ : ErrorFree t k p v :=
    execAll_keeps (fun i hmem _ _ h => h.after_exec (hcs i hmem)) (errorFree_of_start hi hstart hok) hrun
  obtain ⟨hdec, hfinal, hframe⟩ := hsess.outputs_of_no_errors hc hnone
  refine ⟨hdec, hnone, rfl, hfinal, hframe, ?_⟩
  rw [hsess.outputs.verdict hc, hsess.latched.kind, hfinal]
  simp [verdictOf, verdictApplies]

end Sys2Proof.Safety

/-! ## Index bookkeeping (R184) -/

namespace Sys2Proof.Machine

open Sys2Proof.Safety

theorem below_eq_zero {ins : List Nat} {p : Nat} (h : ∀ q ∈ ins, p ≤ q) : below ins p = 0 := by
  simpa [below] using h

theorem below_cons_of_lt {q p : Nat} (ins : List Nat) (h : q < p) : below (q :: ins) p = below ins p + 1 := by
  simp [below, h]

theorem inEscape_iff (ins : List Nat) (p : Nat) : inEscape ins p = true ↔ ∃ q ∈ ins, q ≤ p ∧ p < q + 8 := by
  simp [inEscape]

/-- The cells `y` written from the index `n` on, with blocks of `w` cells inserted at `ins`, hold the cells `x`: a cell outside
every inserted block is the one at its index less the cells of the blocks below it (R184). -/
def Projects (w n : Nat) (y : List Bit) (ins : List Nat) (x : List Bit) : Prop :=
  ∀ j < y.length, (∀ q ∈ ins, ¬ (q ≤ n + j ∧ n + j < q + w)) →
    ∃ m, j = m + w * below ins (n + j) ∧ y[j]? = x[m]?

theorem projects_nil (w n : Nat) : Projects w n [] [] [] := fun _ hj => absurd hj (Nat.not_lt_zero _)

/-- Cells that are copied. -/
theorem Projects.copied {w n l : Nat} {y x : List Bit} {ins : List Nat} (u : List Bit) (hu : u.length = l)
    (h : Projects w (n + l) y ins x) (hins : ∀ q ∈ ins, n + l ≤ q) : Projects w n (u ++ y) ins (u ++ x) := by
  subst hu
  intro j hj hout
  rw [List.length_append] at hj
  rcases Nat.lt_or_ge j u.length with hlt | hge
  · have hbelow : below ins (n + j) = 0 := below_eq_zero fun q hq => by
      have := hins q hq
      omega
    exact ⟨j, by simp [hbelow], by rw [List.getElem?_append_left hlt, List.getElem?_append_left hlt]⟩
  · obtain ⟨i, rfl⟩ := Nat.exists_eq_add_of_le hge
    rw [← Nat.add_assoc] at hout ⊢
    obtain ⟨m, hm, hcell⟩ := h i (by omega) hout
    exact ⟨u.length + m, by omega, by simpa [List.getElem?_append_right] using hcell⟩

/-- A block that is inserted. -/
theorem Projects.inserted {w n : Nat} {y x : List Bit} {ins : List Nat} (u : List Bit) (hw : 0 < w) (hu : u.length = w)
    (h : Projects w (n + w) y ins x) : Projects w n (u ++ y) (n :: ins) x := by
  intro j hj hout
  obtain ⟨hblock, hout⟩ := List.forall_mem_cons.mp hout
  obtain ⟨i, rfl⟩ := Nat.exists_eq_add_of_le (show w ≤ j by omega)
  rw [List.length_append] at hj
  rw [below_cons_of_lt ins (by omega), Nat.mul_add, Nat.mul_one]
  rw [← Nat.add_assoc] at hout ⊢
  obtain ⟨m, hm, hcell⟩ := h i (by omega) hout
  exact ⟨m, by omega, by simpa [List.getElem?_append_right, hu] using hcell⟩

/-- What the bit stuffer writes holds its input, with one cell inserted at each position. -/
theorem projects_stuffScan (c n : Nat) (x : List Bit) : Projects 1 n (stuffScan c n x).1 (stuffScan c n x).2 x := by
  induction x generalizing c n with
  | nil => exact projects_nil 1 n
  | cons b x ih =>
    have hafter : ∀ d m, ∀ q ∈ (stuffScan d m x).2, m ≤ q := fun d m q hq =>
      Nat.le_of_lt ((stuffScan_positions d m x).1 q hq)
    cases b with
    | zero => exact (ih 0 (n + 1)).copied [.zero] rfl (hafter 0 (n + 1))
    | one =>
      by_cases h4 : c = 4
      · subst h4
        rw [stuffScan_one_full]
        have hzero := (ih 0 (n + 2)).inserted [.zero] Nat.one_pos rfl
        refine hzero.copied [.one] rfl (List.forall_mem_cons.mpr ⟨Nat.le_refl _, fun q hq => ?_⟩)
        exact Nat.le_of_succ_le (hafter 0 (n + 2) q hq)
      · rw [stuffScan_one c n x h4]
        exact (ih (c + 1) (n + 1)).copied [.one] rfl (hafter (c + 1) (n + 1))

/-- What the byte stuffer writes holds its bytes, with an ESC inserted at each position. -/
theorem projects_escapeBytes (n : Nat) (bs : List (List Bit)) (h8 : ∀ B ∈ bs, B.length = 8) :
    Projects 8 n (escapeBytes n bs).1 (escapeBytes n bs).2 bs.flatten := by
  induction bs generalizing n with
  | nil => exact projects_nil 8 n
  | cons B bs ih =>
    obtain ⟨hB, h8⟩ := List.forall_mem_cons.mp h8
    have hcopied := fun m => (ih (m + 8) h8).copied B hB (escapeBytes_positions (m + 8) bs).1
    rw [List.flatten_cons]
    cases h : needsEscape B with
    | true =>
      rw [escapeBytes_escape n B bs h]
      exact (hcopied (n + 8)).inserted escByte (by decide) rfl
    | false =>
      rw [escapeBytes_copy n B bs h]
      exact hcopied n

theorem origIndex_plain {N p : Nat} (ins : List Nat) (h : p < N) : origIndex .plain N ins p = some p :=
  if_neg (Nat.not_le.mpr h)

/-- `origIndex` with bit stuffing (R184). -/
theorem origIndex_bit {N p : Nat} (ins : List Nat) (h : p < N) :
    origIndex .bit N ins p = if p ∈ ins then none else some (p - below ins p) :=
  if_neg (Nat.not_le.mpr h)

/-- `origIndex` with byte stuffing (R184). -/
theorem origIndex_byte {N p : Nat} (ins : List Nat) (h : p < N) :
    origIndex .byte N ins p =
      if p < 8 ∨ N - 8 ≤ p then none else if inEscape ins p then none else some (p - 8 - 8 * below ins p) :=
  if_neg (Nat.not_le.mpr h)

theorem lt_of_origIndex_eq_some {f : Framing} {N p k : Nat} {ins : List Nat} (h : origIndex f N ins p = some k) :
    p < N := by
  by_contra hp
  exact Option.some_ne_none k (h.symm.trans (if_pos (Nat.not_lt.mp hp)))

/-- The framed cell of which `origIndex` names a payload cell holds that cell's bit. -/
theorem frame_cell_of_origIndex {f : Framing} {x : List Bit} (h8 : f = .byte → x.length % 8 = 0) {p k : Nat}
    (h : origIndex f (frame f x).1.length (frame f x).2 p = some k) : (frame f x).1[p]? = x[k]? := by
  have hp := lt_of_origIndex_eq_some h
  cases f with
  | plain =>
    rw [origIndex_plain _ hp] at h
    rw [frame, Option.some.inj h]
  | bit =>
    rw [origIndex_bit _ hp] at h
    obtain ⟨hins, hk⟩ := Option.ite_none_left_eq_some.mp h
    have hcells : Projects 1 0 (frame .bit x).1 (frame .bit x).2 x := projects_stuffScan 0 0 x
    obtain ⟨m, hm, hcell⟩ := hcells p hp fun q hq hle => hins (by rwa [show p = q by omega])
    rw [Nat.zero_add] at hm
    have hk := Option.some.inj hk
    rw [hcell, show m = k by omega]
  | byte =>
    rw [origIndex_byte _ hp] at h
    obtain ⟨hin, h⟩ := Option.ite_none_left_eq_some.mp h
    obtain ⟨hesc, hk⟩ := Option.ite_none_left_eq_some.mp h
    rw [inEscape_iff] at hesc
    obtain ⟨j, rfl⟩ : ∃ j, p = 8 + j := ⟨p - 8, by omega⟩
    have hframe : (frame .byte x).1 = flagByte ++ ((escapeBytes 8 (wholeBytes x)).1 ++ flagByte) := rfl
    have hj : j < (escapeBytes 8 (wholeBytes x)).1.length := by
      simp only [hframe, List.length_append, flagByte_length] at hin
      omega
    have hflat : (wholeBytes x).flatten = x := by
      have hall := wholeBytes_flatten x
      rwa [leftoverCells_of_aligned x (h8 rfl), List.append_nil] at hall
    have hcells : Projects 8 8 (escapeBytes 8 (wholeBytes x)).1 (frame .byte x).2 x := by
      have hbytes := projects_escapeBytes 8 (wholeBytes x) (length_of_mem_wholeBytes x)
      rwa [hflat] at hbytes
    obtain ⟨m, hm, hcell⟩ := hcells j hj fun q hq hle => hesc ⟨q, hq, hle⟩
    have hk := Option.some.inj hk
    rw [hframe, List.getElem?_append_right (by simp), flagByte_length, Nat.add_sub_cancel_left,
      List.getElem?_append_left hj, hcell, show m = k by omega]

end Sys2Proof.Machine

namespace Sys2Proof.Safety

open Sys2Proof.Machine

/-- Settles O60: the formulas are `origIndex`'s own, and the framers' scans write the payload's cells where it says. -/
theorem origIndexFindsThePayloadCell : Obligations.OrigIndexFindsThePayloadCell := by
  refine ⟨fun N ins p hp => ⟨origIndex_plain ins hp, fun hins => ?_, fun hins => ?_, fun hend => ?_, fun hesc => ?_,
    fun hlo hhi hesc => ?_⟩, fun s t p k h ht hindex => ?_⟩
  · rw [origIndex_bit ins hp, if_pos hins]
  · rw [origIndex_bit ins hp, if_neg hins, below]
  · rw [origIndex_byte ins hp, if_pos hend]
  · rw [origIndex_byte ins hp, if_pos ((inEscape_iff ins p).mpr hesc), ite_self]
  · have hnone : ¬ inEscape ins p = true := by
      rw [inEscape_iff]
      exact fun ⟨q, hq, hle⟩ => hesc q hq hle
    rw [origIndex_byte ins hp, if_neg (by omega), if_neg hnone, below]
  · obtain ⟨kind, hsess⟩ := sessionInv_of_tech h ht
    obtain ⟨-, h8, -⟩ := (startValid_iff _ _ _).mp hsess.latched.valid
    have hp := lt_of_origIndex_eq_some hindex
    rw [hsess.latched.inserted, hsess.latched.processed] at hindex
    have hcell := frame_cell_of_origIndex h8 hindex
    rw [← hsess.latched.processed, List.getElem?_eq_getElem hp] at hcell
    exact ⟨_, List.getElem?_eq_getElem hp, hcell.symm⟩

end Sys2Proof.Safety

/-! PROOFS of the exceptions' statements (spec/60_exceptions.md R191, R194 to R196): what an armed `TICK` records, and what
each kind of refusal answers. -/

/-! ## The injected bit (R145, R162, R194) -/

namespace Sys2Proof.Machine

open Sys2Proof.Safety

/-- R145: where the line code carries the level of the signal, the injected step still takes it from the points. -/
theorem injectedDecode_decLevel_of_carried {lc : LineCode} (h : lc = .nrzi ∨ lc = .dman) (b : Bit) (l : Level)
    (pts : List SignalPoint) : (injectedDecode lc b l pts).decLevel = lastLevel l pts := by
  rcases h with rfl | rfl <;> rfl

/-- Elsewhere the injected step leaves the level alone. -/
theorem injectedDecode_decLevel_of_constant {lc : LineCode} (h : lc = .nrzl ∨ lc = .man) (b : Bit) (l : Level)
    (pts : List SignalPoint) : (injectedDecode lc b l pts).decLevel = l := by
  rcases h with rfl | rfl <;> rfl

/-! ## Refusals (R191, R195, R196, R198) -/

/-- R195: a transaction that carries no command is taken from the port and refused. -/
theorem step_of_decode_error {s : State} {tx : Transaction} {rest : List Transaction} {e : DecodeError}
    (hp : s.port = tx :: rest) (h : decode tx = .error e) :
    step s = .next (refusedWith .illegalCommand { s with port := rest }) := by
  rw [step_cons s tx rest hp, runTransaction, h]
  rfl

/-- R84: a word that matches no row carries no command, whatever follows it. -/
theorem decode_of_illegalWord {tx : Transaction} (h : decodeOpcode tx.cw = none) : decode tx = .error .illegalWord := by
  rw [decode, h]

/-- R120: `STUFF.BYTE` refuses a length that is not whole bytes. -/
theorem exec_stuffByte_of_unaligned {x : List Bit} (h : x.length % 8 ≠ 0) (s : State) :
    exec (.stuffByte x) s = .next (refusedWith .illegalCommand s) :=
  if_neg (by simpa [byteAligned] using h)

/-- R196: `START` outside `Idle`. -/
theorem exec_start_wrongState {s : State} (h : s.fsm ≠ .idle) (t : Technique) (k : Kind) (p : List Bit) :
    exec (startInstr t k p) s = .next (refusedWith .illegalState s) :=
  (exec_startInstr t k p s).trans (startSession_wrongState t k p s h)

/-- R153, R154, R155: each of the three causes of `ValidationError` fails one of `START`'s tests. -/
theorem startValid_eq_false {cfg : Config} {t : Technique} {p : List Bit}
    (h : p = [] ∨ (t = .bytestuff ∧ p.length % 8 ≠ 0) ∨
      ∃ c, cfg.cap = some c ∧ c < (frame (framingOf t) p).1.length) :
    startValid cfg (framingOf t) p = false := by
  refine Bool.eq_false_iff.mpr fun hv => ?_
  obtain ⟨hne, h8, hcap⟩ := (startValid_iff _ _ _).mp hv
  rcases h with hp | ⟨rfl, hodd⟩ | ⟨c, hc, hlong⟩
  · exact hne hp
  · exact hodd (h8 rfl)
  · exact absurd (hcap c hc) (by omega)

end Sys2Proof.Machine

/-! ## The statements -/

namespace Sys2Proof.Safety

open Sys2Proof.Machine

/-- Settles O24: the injected decoding half replaces the decoder's, and the completion test keeps what it wrote. -/
theorem armedTickComplementsTheBit : Obligations.ArmedTickComplementsTheBit := by
  intro s t b hr ht hb ha
  have hinj := stepDecoded_injected t b s ha
  have hy : (stepDecoded t b s).y = .bit b.complement := congrArg StepDecode.y hinj
  have he : (stepDecoded t b s).error = true := congrArg StepDecode.error hinj
  refine ⟨_, exec_tick s t b hr ht hb, rfl, by simp [hy], fun q => by simp [he, or_comm], by simp, by simp [hy],
    by simp [he], fun hcarried => ?_, fun hconstant => ?_⟩
  · simp [hinj, injectedDecode_decLevel_of_carried hcarried, stepEncoded, lastLevel_encodeLine _ _ _ _ _ _ hcarried]
  · simp [hinj, injectedDecode_decLevel_of_constant hconstant]

/-- Settles O3: neither an illegal word nor a reserved operand decodes, and the refused shapes have no meaning. -/
theorem illegalCommandsChangeOnlyStatus : Obligations.IllegalCommandsChangeOnlyStatus := by
  refine ⟨fun s tx rest hp h => ?_, fun s i l pts hpts => ⟨?_, ?_⟩, fun s x h => exec_stuffByte_of_unaligned h s⟩
  · rcases h with hword | hoperand
    · exact step_of_decode_error hp (decode_of_illegalWord hword)
    · exact step_of_decode_error hp hoperand
  · exact exec_decInstr_of_decodeLine_eq_none (decodeLine_eq_none_of_length_ne_one (.inl rfl) s.config i l hpts)
  · exact exec_decInstr_of_decodeLine_eq_none (decodeLine_eq_none_of_length_ne_one (.inr rfl) s.config i l hpts)

/-- Settles O13: each cause fails a test of `START`, and with no capacity the last of them cannot arise. -/
theorem invalidStartChangesOnlyStatus : Obligations.InvalidStartChangesOnlyStatus := by
  refine ⟨fun s t k p hi h => ?_, fun s u t k p hi hcap hp h8 h => ?_, rfl⟩
  · exact (exec_startInstr t k p s).trans (startSession_invalid t k p s hi (startValid_eq_false h))
  · obtain ⟨v, hv, hstatus, hlong⟩ := exec_start_status s t k p hi hp h8
    obtain rfl := Host.Outcome.next.inj (hv.symm.trans h)
    refine hstatus.resolve_right fun hinvalid => ?_
    obtain ⟨c, hc, -⟩ := hlong.mp hinvalid
    simp [hcap] at hc

/-- Settles O17: each command's test of `fsm` fails, and neither `RESET` nor a unit operation has one. -/
theorem commandsOutOfTheirStateChangeOnlyStatus : Obligations.CommandsOutOfTheirStateChangeOnlyStatus := by
  refine ⟨fun s t k p h => exec_start_wrongState h t k p, fun s h => ⟨execTick_wrongState s h, ?_, ?_⟩,
    fun s h => (exec_resume s).trans (if_neg h), fun s u i hi h => ?_⟩
  · exact (exec_arm s).trans (if_neg h)
  · exact (exec_pause s).trans (if_neg h)
  · rcases hi with rfl | hunit
    · obtain rfl := Host.Outcome.next.inj ((exec_reset s).symm.trans h)
      simp [State.reset]
    · obtain ⟨-, hok | hillegal⟩ := exec_unit_move hunit h
      · simp [hok]
      · simp [hillegal]

end Sys2Proof.Safety

/-! PROOFS of the statements about session starts and session ends (spec/70_reset_and_hazards.md R223, R233): how far each
command advances a session, and what a sequence of commands makes of that. -/

/-! ## How far a command advances a session (R160, R168, R233) -/

namespace Sys2Proof.Safety

open Sys2Proof.Machine

/-- A `TICK` that succeeds advances `position` by one, one that is refused does not. -/
theorem exec_tick_position {s u : State} (h : exec .tick s = .next u) :
    u.position = s.position + (if u.status = .ok then 1 else 0) ∧ u.processedData = s.processedData := by
  rcases execTick_cases h with ⟨-, rfl⟩ | ⟨t, b, -, -, -, rfl⟩
  · simp
  · simp

/-- Outside `Idle` no command but `RESET` and `TICK` moves the session along. -/
theorem exec_position_of_ne_tick {i : Instr} {s u : State} (h : exec i s = .next u) (hreset : i ≠ .reset)
    (htick : i ≠ .tick) (hs : s.fsm ≠ .idle) : u.position = s.position ∧ u.processedData = s.processedData := by
  rcases exec_cases h with ⟨k, rfl⟩ | ⟨-, r, rfl⟩ | ⟨hi, -⟩ | ⟨t, k, p, -, hidle, -⟩ | ⟨hi, -⟩ |
    ⟨-, -, rfl⟩ | ⟨-, -, rfl⟩ | ⟨-, -, rfl⟩
  · exact ⟨rfl, rfl⟩
  · exact ⟨rfl, rfl⟩
  · exact absurd hi hreset
  · exact absurd hidle hs
  · exact absurd hi htick
  all_goals exact ⟨rfl, rfl⟩

/-- R233, for one command: `position` counts the `TICK`s that succeed. -/
theorem exec_position {i : Instr} {s u : State} (h : exec i s = .next u) (hreset : i ≠ .reset) (hs : s.fsm ≠ .idle) :
    u.position = s.position + (if i = .tick ∧ u.status = .ok then 1 else 0) ∧ u.processedData = s.processedData := by
  by_cases htick : i = .tick
  · subst htick
    simpa using exec_tick_position h
  · simpa [htick] using exec_position_of_ne_tick h hreset htick hs

/-! ## Sequences of commands (R62, R233) -/

/-- A sequence answers a next state exactly when its first command does and the others do from there. -/
theorem execAll_cons_eq_next_iff {i : Instr} {cs : List Instr} {s v : State} :
    execAll (i :: cs) s = .next v ↔ ∃ u, exec i s = .next u ∧ execAll cs u = .next v := by
  cases h : exec i s <;> simp [execAll, h]

theorem succeededTicks_cons_of_next {i : Instr} {s u : State} (h : exec i s = .next u) (cs : List Instr) :
    succeededTicks (i :: cs) s = (if i = .tick ∧ u.status = .ok then 1 else 0) + succeededTicks cs u := by
  simp [succeededTicks, h]

/-- R233, for a sequence without `RESET`: the session lasts, on the same framed bitstring, and `position` has advanced by the
`TICK`s that succeeded. -/
theorem SessionInv.after_execAll {t : Technique} {k : Kind} {cs : List Instr} {s v : State} (hsess : SessionInv t k s)
    (hs : s.fsm ≠ .idle) (hcs : ∀ i ∈ cs, i ≠ .reset) (h : execAll cs s = .next v) :
    SessionInv t k v ∧ v.position = s.position + succeededTicks cs s ∧ v.processedData = s.processedData := by
  induction cs generalizing s with
  | nil =>
    cases h
    exact ⟨hsess, rfl, rfl⟩
  | cons i cs ih =>
    obtain ⟨hi, hcs⟩ := List.forall_mem_cons.mp hcs
    obtain ⟨u, hexec, hrest⟩ := execAll_cons_eq_next_iff.mp h
    obtain ⟨husess, hu⟩ := hsess.after_exec hexec hi hs
    obtain ⟨hpos, hpd⟩ := exec_position hexec hi hs
    obtain ⟨hvsess, hvpos, hvpd⟩ := ih husess hu hcs hrest
    exact ⟨hvsess, by rw [hvpos, hpos, succeededTicks_cons_of_next hexec, Nat.add_assoc], hvpd.trans hpd⟩

/-! ## `TICK`s alone (R164, R233) -/

/-- A `TICK` on a bit that is there succeeds, and completes the session exactly on the last one. -/
theorem exec_tick_of_remaining {s : State} {t : Technique} (hr : s.fsm = .running) (ht : s.tech = some t)
    (hlt : s.position < s.processedData.length) :
    ∃ u, exec .tick s = .next u ∧ u.tech = some t ∧ u.position = s.position + 1 ∧
      u.processedData = s.processedData ∧
      u.fsm = if s.position + 1 = s.processedData.length then .completed else .running := by
  refine ⟨_, exec_tick s t _ hr ht (List.getElem?_eq_getElem hlt), ?_, ?_, ?_, ?_⟩ <;> simp [completeIfDone_fsm, hr, ht]

/-- `ticks n` and one `TICK` more (R87). -/
theorem execAll_ticks_succ {n : Nat} {s u v : State} (h : execAll (ticks n) s = .next u) (htick : exec .tick u = .next v) :
    execAll (ticks (n + 1)) s = .next v := by
  rw [ticks, List.replicate_succ', ← ticks, execAll_append_of_next h]
  exact execAll_cons_eq_next_iff.mpr ⟨v, htick, rfl⟩

/-- As long as bits remain the session runs on, one bit further for each `TICK`. -/
theorem execAll_ticks_of_remaining {s : State} {t : Technique} (hr : s.fsm = .running) (ht : s.tech = some t) (n : Nat)
    (hlt : s.position + n < s.processedData.length) :
    ∃ u, execAll (ticks n) s = .next u ∧ u.fsm = .running ∧ u.tech = some t ∧ u.position = s.position + n ∧
      u.processedData = s.processedData := by
  induction n with
  | zero => exact ⟨s, rfl, hr, ht, rfl, rfl⟩
  | succ n ih =>
    obtain ⟨u, hrun, hur, hut, hupos, hupd⟩ := ih (by omega)
    obtain ⟨v, htick, hvt, hvpos, hvpd, hvfsm⟩ := exec_tick_of_remaining hur hut (by rw [hupos, hupd]; omega)
    rw [if_neg (by rw [hupos, hupd]; omega)] at hvfsm
    exact ⟨v, execAll_ticks_succ hrun htick, hvfsm, hvt, by rw [hvpos, hupos, Nat.add_assoc], hvpd.trans hupd⟩

/-- The `TICK` on the last bit completes the session. -/
theorem execAll_ticks_completes {s : State} {t : Technique} (hr : s.fsm = .running) (ht : s.tech = some t)
    (hlt : s.position < s.processedData.length) :
    ∃ u, execAll (ticks (s.processedData.length - s.position)) s = .next u ∧ u.fsm = .completed := by
  obtain ⟨n, hn⟩ := Nat.exists_eq_add_of_lt hlt
  obtain ⟨u, hrun, hur, hut, hupos, hupd⟩ := execAll_ticks_of_remaining hr ht n (by omega)
  obtain ⟨v, htick, -, -, -, hvfsm⟩ := exec_tick_of_remaining hur hut (by rw [hupos, hupd]; omega)
  rw [if_pos (by rw [hupos, hupd, hn])] at hvfsm
  have hlast : s.processedData.length - s.position = n + 1 := by omega
  exact ⟨v, hlast ▸ execAll_ticks_succ hrun htick, hvfsm⟩

/-! ## The statements -/

/-- Settles O14: the values stand in the writes of an accepted `START`. -/
theorem acceptedStartSetsTheSessionStartValues : Obligations.AcceptedStartSetsTheSessionStartValues := by
  refine ⟨fun s u t k p hi h hok => ?_, fun cfg => ⟨rfl, rfl, rfl, rfl⟩, rfl, rfl⟩
  obtain ⟨-, rfl⟩ := exec_start_accepted h hi hok
  exact ⟨rfl, rfl, rfl, rfl, rfl, rfl, rfl⟩

/-- Settles O58: `position` counts the `TICK`s that succeed, and a session is `Completed` exactly when `position` has reached
the end of the framed bitstring. -/
theorem sessionsEndAfterTheirRemainingTicks : Obligations.SessionsEndAfterTheirRemainingTicks := by
  refine ⟨fun s hinv hr => ?_, fun s v cs hinv hs hcs h => ?_⟩
  · rcases machineInv_cases hinv with ⟨hidle, -⟩ | ⟨-, t, k, hsess⟩
    · simp [hr] at hidle
    have ht := hsess.latched.tech
    have hinside := hsess.progress.inside
    have hnotDone : s.position ≠ s.processedData.length := by simp [← hsess.progress.done, hr]
    refine ⟨execAll_ticks_completes hr ht (by omega), fun n hn => ?_⟩
    obtain ⟨u, hrun, hur, -, hupos, -⟩ := execAll_ticks_of_remaining hr ht n (by omega)
    exact ⟨u, hrun, hur, hupos⟩
  · rcases machineInv_cases hinv with ⟨hidle, -⟩ | ⟨-, t, k, hsess⟩
    · exact absurd hidle hs
    obtain ⟨hvsess, hpos, hpd⟩ := hsess.after_execAll hs hcs h
    have hinside := hsess.progress.inside
    refine ⟨hpos, ?_⟩
    rw [hvsess.progress.done, hpos, hpd]
    omega

end Sys2Proof.Safety

/-! PROOFS of the encoding's statements about whole transactions and their step (spec/30_encoding.md R70, R76 to R84): each
operand reader against the fields it is for, and with it the decoder against the encoder. -/

/-! ## An operand reader and the fields it is for (R76) -/

namespace Sys2Proof

/-- `read` is for the fields `w`, which carry `a`: it takes exactly `w` from the front of a transaction, and misses an operand in
every proper part of `w`. -/
structure Carries {α : Type} (read : List Nat → Reading α) (w : List Nat) (a : α) : Prop where
  whole : ∀ rest, read (w ++ rest) = .ok (a, rest)
  cut : ∀ fields cut, cut ≠ [] → fields ++ cut = w → read fields = .error .missingOperand

/-- No fields have no proper part. -/
theorem carries_nothing : Carries (fun ops => .ok ((), ops)) [] () :=
  ⟨fun _ => rfl, fun _ _ hcut h => absurd (List.append_eq_nil_iff.mp h).2 hcut⟩

theorem readBits_of_cut {x : List Bit} {fields cut : List Nat} (hcut : cut ≠ [])
    (h : fields ++ cut = x.map Bit.code) : readBits x.length fields = .error .missingOperand := by
  induction x generalizing fields with
  | nil => exact absurd (List.append_eq_nil_iff.mp h).2 hcut
  | cons b x ih =>
    cases fields with
    | nil => rfl
    | cons n fields =>
      simp only [List.cons_append, List.map_cons, List.cons.injEq] at h
      obtain ⟨rfl, h⟩ := h
      simp [readBits, ih h]

theorem carries_bitstring (x : List Bit) : Carries readBitstring (bitstringFields x) x := by
  refine ⟨readBitstring_fields x, fun fields cut hcut h => ?_⟩
  cases fields with
  | nil => rfl
  | cons n fields =>
    simp only [List.cons_append, bitstringFields, List.cons.injEq] at h
    obtain ⟨rfl, h⟩ := h
    exact readBits_of_cut hcut h

theorem carries_enc (b : Bit) (i : Nat) (l : Level) : Carries readEnc (encFields b i l) (b, i, l) := by
  refine ⟨readEnc_fields b i l, fun fields cut hcut h => ?_⟩
  match fields with
  | [] => rfl
  | [n] =>
    obtain ⟨rfl, -⟩ := List.cons_eq_cons.mp h
    simp [readEnc, readNat]
  | [n, m] =>
    obtain ⟨rfl, -⟩ := List.cons_eq_cons.mp h
    simp [readEnc, readLevel]
  | n :: m :: k :: fields => exact absurd h (by simp [encFields, hcut])

theorem readPointList_of_cut {pts : List SignalPoint} {fields cut : List Nat} (hcut : cut ≠ [])
    (h : fields ++ cut = pts.flatMap pointFields) : readPointList pts.length fields = .error .missingOperand := by
  induction pts generalizing fields with
  | nil => exact absurd (List.append_eq_nil_iff.mp h).2 hcut
  | cons p pts ih =>
    match fields with
    | [] => rfl
    | [t2] => rfl
    | t2 :: lv :: fields =>
      simp only [List.cons_append, List.flatMap_cons, pointFields, List.nil_append, List.cons.injEq] at h
      obtain ⟨rfl, rfl, h⟩ := h
      simp [readPointList, readPoint, ih h]

theorem carries_dec (i : Nat) (l : Level) {pts : List SignalPoint} (hpts : pts.length ≤ 2) :
    Carries readDec (decFields i l pts) (i, l, pts) := by
  refine ⟨fun rest => readDec_fields i l pts rest hpts, fun fields cut hcut h => ?_⟩
  match fields with
  | [] => rfl
  | [n] => rfl
  | [n, m] =>
    simp only [List.cons_append, decFields, List.cons.injEq] at h
    obtain ⟨rfl, rfl, -⟩ := h
    simp [readDec, readPoints, readNat]
  | n :: m :: k :: fields =>
    simp only [List.cons_append, decFields, List.cons.injEq] at h
    obtain ⟨rfl, rfl, rfl, h⟩ := h
    simp [readDec, readPoints, hpts, readPointList_of_cut hcut h]

/-- The operands of a well-formed command are read by a reader that its fields are for. -/
theorem decodeOperands_carries {i : Instr} (h : i.wellFormed = true) :
    ∃ (α : Type) (read : List Nat → Reading α) (a : α) (f : α → Instr), f a = i ∧
      (∀ ops, decodeOperands i.opcode ops = finish (read ops) f) ∧ Carries read i.operandFields a := by
  cases i with
  | reset | tick | arm | pause | resume => exact ⟨_, _, _, _, rfl, fun _ => rfl, carries_nothing⟩
  | startNrzl k x | startNrzi k x | startMan k x | startDman k x | startBitstuff k x | startBytestuff k x =>
    exact ⟨_, _, _, _, rfl, fun _ => rfl, carries_bitstring x⟩
  | encNrzl b i l | encNrzi b i l | encMan b i l | encDman b i l =>
    exact ⟨_, readEnc, (b, i, l), _, rfl, fun _ => rfl, carries_enc b i l⟩
  | decNrzl i l pts | decNrzi i l pts | decMan i l pts | decDman i l pts =>
    exact ⟨_, readDec, (i, l, pts), _, rfl, fun _ => rfl, carries_dec i l (of_decide_eq_true h)⟩
  | stuffBit x | stuffByte x | destuffBit x | destuffByte x =>
    exact ⟨_, _, _, _, rfl, fun _ => rfl, carries_bitstring x⟩

/-! ## The decoder on the transactions of an opcode (R76, R84, R85) -/

/-- The word of an opcode leaves its operands to be read (R85). -/
theorem decode_encodeOpcode (o : Opcode) (ops : List Nat) :
    decode { cw := encodeOpcode o, operands := ops } = decodeOperands o ops := by
  simp [decode, decodeOpcode_encodeOpcode]

/-- A command's fields are read back, and what follows them decides whether the transaction ends. -/
theorem decode_fields_append {i : Instr} (h : i.wellFormed = true) (rest : List Nat) :
    decode { cw := encodeOpcode i.opcode, operands := i.operandFields ++ rest } = noOperands rest i := by
  obtain ⟨α, read, a, f, rfl, hread, hcarries⟩ := decodeOperands_carries h
  rw [decode_encodeOpcode, hread, hcarries.whole]
  cases rest <;> rfl

theorem decode_encode {i : Instr} (h : i.wellFormed = true) : decode (encode i) = .ok i := by
  have hwhole := decode_fields_append h []
  rwa [List.append_nil] at hwhole

/-- The transaction the encoder writes for a command, however it is written down. -/
theorem decode_of_encode {i : Instr} {tx : Transaction} (htx : encode i = tx) (h : i.wellFormed = true) :
    decode tx = .ok i := htx ▸ decode_encode h

/-- A proper part of a command's fields lacks an operand. -/
theorem decode_of_cut {i : Instr} (h : i.wellFormed = true) {fields cut : List Nat} (hcut : cut ≠ [])
    (hfields : fields ++ cut = i.operandFields) :
    decode { cw := encodeOpcode i.opcode, operands := fields } = .error .missingOperand := by
  obtain ⟨α, read, a, f, -, hread, hcarries⟩ := decodeOperands_carries h
  rw [decode_encodeOpcode, hread, hcarries.cut fields cut hcut hfields]
  rfl

/-! ## Reserved codes among the operands (R84, U11) -/

theorem readBit_of_reserved {n : Nat} (h : 2 ≤ n) (rest : List Nat) : readBit (n :: rest) = .error .reservedOperand := by
  simp [readBit, bitOfCode_eq_none n h]

theorem readLevel_of_reserved {n : Nat} (h : 2 ≤ n) (rest : List Nat) :
    readLevel (n :: rest) = .error .reservedOperand := by
  simp [readLevel, levelOfCode_eq_none n h]

theorem readBits_of_reserved {x : List Bit} {n m : Nat} (hm : 2 ≤ m) (hn : x.length < n) (rest : List Nat) :
    readBits n (x.map Bit.code ++ m :: rest) = .error .reservedOperand := by
  induction n generalizing x with
  | zero => cases hn
  | succ n ih =>
    cases x with
    | nil => simp [readBits, readBit_of_reserved hm]
    | cons b x => simp [readBits, ih (Nat.lt_of_succ_lt_succ hn)]

theorem readBitstring_of_reserved {x : List Bit} {n m : Nat} (hm : 2 ≤ m) (hn : x.length < n) (rest : List Nat) :
    readBitstring (n :: (x.map Bit.code ++ m :: rest)) = .error .reservedOperand :=
  readBits_of_reserved hm hn rest

theorem readPointList_of_reserved {pts : List SignalPoint} {n lv : Nat} (hlv : 2 ≤ lv) (hn : pts.length < n)
    (t2 : Nat) (rest : List Nat) :
    readPointList n (pts.flatMap pointFields ++ t2 :: lv :: rest) = .error .reservedOperand := by
  induction n generalizing pts with
  | zero => cases hn
  | succ n ih =>
    cases pts with
    | nil => simp [readPointList, readPoint, readLevel_of_reserved hlv]
    | cons p pts => simp [readPointList, List.append_assoc, ih (Nat.lt_of_succ_lt_succ hn)]

/-- An operand outside its digits is reported by the command whose reader meets it. -/
theorem decode_of_reserved {α : Type} {o : Opcode} {ops : List Nat} {read : List Nat → Reading α} {f : α → Instr}
    (ho : decodeOperands o ops = finish (read ops) f) (h : read ops = .error .reservedOperand) :
    decode { cw := encodeOpcode o, operands := ops } = .error .reservedOperand := by
  rw [decode_encodeOpcode, ho, h]
  rfl

/-! ## What a transaction that decodes carries (R70, R76) -/

/-- The command read for an opcode is of that opcode, its fields are the operands, and it is well formed. -/
theorem decodeOperands_eq_ok {o : Opcode} {ops : List Nat} {i : Instr} (h : decodeOperands o ops = .ok i) :
    i.opcode = o ∧ i.operandFields = ops ∧ i.wellFormed = true := by
  cases o with
  | reset | tick | arm | pause | resume =>
    obtain ⟨a, hread, rfl⟩ := finish_eq_ok h
    obtain ⟨-, rfl⟩ := Prod.mk.inj (Except.ok.inj hread)
    exact ⟨rfl, rfl, rfl⟩
  | start t k =>
    obtain ⟨x, hread, rfl⟩ := finish_eq_ok h
    obtain rfl := (readBitstring_ok hread).trans (List.append_nil _)
    cases t <;> exact ⟨rfl, rfl, rfl⟩
  | enc lc =>
    obtain ⟨a, hread, rfl⟩ := finish_eq_ok h
    obtain rfl := (readEnc_ok hread).trans (List.append_nil _)
    cases lc <;> exact ⟨rfl, rfl, rfl⟩
  | dec lc =>
    obtain ⟨a, hread, rfl⟩ := finish_eq_ok h
    obtain ⟨hops, hpts⟩ := readDec_ok hread
    obtain rfl := hops.trans (List.append_nil _)
    cases lc <;> exact ⟨rfl, rfl, decide_eq_true hpts⟩
  | stuffBit | stuffByte | destuffBit | destuffByte =>
    obtain ⟨x, hread, rfl⟩ := finish_eq_ok h
    obtain rfl := (readBitstring_ok hread).trans (List.append_nil _)
    exact ⟨rfl, rfl, rfl⟩

end Sys2Proof

/-! ## The statements -/

namespace Sys2Proof.Safety

open Sys2Proof.Machine

/-- Settles O7: the reader of a command's operands takes exactly the fields the encoder writes. -/
theorem decodeInvertsEncode : Obligations.DecodeInvertsEncode := fun _ h => decode_encode h

/-- Settles O8: the word is the one of the opcode it names, and the operands are the fields of what was read. -/
theorem encodeInvertsDecode : Obligations.EncodeInvertsDecode := by
  intro tx i h
  obtain ⟨o, hword, hoperands⟩ := decode_eq_ok h
  obtain ⟨rfl, hfields, hwf⟩ := decodeOperands_eq_ok hoperands
  rw [encode, encodeOpcode_of_decodeOpcode hword, hfields]
  exact ⟨rfl, hwf⟩

/-- Settles O4: each reader reports the first field outside its digits, or the field it lacks. -/
theorem badOperandFieldsAreRefused : Obligations.BadOperandFieldsAreRefused := by
  refine ⟨fun lc n i l rest hn => ?_, fun lc b i l rest hl => ?_, fun lc i l npts rest hnpts => ?_,
    fun lc i l rest hl => ?_, fun lc i l npts pts t2 lv rest hlen hnpts hlv => ?_,
    fun t k x n m rest hm hn => decode_of_reserved rfl (readBitstring_of_reserved hm hn rest),
    fun o ho x n m rest hm hn => ?_, fun i extra more hwf => decode_fields_append hwf (extra :: more),
    fun i fields cut hwf hcut h => decode_of_cut hwf hcut h, fun s tx rest e hp h => step_of_decode_error hp h⟩
  · exact decode_of_reserved rfl (by simp [readEnc, readBit_of_reserved hn])
  · exact decode_of_reserved rfl (by simp [readEnc, readLevel_of_reserved hl])
  · exact decode_of_reserved rfl (by simp [readDec, readPoints, Nat.not_le.mpr hnpts])
  · exact decode_of_reserved rfl (by simp [readDec, readLevel_of_reserved hl])
  · exact decode_of_reserved rfl (by simp [readDec, readPoints, hnpts, readPointList_of_reserved hlv hlen])
  · have hread := readBitstring_of_reserved hm hn rest
    simp only [List.mem_cons, List.not_mem_nil, or_false] at ho
    rcases ho with rfl | rfl | rfl | rfl <;> exact decode_of_reserved rfl hread

/-- Settles O5, by the two branches of a step. -/
theorem stepRunsTheDecodedCommand : Obligations.StepRunsTheDecodedCommand := by
  refine ⟨fun s tx rest i hp h => ?_, step_nil⟩
  rw [step_cons s tx rest hp, runTransaction, h]

/-- Settles O6: each of the transactions is the one the encoder writes for its command. -/
theorem wordsOfEveryFamilyDecode : Obligations.WordsOfEveryFamilyDecode :=
  ⟨decode_of_encode rfl rfl, decode_of_encode rfl rfl, decode_of_encode rfl rfl, decode_of_encode rfl rfl,
    decode_of_encode rfl rfl, decode_of_encode rfl rfl, decode_of_encode rfl rfl, decode_of_encode rfl rfl,
    decode_of_encode rfl rfl, decode_of_encode rfl rfl, decode_of_encode rfl rfl, decode_of_encode rfl rfl,
    decode_of_encode rfl rfl⟩

end Sys2Proof.Safety

/-! PROOFS of the frames and invariants over every command and every step (spec/10_state.md R35, R37, spec/20_memory.md R61,
spec/60_exceptions.md section 3): what of a state the invariants do not read, and then one case for each answer of a command. -/

/-! ## The machine invariant (R32 to R35) -/

namespace Sys2Proof.Safety

open Sys2Proof.Machine

theorem machineInv_of_sessionInv {t : Technique} {k : Kind} {s : State} (h : SessionInv t k s) (hs : s.fsm ≠ .idle) :
    MachineInv s := by
  rw [MachineInv, if_neg hs]
  exact ⟨t, k, h⟩

theorem machineInv_of_idleAtReset {s : State} (h : idleAtReset s) (hs : s.fsm = .idle) : MachineInv s := by
  rwa [MachineInv, if_pos hs]

/-- The session does not depend on what waits at the port. -/
theorem SessionInv.with_port {t : Technique} {k : Kind} {s : State} (h : SessionInv t k s) (port : List Transaction) :
    SessionInv t k { s with port := port } :=
  ⟨{ h.latched with }, { h.progress with }, { h.report with }, { h.outputs with }⟩

/-- The invariant reads neither the last command's report nor the port. -/
theorem MachineInv.with_report_and_port {s : State} (h : MachineInv s) (st : Status) (r : Option Result)
    (port : List Transaction) : MachineInv { s with status := st, result := r, port := port } := by
  rcases machineInv_cases h with ⟨hi, hidle⟩ | ⟨hs, t, k, hsess⟩
  · have hreset := congrArg (fun u : State => { u with status := st, result := r, port := port }) hidle
    exact machineInv_of_idleAtReset hreset hi
  · have hcontrol := hsess.after_control Iff.rfl hsess.progress.notArmedAtEnd st r
    exact machineInv_of_sessionInv (hcontrol.with_port port) hs

theorem machineInv_reset (cfg : Config) (port : List Transaction) :
    MachineInv { State.reset with config := cfg, port := port } :=
  machineInv_of_idleAtReset rfl rfl

/-- In `Idle` a command reports, resets or begins a session (R150). -/
theorem MachineInv.after_exec_idle {i : Instr} {s u : State} (h : MachineInv s) (hi : s.fsm = .idle)
    (hexec : exec i s = .next u) : MachineInv u := by
  rcases exec_cases hexec with ⟨k, rfl⟩ | ⟨-, r, rfl⟩ | ⟨-, rfl⟩ | ⟨t, k, p, -, -, hv, rfl⟩ | ⟨-, t, b, hf, -⟩ |
    ⟨-, hf, -⟩ | ⟨-, hf, -⟩ | ⟨-, hf, -⟩
  · exact h.with_report_and_port k s.result s.port
  · exact h.with_report_and_port .ok (some r) s.port
  · exact machineInv_reset s.config s.port
  · have hbegun := machineInv_of_sessionInv (sessionInv_beginSession t k s hv) (by simp)
    exact hbegun.with_report_and_port .ok none s.port
  all_goals exact absurd (hi.symm.trans hf) (by decide)

/-- Every command keeps the invariant. -/
theorem MachineInv.after_exec {i : Instr} {s u : State} (h : MachineInv s) (hexec : exec i s = .next u) :
    MachineInv u := by
  rcases machineInv_cases h with ⟨hi, -⟩ | ⟨hs, t, k, hsess⟩
  · exact h.after_exec_idle hi hexec
  by_cases hreset : i = .reset
  · subst hreset
    obtain rfl := Host.Outcome.next.inj ((exec_reset s).symm.trans hexec)
    exact machineInv_reset s.config s.port
  · obtain ⟨husess, hu⟩ := hsess.after_exec hexec hreset hs
    exact machineInv_of_sessionInv husess hu

/-- `START` is refused or begins a session, in every state (R156, R191, R196). -/
theorem exec_start_answers (t : Technique) (k : Kind) (p : List Bit) (s : State) :
    ∃ u, exec (startInstr t k p) s = .next u := by
  rw [exec_startInstr]
  by_cases hi : s.fsm = .idle
  · cases hv : startValid s.config (framingOf t) p with
    | true => exact ⟨_, startSession_accepted t k p s hi hv⟩
    | false => exact ⟨_, startSession_invalid t k p s hi hv⟩
  · exact ⟨_, startSession_wrongState t k p s hi⟩

/-- From the invariant a `TICK` in `Running` has a technique and a bit to step (R21, R32). -/
theorem MachineInv.tick_answers {s : State} (h : MachineInv s) : ∃ u, exec .tick s = .next u := by
  by_cases hr : s.fsm = .running
  · rcases machineInv_cases h with ⟨hi, -⟩ | ⟨-, t, k, hsess⟩
    · exact absurd (hi.symm.trans hr) (by decide)
    have hnotDone : s.position ≠ s.processedData.length := by simp [← hsess.progress.done, hr]
    have hlt := Nat.lt_of_le_of_ne hsess.progress.inside hnotDone
    obtain ⟨u, hu, -⟩ := exec_tick_of_remaining hr hsess.latched.tech hlt
    exact ⟨u, hu⟩
  · exact ⟨_, execTick_wrongState s hr⟩

/-- From the invariant every command is executed or refused (R13, R21). -/
theorem MachineInv.exec_answers {s : State} (h : MachineInv s) (i : Instr) : ∃ u, exec i s = .next u := by
  by_cases hunit : isUnit i = true
  · rcases exec_unit s i hunit with ⟨r, hr⟩ | hrefused
    · exact ⟨_, hr⟩
    · exact ⟨_, hrefused⟩
  by_cases hstart : isStart i = true
  · obtain ⟨t, k, p, rfl⟩ := start_of_isStart i hstart
    exact exec_start_answers t k p s
  cases i <;> simp [isUnit, isStart] at hunit hstart
  case reset => exact ⟨_, exec_reset s⟩
  case tick => exact h.tick_answers
  case arm => rw [exec_arm]; split <;> exact ⟨_, rfl⟩
  case pause => rw [exec_pause]; split <;> exact ⟨_, rfl⟩
  case resume => rw [exec_resume]; split <;> exact ⟨_, rfl⟩

/-! ## Frames (R37, R61, R70, R160) -/

/-- The parameters and the port are no command's to write. -/
theorem exec_config_port {i : Instr} {s u : State} (h : exec i s = .next u) : u.config = s.config ∧ u.port = s.port := by
  rcases exec_cases h with ⟨k, rfl⟩ | ⟨-, r, rfl⟩ | ⟨-, rfl⟩ | ⟨t, k, p, -, -, -, rfl⟩ | ⟨-, t, b, -, -, -, rfl⟩ |
    ⟨-, -, rfl⟩ | ⟨-, -, rfl⟩ | ⟨-, -, rfl⟩
  · exact ⟨rfl, rfl⟩
  · exact ⟨rfl, rfl⟩
  · exact ⟨rfl, rfl⟩
  · exact ⟨rfl, rfl⟩
  · simp
  all_goals exact ⟨rfl, rfl⟩

/-- Every command keeps both sets of positions in canonical form (log entry 12). -/
theorem memory_wf_exec {i : Instr} {s u : State} (h : exec i s = .next u) (hwf : Memory.wf s = true) :
    Memory.wf u = true := by
  rcases exec_cases h with ⟨k, rfl⟩ | ⟨-, r, rfl⟩ | ⟨-, rfl⟩ | ⟨t, k, p, -, -, -, rfl⟩ | ⟨-, t, b, -, -, -, rfl⟩ |
    ⟨-, -, rfl⟩ | ⟨-, -, rfl⟩ | ⟨-, -, rfl⟩
  · exact hwf
  · exact hwf
  · exact memory_wf_reset
  · exact memory_wf_beginSession t k p s
  · exact memory_wf_completeIfDone t _ (memory_wf_bitStep t b s hwf)
  all_goals exact hwf

theorem isStart_startInstr (t : Technique) (k : Kind) (p : List Bit) : isStart (startInstr t k p) = true := by
  cases t <;> rfl

/-- Short of `RESET` and an accepted `START`, a command writes the control state and the report alone, or steps a bit (R61). -/
theorem exec_cases_of_latched {i : Instr} {s u : State} (h : exec i s = .next u) (hreset : i ≠ .reset)
    (hstart : isStart i = true → s.fsm ≠ .idle) :
    (∃ f a st r, u = { s with fsm := f, pendingErrorInjection := a, status := st, result := r }) ∨
    (∃ t b, u = { completeIfDone t (bitStep t b s) with status := .ok, result := none }) := by
  rcases exec_cases h with ⟨k, rfl⟩ | ⟨-, r, rfl⟩ | ⟨hi, -⟩ | ⟨t, k, p, rfl, hidle, -⟩ | ⟨-, t, b, -, -, -, rfl⟩ |
    ⟨-, -, rfl⟩ | ⟨-, -, rfl⟩ | ⟨-, -, rfl⟩
  · exact .inl ⟨s.fsm, s.pendingErrorInjection, k, s.result, rfl⟩
  · exact .inl ⟨s.fsm, s.pendingErrorInjection, .ok, some r, rfl⟩
  · exact absurd hi hreset
  · exact absurd hidle (hstart (isStart_startInstr t k p))
  · exact .inr ⟨t, b, rfl⟩
  · exact .inl ⟨s.fsm, true, .ok, none, rfl⟩
  · exact .inl ⟨.paused, s.pendingErrorInjection, .ok, none, rfl⟩
  · exact .inl ⟨.running, s.pendingErrorInjection, .ok, none, rfl⟩

/-! ## The statements -/

/-- Settles O49: in `Idle` the invariant says that every element has its reset value. -/
theorem sessionInvariantHoldsAtReset : Obligations.SessionInvariantHoldsAtReset := machineInv_reset _ _

/-- Settles O50: taking a transaction writes nothing the invariant reads, and every command keeps it. -/
theorem everyStepKeepsTheSessionInvariant : Obligations.EveryStepKeepsTheSessionInvariant := by
  intro s u h hstep
  rcases step_cases hstep with ⟨-, rfl⟩ | ⟨tx, rest, e, -, -, rfl⟩ | ⟨tx, rest, i, -, -, hexec⟩
  · exact h
  · exact h.with_report_and_port .illegalCommand s.result rest
  · exact (h.with_report_and_port s.status s.result rest).after_exec hexec

/-- Settles O51: a step waits, refuses its transaction or runs its command, and from the invariant no command faults. -/
theorem invariantHoldsEveryStepAnswersNext : Obligations.InvariantHoldsEveryStepAnswersNext := by
  intro s h
  cases hp : s.port with
  | nil => exact ⟨s, step_nil s hp⟩
  | cons tx rest =>
    rcases hd : decode tx with e | i
    · exact ⟨_, step_of_decode_error hp hd⟩
    · obtain ⟨u, hu⟩ := (h.with_report_and_port s.status s.result rest).exec_answers i
      exact ⟨u, (stepRunsTheDecodedCommand.1 s tx rest i hp hd).trans hu⟩

/-- Settles O45: results with `OK`, or `IllegalCommand`. -/
theorem unitOperationsTouchOnlyResultsAndStatus : Obligations.UnitOperationsTouchOnlyResultsAndStatus := by
  intro s i hi
  rcases exec_unit s i hi with ⟨r, hr⟩ | hrefused
  · exact ⟨_, hr, rfl, .inl rfl⟩
  · exact ⟨_, hrefused, rfl, .inr rfl⟩

/-- Settles O46: a step takes the first transaction, and neither refusing nor running it writes the parameters or the port. -/
theorem commandsLeaveParametersAndPortAlone : Obligations.CommandsLeaveParametersAndPortAlone := by
  refine ⟨fun s u i h => exec_config_port h, fun s u h => ?_⟩
  rcases step_cases h with ⟨hp, rfl⟩ | ⟨tx, rest, e, hp, -, rfl⟩ | ⟨tx, rest, i, hp, -, hexec⟩
  · exact ⟨rfl, by rw [hp]; rfl⟩
  · exact ⟨rfl, by rw [hp]; rfl⟩
  · rw [hp]
    exact exec_config_port hexec

/-- Settles O48: refusing a transaction writes no set of positions, and every command keeps their form. -/
theorem positionSetsStayCanonical : Obligations.PositionSetsStayCanonical := by
  refine ⟨memory_wf_reset, fun s u hwf h => ?_⟩
  rcases step_cases h with ⟨-, rfl⟩ | ⟨tx, rest, e, -, -, rfl⟩ | ⟨tx, rest, i, -, -, hexec⟩
  · exact hwf
  · exact hwf
  · exact memory_wf_exec hexec hwf

/-- Settles O26: a bit-step appends, and only a completing one writes the completion outputs. -/
theorem tickFrame : Obligations.TickFrame := by
  intro s u h
  rcases execTick_cases h with ⟨hnr, rfl⟩ | ⟨t, b, hr, -, -, rfl⟩
  · exact ⟨rfl, rfl, rfl, rfl, rfl, rfl, rfl, List.prefix_rfl, List.prefix_rfl, fun _ _ => Iff.rfl, fun _ => rfl,
      fun _ => ⟨rfl, rfl, rfl⟩⟩
  · refine ⟨by simp, by simp, by simp, by simp, by simp, by simp, by simp, by simp, by simp, fun q hq => by simp [hq],
      fun hnr => absurd hr hnr, fun hc => ?_⟩
    have hshort : completeIfDone t (bitStep t b s) = bitStep t b s := completeIfDone_eq_self t _ hc
    simp [hshort]

/-- Settles O47: short of `RESET` and an accepted `START`, only `TICK` writes what a session holds. -/
theorem stageOutputsAreImmutable : Obligations.StageOutputsAreImmutable := by
  intro s u i hreset hstart h
  rcases exec_cases_of_latched h hreset hstart with ⟨f, a, st, r, rfl⟩ | ⟨t, b, rfl⟩
  · exact ⟨rfl, rfl, rfl, rfl, rfl, List.prefix_rfl, List.prefix_rfl, le_rfl, fun _ hq => hq⟩
  · exact ⟨by simp, by simp, by simp, by simp, by simp, by simp, by simp, by simp, fun q hq => by simp [hq]⟩

end Sys2Proof.Safety

/-! PROOFS of the statements about the start of each session, the order of the refusals, good frames and what an armed error
changes (spec/45_session_stepper.md sections 2, 4 and 7, spec/42_framer_byte_stuffing.md, spec/60_exceptions.md section 2). -/

/-! ## START (R153 to R156) -/

namespace Sys2Proof.Safety

open Sys2Proof.Machine

/-- In `Idle`, `START` of a payload that passes its tests answers the session-start state (R156). -/
theorem exec_start_startedState {t : Technique} {p : List Bit} {s : State} (k : Kind) (hi : s.fsm = .idle) (hp : p ≠ [])
    (h8 : framingOf t = .byte → p.length % 8 = 0)
    (hcap : ∀ c, s.config.cap = some c → (frame (framingOf t) p).1.length ≤ c) :
    exec (startInstr t k p) s = .next (startedState t k p (frame (framingOf t) p).1 (frame (framingOf t) p).2
      (initLevel s.config (lineCodeOf t)) s) :=
  (exec_startInstr t k p s).trans
    (startSession_accepted t k p s hi ((startValid_iff s.config (framingOf t) p).mpr ⟨hp, h8, hcap⟩))

/-- Settles O10: without framing the framed bitstring is the payload. -/
theorem startWithoutFramingBeginsASession : Obligations.StartWithoutFramingBeginsASession :=
  fun _ k _ hi hp hcap =>
    ⟨exec_start_startedState (t := .nrzl) k hi hp nofun hcap, exec_start_startedState (t := .nrzi) k hi hp nofun hcap,
      exec_start_startedState (t := .manchester) k hi hp nofun hcap,
      exec_start_startedState (t := .diffmanchester) k hi hp nofun hcap⟩

/-- Settles O11: bit stuffing frames the payload. -/
theorem startBitstuffBeginsASession : Obligations.StartBitstuffBeginsASession :=
  fun _ k _ hi hp hcap => exec_start_startedState (t := .bitstuff) k hi hp nofun hcap

/-- Settles O12: byte stuffing frames the payload, which its alignment test passes. -/
theorem startBytestuffBeginsASession : Obligations.StartBytestuffBeginsASession :=
  fun _ k _ hi hp h8 hcap => exec_start_startedState (t := .bytestuff) k hi hp (fun _ => h8) hcap

/-- Settles O18: the word is tested before the state, and the state before the payload. -/
theorem refusalsAreTestedInOrder : Obligations.RefusalsAreTestedInOrder := by
  refine ⟨fun s rest hr hp => ?_, fun s p hr => ?_, fun s hi => ?_⟩
  · have hword : decodeOpcode 0x16#8 = none := by decide
    exact step_of_decode_error hp (decode_of_illegalWord hword)
  · exact exec_start_wrongState (by simp [hr]) .bytestuff .bitstream p
  · exact startSession_invalid .bytestuff .bitstream [] s hi (startValid_eq_false (.inl rfl))

/-! ## Good frames (R123, R124) -/

/-- The flag is false exactly on the good frames (R123). -/
theorem destuffBytes_err_eq_false_iff (cfg : Config) (x : List Bit) :
    (destuffBytes cfg x).2 = false ↔ ∃ gs : List Segment, (∀ g ∈ gs, g.good) ∧ x = frameOf gs := by
  refine ⟨fun h => ?_, ?_⟩
  · rw [destuffBytes, bestEffortOutput_err] at h
    obtain ⟨gs, rest, hgs, hrest, rfl | ⟨hflag, rfl⟩⟩ := exists_segments_after_flag x
    · rw [destuffByteScan_flag, unescapeCells_segments hgs, unescapeCells_of_stopsScan hrest] at h
      have hend : rest = flagByte := by simpa using h
      exact ⟨gs, hgs, by rw [hend, frameOf, List.append_assoc]⟩
    · rw [destuffByteScan_no_flag _ hflag] at h
      cases h
  · rintro ⟨gs, hgs, rfl⟩
    rw [destuffBytes_frameOf cfg hgs]

/-- Settles O43: only a leading FLAG, segments and one FLAG pass the scan, and both bounds hold of every output. -/
theorem destuffByteAcceptsExactlyTheGoodFrames : Obligations.DestuffByteAcceptsExactlyTheGoodFrames := by
  refine ⟨fun s x => ?_, fun s gs hgs => by rw [exec_destuffByte, destuffBytes_frameOf _ hgs]⟩
  exact ⟨_, _, exec_destuffByte x s, destuffBytes_err_eq_false_iff s.config x, destuffBytes_length s.config x⟩

/-! ## What an error changes (R162, section 7) -/

/-- R143: Manchester's decoder leaves its level alone. -/
theorem decodeMan_level (i : Nat) (m : Level) (pts : List SignalPoint) : (decodeMan i m pts).2 = m := by
  unfold decodeMan
  split <;> rfl

/-- R144: Differential Manchester's decoder takes the level at the end of the interval, whatever it reads. -/
theorem decodeDman_level (i : Nat) (m : Level) (pts : List SignalPoint) :
    (decodeDman i m pts).2 = lastLevel m pts := by
  unfold decodeDman
  split <;> rfl

/-- R145: with an error armed or not, the decoder carries the same level on. -/
theorem plainDecode_decLevel (cfg : Config) (lc : LineCode) (b : Bit) (i : Nat) (l m : Level) :
    (plainDecode cfg lc i m (encodeLine cfg lc b i l).1).decLevel =
      (injectedDecode lc b m (encodeLine cfg lc b i l).1).decLevel := by
  cases lc with
  | nrzl => rfl
  | nrzi => rfl
  | man => exact decodeMan_level i m _
  | dman => exact decodeDman_level i m _

/-- The level a bit-step's decoding half carries on does not depend on the flag. -/
theorem stepDecoded_decLevel_of_flag (t : Technique) (b : Bit) (s : State) :
    (stepDecoded t b { s with pendingErrorInjection := false }).decLevel =
      (stepDecoded t b { s with pendingErrorInjection := true }).decLevel := by
  rw [stepDecoded_plain _ _ _ rfl, stepDecoded_injected _ _ _ rfl]
  exact plainDecode_decLevel s.config (lineCodeOf t) b s.position s.encLevel s.decLevel

/-- The completion test reads `position`, `processedData` and `fsm` alone (R164). -/
theorem completeIfDone_fsm_congr (t : Technique) {s s' : State} (hpos : s.position = s'.position)
    (hpd : s.processedData = s'.processedData) (hfsm : s.fsm = s'.fsm) :
    (completeIfDone t s).fsm = (completeIfDone t s').fsm := by
  rw [completeIfDone_fsm, completeIfDone_fsm, hpos, hpd, hfsm]

/-- Settles O57: the encoding half of a bit-step does not read the flag, and the decoding half carries the same level. -/
theorem injectionLeavesTheSignalAlone : Obligations.InjectionLeavesTheSignalAlone := by
  intro s u v t ht hu hv hr
  rcases execTick_cases hu with ⟨hnr, -⟩ | ⟨t', b, -, ht', hb, rfl⟩
  · exact absurd hr hnr
  obtain rfl := Option.some.inj (ht'.symm.trans ht)
  rw [exec_tick { s with pendingErrorInjection := true } t' b hr ht hb] at hv
  obtain rfl := Host.Outcome.next.inj hv
  have hlevel := stepDecoded_decLevel_of_flag t' b s
  refine ⟨?_, ?_, ?_, ?_, ?_⟩
  · simp [stepEncoded]
  · simp [stepEncoded]
  · simpa using hlevel
  · simp
  · exact completeIfDone_fsm_congr t' rfl rfl rfl

/-- A completed unframed session delivers what was received of the payload (R170). -/
theorem SessionInv.finalBits_of_plain {t : Technique} {k : Kind} {s : State} (h : SessionInv t k s)
    (hc : s.fsm = .completed) (hf : framingOf t = .plain) :
    s.finalBits = received s.errorPositions 0 s.origData := by
  have horig : s.processedData = s.origData := by rw [h.latched.processed, hf, frame]
  have hout := h.outputs.deframed hc
  rw [hf, h.decodedBits_of_completed hc, horig] at hout
  exact congrArg Prod.fst hout

/-- Settles O56: what was received is the payload complemented at the positions in error. -/
theorem unframedErrorsShowExactlyWhereTheyWere : Obligations.UnframedErrorsShowExactlyWhereTheyWere := by
  intro s t h hc ht hf
  obtain ⟨k, hsess⟩ := sessionInv_of_tech h ht
  rw [hsess.finalBits_of_plain hc hf]
  refine ⟨received_length _ _ _, fun i b hb => ?_⟩
  simpa using received_get s.errorPositions 0 s.origData i b hb

end Sys2Proof.Safety
